-- ==== Sys2Proof/Word.lean ====
section
/-! DEFINITION. The engine's widths, named once: words, bytes, register values, binary64 patterns
(R5 of 00_scope.md, R16 of 10_state.md, R11 of 00_scope.md). -/

namespace Sys2Proof

/-- A 32-bit word: an element of RA, a command word, a status word, a member hash (R5, R51). -/
abbrev Word := BitVec 32

/-- One byte of a payload or of a result (R51). -/
abbrev Byte := BitVec 8

/-- The value of one HLL register, 5 bits unsigned (R16); also the V field of a command (R52). -/
abbrev RegVal := BitVec 5

/-- The bit pattern of an IEEE 754 binary64 value (R11). The estimator meets only values that are
not negative. -/
abbrev B64 := BitVec 64

end Sys2Proof
end

