-- ==== Sys2Proof/Machine/Bits.lean ====
section
/-! DEFINITION. The notation of 00_scope.md section 5 and 6 (R8 to R12): bit fields, integer
operators, leading zeros, big-endian bytes. -/

namespace Sys2Proof.Machine

/-- `v[hi:lo]`, "the field of bits `hi` down to `lo` inclusive, read as an unsigned integer" (R8). -/
def slice (v hi lo : Nat) : Nat := v / 2 ^ lo % 2 ^ (hi + 1 - lo)

/-- `ceil_div(a, b) = (a + b − 1) div b` (R9). -/
def ceilDiv (a b : Nat) : Nat := (a + b - 1) / b

/-- `clz32(v)`, the number of leading zero bits, 32 for 0 (R10). -/
def clz32 (v : Word) : Nat := if v = 0 then 32 else 31 - v.toNat.log2

/-- A word as 4 bytes, most significant first (R33, R34): `emit32` of R12. -/
def be32 (v : Word) : List Byte :=
  [v.extractLsb' 24 8, v.extractLsb' 16 8, v.extractLsb' 8 8, v.extractLsb' 0 8]

/-- A 64-bit value as 8 bytes, most significant first (R34): `emit64` of R12. -/
def be64 (v : BitVec 64) : List Byte := be32 (v.extractLsb' 32 32) ++ be32 (v.extractLsb' 0 32)

/-- `{a, b, c, d}`: four bytes as a word, the first the most significant (R8, R33). -/
def beWord (a b c d : Byte) : Word := a ++ b ++ c ++ d

/-- The words of a byte list, four bytes each, big-endian: element `i` is `BE32(PAY, i)` (R12). -/
def beWords : List Byte → List Word
  | a :: b :: c :: d :: rest => beWord a b c d :: beWords rest
  | _ => []

/-- `Σ f(p)` over `base ≤ p < base + 2^k`, by halves (R92 sums over all COUNT = 2^LOG2M registers). -/
def sumPow (f : Nat → Nat) : Nat → Nat → Nat
  | 0, base => f base
  | k + 1, base => sumPow f k base + sumPow f k (base + 2 ^ k)

end Sys2Proof.Machine
end

