-- ==== Sys2Proof/Config.lean ====
section
/-! DEFINITION. What an implementation of the engine fixes (R5 of 00_scope.md: FIELD_SHIFT and LN64
are named parameters), and the free values, which have no body. -/

namespace Sys2Proof

/-- FIELD_SHIFT: the position of the low bit of each of the six slots of a word (R5, R38; D5). -/
structure FieldShift where
  s0 : Nat
  s1 : Nat
  s2 : Nat
  s3 : Nat
  s4 : Nat
  s5 : Nat
deriving DecidableEq, Repr

/-- Which natural logarithm the engine has: LN64 is a named parameter (R5, R96; D15). -/
inductive LnChoice where
  /-- The default of R5 and D15: the binary64 value nearest to the exact natural logarithm. -/
  | correctlyRounded
  /-- Some other logarithm, about which nothing is known but what R96 demands
  (DESIGN CHOICE, log entry 6). -/
  | implementation (n : Nat)
deriving DecidableEq, Repr

/-- The parameters of one engine. They stand in State because a meaning takes nothing else; no step
changes them (DESIGN CHOICE, log entry 5). -/
structure Params where
  fieldShift : FieldShift
  ln : LnChoice
deriving DecidableEq, Repr

/-- FREE VALUE. Word `w` of RA after the reset that draws number `n`: R29 says RA is "unspecified,
any value" after reset (log entry 4). -/
opaque Config.freeWord : Nat → Nat → Word

/-- FREE VALUE. What LN64 number `n` answers (R96, D15: an open parameter; log entry 6). -/
opaque Config.freeLn : Nat → B64 → B64

/-- FREE VALUE. The correctly rounded logarithm of a value that the model's 256-bit enclosure does
not settle (log entry 7). -/
opaque Config.unsettledLn : B64 → B64

end Sys2Proof
end

