-- ==== Sys2Proof/Syntax.lean ====
section
/-! DEFINITION. The commands, one constructor for each row of spec/opcode_table.json (R55 of
30_encoding.md), and the transactions that carry them (R51). -/

namespace Sys2Proof

/-- The commands of HLLE-CMD version 1 (R2, R55), then the two illegal opcodes (R58). `v` is the
5-bit V field, `p` the P field as a number (R54). The payload is the transaction's, not the
command's. -/
inductive Instr where
  | nop
  | config (v : RegVal)
  | clear
  | set (v : RegVal) (p : Nat)
  | get (p : Nat)
  | updmax (v : RegVal) (p : Nat)
  | hashrank
  | add (p : Nat)
  | load (p : Nat)
  | merge (p : Nat)
  | ser
  | estimate
  | bytesneeded (v : RegVal)
  | qcfg
  /-- OP = 0xE with any other bits (R58). -/
  | illegalE (rest : BitVec 28)
  /-- OP = 0xF with any other bits (R58). -/
  | illegalF (rest : BitVec 28)
deriving DecidableEq, Repr

/-- A transaction: the command word CW and the payload PAY (R51). -/
structure Txn where
  cw : Word
  pay : List Byte
deriving DecidableEq, Repr

/-- What the port delivers (DESIGN CHOICE, log entry 1): a transaction (R51), or the platform's reset
input, which may cut a transaction that is executing (R120). -/
inductive Request where
  | txn (t : Txn)
  | reset (inFlight : Option Txn)
deriving DecidableEq, Repr

end Sys2Proof
end

