-- ==== Sys2Proof/WellFormed.lean ====
section
/-! DEFINITION. Which terms stand for something the spec has: commands whose P field fits (R52),
transactions the port carries (R51), layouts that D5 admits (92_eei_decisions.md). -/

namespace Sys2Proof

/-- P is a 16-bit field (R52). -/
def Instr.wf : Instr → Bool
  | .nop => true
  | .config _ => true
  | .clear => true
  | .set _ p => decide (p < 65536)
  | .get p => decide (p < 65536)
  | .updmax _ p => decide (p < 65536)
  | .hashrank => true
  | .add p => decide (p < 65536)
  | .load p => decide (p < 65536)
  | .merge p => decide (p < 65536)
  | .ser => true
  | .estimate => true
  | .bytesneeded _ => true
  | .qcfg => true
  | .illegalE _ => true
  | .illegalF _ => true

/-- A payload is "a list of 0 to 65535 bytes" (R51). -/
def Txn.wf (t : Txn) : Bool := decide (t.pay.length ≤ 65535)

/-- The positions in slot order. -/
def FieldShift.positions (fs : FieldShift) : List Nat :=
  [fs.s0, fs.s1, fs.s2, fs.s3, fs.s4, fs.s5]

/-- D5: "It must place the six fields at distinct, non-overlapping positions within bits 31:2." -/
def FieldShift.legal (fs : FieldShift) : Bool :=
  fs.positions.all (fun a => decide (2 ≤ a ∧ a + 4 ≤ 31)) &&
    decide (fs.positions.Pairwise (fun a b => a + 5 ≤ b ∨ b + 5 ≤ a))

end Sys2Proof
end

