-- ==== Sys2Proof/Decode.lean ====
section
/-! DEFINITION. Command encoding (30_encoding.md): the fields of a command word (R52), the formats
(R53), the opcode map (R55), reserved and illegal encodings (R58, R61), payload lengths (R56), the
framing of a byte-serial port (R34, R57); then the encoder. -/

namespace Sys2Proof

open Machine (slice be32 beWord)

/-- Why a decoder answers no command. -/
inductive Reject where
  /-- A reserved or unused field is nonzero (R53, R58): the engine answers RESERVED_FIELD. -/
  | reservedField
  /-- Fewer than the 4 bytes of a command word (R57): a byte-serial port waits for more. -/
  | truncated
deriving DecidableEq, Repr

/-- OP, bits 31:28 (R52). -/
def opField (cw : Word) : Nat := slice cw.toNat 31 28

/-- RSV, bits 27:21 (R52). -/
def rsvField (cw : Word) : Nat := slice cw.toNat 27 21

/-- V, bits 20:16 (R52, R54). -/
def vField (cw : Word) : RegVal := BitVec.ofNat 5 (slice cw.toNat 20 16)

/-- P, bits 15:0 (R52, R54). -/
def pField (cw : Word) : Nat := slice cw.toNat 15 0

/-- The bits below OP, all of them free in an illegal opcode (R58). -/
def restField (cw : Word) : BitVec 28 := BitVec.ofNat 28 (slice cw.toNat 27 0)

/-- The five formats of R53, and the illegal opcodes' (opcode_table.json). -/
inductive Format where
  | Z
  | V
  | P
  | PV
  | L
  | illegal
deriving DecidableEq, Repr

/-- The format of each opcode (R55). -/
def opFormat : Nat → Format
  | 0x0 => .Z
  | 0x1 => .V
  | 0x2 => .Z
  | 0x3 => .PV
  | 0x4 => .P
  | 0x5 => .PV
  | 0x6 => .Z
  | 0x7 => .L
  | 0x8 => .L
  | 0x9 => .L
  | 0xA => .Z
  | 0xB => .Z
  | 0xC => .V
  | 0xD => .Z
  | _ => .illegal

/-- RSV and every field the format does not use are zero (R53, R58). -/
def fieldsLegal (f : Format) (cw : Word) : Bool :=
  match f with
  | .Z => rsvField cw == 0 && vField cw == 0 && pField cw == 0
  | .V => rsvField cw == 0 && pField cw == 0
  | .P => rsvField cw == 0 && vField cw == 0
  | .PV => rsvField cw == 0
  | .L => rsvField cw == 0 && vField cw == 0
  | .illegal => true

/-- The command that OP selects, with the operands its format uses (R53, R55). -/
def opInstr (op : Nat) (cw : Word) : Instr :=
  match op with
  | 0x0 => .nop
  | 0x1 => .config (vField cw)
  | 0x2 => .clear
  | 0x3 => .set (vField cw) (pField cw)
  | 0x4 => .get (pField cw)
  | 0x5 => .updmax (vField cw) (pField cw)
  | 0x6 => .hashrank
  | 0x7 => .add (pField cw)
  | 0x8 => .load (pField cw)
  | 0x9 => .merge (pField cw)
  | 0xA => .ser
  | 0xB => .estimate
  | 0xC => .bytesneeded (vField cw)
  | 0xD => .qcfg
  | 0xE => .illegalE (restField cw)
  | _ => .illegalF (restField cw)

/-- "a decoder selects the command by OP alone, and then checks the fields of rule R53" (R55). An
illegal opcode is found before any field is looked at (R110). -/
def decode (cw : Word) : Except Reject Instr :=
  if fieldsLegal (opFormat (opField cw)) cw then .ok (opInstr (opField cw) cw)
  else .error .reservedField

/-- Decoding from the bytes of a port, most significant first (R34, R57), with the rest of the list. -/
def decodeBytes : List Byte → Except Reject (Instr × List Byte)
  | a :: b :: c :: d :: rest =>
    match decode (beWord a b c d) with
    | .ok i => .ok (i, rest)
    | .error r => .error r
  | _ => .error .truncated

/-- PLEN(CW), "a function of OP and P alone" (R56, R57). R56 gives the illegal opcodes no length: the
model takes 0 (DESIGN CHOICE, log entry 11). -/
def plenWord (cw : Word) : Nat :=
  match opField cw with
  | 0x6 => 4
  | 0x7 => pField cw
  | 0x8 => pField cw
  | 0x9 => pField cw
  | _ => 0

/-- A transaction as a byte-serial port carries it (R34, R51). -/
def Txn.bytes (t : Txn) : List Byte := be32 t.cw ++ t.pay

/-- A byte-serial port's framing: the command word tells the payload's length (R57). `none`: the
transaction has not wholly arrived. -/
def frame : List Byte → Option (Txn × List Byte)
  | a :: b :: c :: d :: rest =>
    let cw := beWord a b c d
    if plenWord cw ≤ rest.length then
      some (⟨cw, rest.take (plenWord cw)⟩, rest.drop (plenWord cw))
    else none
  | _ => none

/-- OP of a command (R55). -/
def opcode : Instr → Nat
  | .nop => 0x0
  | .config _ => 0x1
  | .clear => 0x2
  | .set _ _ => 0x3
  | .get _ => 0x4
  | .updmax _ _ => 0x5
  | .hashrank => 0x6
  | .add _ => 0x7
  | .load _ => 0x8
  | .merge _ => 0x9
  | .ser => 0xA
  | .estimate => 0xB
  | .bytesneeded _ => 0xC
  | .qcfg => 0xD
  | .illegalE _ => 0xE
  | .illegalF _ => 0xF

/-- The bits 27:0 of a command: RSV = 0, V, P (R52). -/
def fieldBits (v : RegVal) (p : Nat) : BitVec 28 := 0#7 ++ v ++ BitVec.ofNat 16 p

/-- The bits 27:0 of a command's word, a field that its format does not use being 0 (R53). -/
def operandBits : Instr → BitVec 28
  | .nop => fieldBits 0 0
  | .config v => fieldBits v 0
  | .clear => fieldBits 0 0
  | .set v p => fieldBits v p
  | .get p => fieldBits 0 p
  | .updmax v p => fieldBits v p
  | .hashrank => fieldBits 0 0
  | .add p => fieldBits 0 p
  | .load p => fieldBits 0 p
  | .merge p => fieldBits 0 p
  | .ser => fieldBits 0 0
  | .estimate => fieldBits 0 0
  | .bytesneeded v => fieldBits v 0
  | .qcfg => fieldBits 0 0
  | .illegalE rest => rest
  | .illegalF rest => rest

/-- The command word of a command (R52, R53, R55). -/
def encode (i : Instr) : Word := BitVec.ofNat 4 (opcode i) ++ operandBits i

/-- The command word as a port's 4 bytes, most significant first (R34). -/
def encodeBytes (i : Instr) : List Byte := be32 (encode i)

/-- The command word with the low `nbits` bits of `w`, every bit above them 0. -/
def tableWord (nbits w : Nat) : Word := BitVec.ofNat 32 (w % 2 ^ min nbits 32)

/-- The command the decoder reads from the bytes of a table row's word, laid out as the port carries
them. Every row of the table has one 32-bit word. -/
def decodeTableWord (nbits w : Nat) : Option Instr :=
  match decodeBytes (be32 (tableWord nbits w)) with
  | .ok (i, _) => some i
  | .error _ => none

end Sys2Proof
end

