-- ==== Sys2Proof/Machine/Params.lean ====
section
/-! DEFINITION. The fixed parameters of R5 (00_scope.md), the defaults of the named ones, and the
sizes derived from LOG2M (R6 of 00_scope.md, R22 of 10_state.md). -/

namespace Sys2Proof.Machine

/-- `SLOTS`: registers per word (R5). -/
def slots : Nat := 6

/-- `LOG2M_MIN` (R5, D4). -/
def log2mMin : Nat := 4

/-- `LOG2M_MAX` (R5, D4). -/
def log2mMax : Nat := 16

/-- `NWORDS_MAX`, the words of RA (R5, R17). -/
def numWordsMax : Nat := 10923

/-- `FIELD_SHIFT(k) = 5k + 2`, the default (R5, R38; D5). -/
def defaultFieldShift : FieldShift := ⟨2, 7, 12, 17, 22, 27⟩

/-- The defaults of the two named parameters (R5). -/
def defaultParams : Params := ⟨defaultFieldShift, .correctlyRounded⟩

/-- `FIELD_SHIFT(k)` for a slot `k` in 0..5 (R5, R38). -/
def fieldShiftOf (fs : FieldShift) : Nat → Nat
  | 0 => fs.s0
  | 1 => fs.s1
  | 2 => fs.s2
  | 3 => fs.s3
  | 4 => fs.s4
  | _ => fs.s5

/-- `COUNT = 2^LOG2M` (R22). -/
def countOf (log2m : Nat) : Nat := 2 ^ log2m

/-- `SIZE = ceil_div(COUNT, 6)` (R22). -/
def sizeWords (log2m : Nat) : Nat := ceilDiv (countOf log2m) slots

/-- The word that holds register `p`: `w(p) = p div 6` (R16, R36). -/
def wordOf (p : Nat) : Nat := p / slots

/-- The slot that holds register `p`: `k(p) = p mod 6` (R16, R36). -/
def slotOf (p : Nat) : Nat := p % slots

end Sys2Proof.Machine
end

