-- ==== Sys2Proof/Machine/State.lean ====
section
/-! DEFINITION. The engine's state as plain data (R15 of 10_state.md), the model's own fields for the
port and the open values, what a response is (R51, R59 of 30_encoding.md), and the state after reset
(R29, R120). -/

namespace Sys2Proof.Machine

/-- The words of RA that are not 0, by rising word index; every other word reads as 0 (R17, R31;
DESIGN CHOICE, log entry 2). -/
abbrev Memory := List (Nat × Word)

/-- The error codes (R107). -/
inductive ECode where
  | illegalOpcode
  | reservedField
  | payloadLength
  | notConfigured
  | configError
  | posRange
  | sizeMismatch
  | malformed
deriving DecidableEq, Repr

/-- The estimator's branches, EPATH of the status word (R59, R95). -/
inductive EPath where
  | none
  | linear
  | raw
  | fallback
deriving DecidableEq, Repr

/-- A response: the 32-bit status word and the result bytes (R51, R59, R60). -/
structure Response where
  status : Word
  result : List Byte
deriving DecidableEq, Repr

/-- The state. `configured`, `log2m` and `ra` are the spec's tuple
"S = (CONFIGURED : 1 bit, LOG2M : 5 bits, RA : array …)" (R15). `params` are the engine's parameters
(R5; log entry 5), `requests` and `responses` the two sides of the transaction port in port order
(R45, R51, R126; log entry 1), `draws` the counter of the free contents of RA (R29; log entry 4). -/
structure State where
  configured : Bool
  log2m : BitVec 5
  ra : Memory
  params : Params
  requests : List Request
  responses : List Response
  draws : Nat
deriving DecidableEq, Repr

/-- Nothing stops the engine: every transaction returns a response (R125; 93_implementation_defined.md:
"No point in this spec is treated as stuck"). So there is no fault, and the type is empty
(log entry 13). -/
inductive Fault
deriving DecidableEq, Repr

/-- Why a step is refused. -/
inductive Refusal where
  /-- Raised by `exec` alone, for a command that has no meaning in the model (safe). No arm of this
  model raises it. -/
  | notModelled (mnemonic : String)
deriving DecidableEq, Repr

/-- The state after reset (R29, R120): CONFIGURED = 0, LOG2M = 0. R29 leaves RA unspecified: the model
names 0 for every word (DESIGN CHOICE, log entry 3). The parameters have the defaults of R5. The
port is idle (DESIGN CHOICE, log entry 8) and no reset input has drawn yet (log entry 4). -/
def State.reset : State where
  configured := false
  log2m := 0
  ra := []
  params := defaultParams
  requests := []
  responses := []
  draws := 0

end Sys2Proof.Machine
end

