-- ==== Sys2Proof/Machine/Flags.lean ====
section
/-! DEFINITION. The fields of the response status word, which "play the part of flags" (R20 of
10_state.md, R59 of 30_encoding.md, R107 of 60_exceptions.md), none of which is kept in the state; and a
response as a byte-serial port carries it (R34 of 20_memory.md, R51, R57, R60 of 30_encoding.md). -/

namespace Sys2Proof.Machine

/-- The number of an error code (R107). -/
def ecodeNumber : ECode → Nat
  | .illegalOpcode => 1
  | .reservedField => 2
  | .payloadLength => 3
  | .notConfigured => 4
  | .configError => 5
  | .posRange => 6
  | .sizeMismatch => 7
  | .malformed => 8

/-- The number of a branch of the estimator (R59). -/
def epathNumber : EPath → Nat
  | .none => 0
  | .linear => 1
  | .raw => 2
  | .fallback => 3

/-- The status word: ECODE 3:0, UPDATED 4, EPATH 6:5, 0 above (R59). -/
def statusWord (ecode : Nat) (updated : Bool) (epath : EPath) : Word :=
  BitVec.ofNat 32 (ecode + (if updated then 1 else 0) * 2 ^ 4 + epathNumber epath * 2 ^ 5)

/-- Success with nothing to report. -/
def okStatus : Word := statusWord 0 false .none

/-- Success with the UPDATED bit of UPDMAX, ADD and MERGE (R59). -/
def updatedStatus (updated : Bool) : Word := statusWord 0 updated .none

/-- Success of ESTIMATE, with its branch (R59). -/
def epathStatus (path : EPath) : Word := statusWord 0 false path

/-- "A failed command returns ECODE ≠ 0, UPDATED = 0, EPATH = 0" (R59, R111). -/
def errorStatus (e : ECode) : Word := statusWord (ecodeNumber e) false .none

/-- ECODE of a status word, bits 3:0 (R59). -/
def statusECode (st : Word) : Nat := slice st.toNat 3 0

/-- UPDATED of a status word, bit 4 (R59). -/
def statusUpdated (st : Word) : Nat := slice st.toNat 4 4

/-- EPATH of a status word, bits 6:5 (R59). -/
def statusEPath (st : Word) : Nat := slice st.toNat 6 5

/-! ### The bytes of a response -/

/-- A response as a byte-serial port carries it: the status word "most significant byte first", then the
result, whose values are big-endian already (R34, R51, R60). -/
def Response.bytes (r : Response) : List Byte := be32 r.status ++ r.result

/-- RLEN from the command's OP, the configured SIZE and the status word: "it is zero for every failed
command" (R57, R60). -/
def resultLength (op size : Nat) (status : Word) : Nat :=
  if statusECode status ≠ 0 then 0
  else
    match op with
    | 0x4 => 4
    | 0x6 => 4
    | 0xA => 4 * size
    | 0xB => 8
    | 0xC => 4
    | 0xD => 4
    | _ => 0

/-- The host's framing of a response on a byte-serial port: the status word, then RLEN bytes (R57, R60).
`none`: the response has not wholly arrived. -/
def frameResponse (op size : Nat) : List Byte → Option (Response × List Byte)
  | a :: b :: c :: d :: rest =>
    let status := beWord a b c d
    let n := resultLength op size status
    if n ≤ rest.length then some (⟨status, rest.take n⟩, rest.drop n) else none
  | _ => none

end Sys2Proof.Machine
end

