-- ==== Sys2Proof/Machine/Ops.lean ====
section
/-! DEFINITION. The named operations over the word space and the registers (R16, R31, R39, R73, R74),
the response to a transaction, the error response (R13, R111: what this engine has in place of taking
an exception; it has no return from one, R112), and the reset input (R120). -/

namespace Sys2Proof.Machine

/-! ### The word space -/

/-- `RA[w]` (R12, R31). A word that is not listed is 0. -/
def Memory.read : Memory → Nat → Word
  | [], _ => 0
  | (a, v) :: rest, w => if w < a then 0 else if w = a then v else Memory.read rest w

/-- `RA[w] <- v` (R12, R31), keeping the list in its one form. -/
def Memory.write : Memory → Nat → Word → Memory
  | [], w, v => if v = 0 then [] else [(w, v)]
  | (a, u) :: rest, w, v =>
    if w < a then (if v = 0 then (a, u) :: rest else (w, v) :: (a, u) :: rest)
    else if w = a then (if v = 0 then rest else (w, v) :: rest)
    else (a, u) :: Memory.write rest w v

/-- The form: word indices strictly rising and below NWORDS_MAX, no word listed that is 0. -/
def Memory.wf (m : Memory) : Bool :=
  decide (m.Pairwise (fun c d => c.1 < d.1)) &&
    m.all (fun c => decide (c.1 < numWordsMax) && decide (c.2 ≠ 0))

/-- `for w in 0 .. n-1: RA[w] <- 0` (R76). -/
def Memory.clearBelow (m : Memory) (n : Nat) : Memory := m.filter (fun c => decide (n ≤ c.1))

/-- The listed words of a run of words that begins at index `base`. -/
def wordCells : Nat → List Word → Memory
  | _, [] => []
  | base, v :: rest =>
    if v = 0 then wordCells (base + 1) rest else (base, v) :: wordCells (base + 1) rest

/-- `for w in 0 .. |ws|-1: RA[w] <- ws[w]` (R81). -/
def Memory.store (m : Memory) (ws : List Word) : Memory :=
  wordCells 0 ws ++ m.clearBelow ws.length

/-! ### Slots and registers -/

/-- `SLOTMASK(k) = 0x1F << FIELD_SHIFT(k)` (R39). -/
def slotMask (fs : FieldShift) (k : Nat) : Word := 0x1F#32 <<< fieldShiftOf fs k

/-- The OR of `SLOTMASK(k)` over the slots of a list (R39). -/
def maskOf (fs : FieldShift) (ks : List Nat) : Word :=
  ks.foldr (fun k m => slotMask fs k ||| m) 0

/-- `PADMASK = ~(SLOTMASK(0) | ... | SLOTMASK(5))` (R39). -/
def padMask (fs : FieldShift) : Word := ~~~(maskOf fs (List.range slots))

/-- `USEDMASK(w) = OR of SLOTMASK(k) over k with 6w + k < COUNT` (R39). -/
def usedMask (fs : FieldShift) (count w : Nat) : Word :=
  maskOf fs ((List.range slots).filter (fun k => decide (slots * w + k < count)))

/-- `ILLEGALMASK(w) = ~USEDMASK(w)` (R39). -/
def illegalMask (fs : FieldShift) (count w : Nat) : Word := ~~~(usedMask fs count w)

/-- `getf(W, k) = (W >> FIELD_SHIFT(k)) & 0x1F`, 5 bits (R73). -/
def getf (fs : FieldShift) (w : Word) (k : Nat) : RegVal := (w >>> fieldShiftOf fs k).setWidth 5

/-- `setf(W, k, v) = (W & ~SLOTMASK(k)) | (zext_32(v) << FIELD_SHIFT(k))` (R74). -/
def setf (fs : FieldShift) (w : Word) (k : Nat) (v : RegVal) : Word :=
  (w &&& ~~~(slotMask fs k)) ||| (v.setWidth 32 <<< fieldShiftOf fs k)

/-- `x[p]` (R16, R73). -/
def readReg (fs : FieldShift) (m : Memory) (p : Nat) : RegVal :=
  getf fs (m.read (wordOf p)) (slotOf p)

/-- `x[p] <- v` (R16, R74). -/
def writeReg (fs : FieldShift) (m : Memory) (p : Nat) (v : RegVal) : Memory :=
  m.write (wordOf p) (setf fs (m.read (wordOf p)) (slotOf p) v)

/-- "if `value` is strictly greater than the current register, writes it and returns true, else
leaves state unchanged and returns false" (R79), both read as unsigned 5-bit values (R80). Shared by
UPDMAX, ADD and MERGE. -/
def raiseReg (fs : FieldShift) (m : Memory) (p : Nat) (v : RegVal) : Memory × Bool :=
  if readReg fs m p < v then (writeReg fs m p v, true) else (m, false)

/-- `raiseReg` of each pair in order, and whether any register rose (R71, R82). -/
def raiseAll (fs : FieldShift) : List (Nat × RegVal) → Memory → Memory × Bool
  | [], m => (m, false)
  | (p, v) :: rest, m =>
    let first := raiseReg fs m p v
    let later := raiseAll fs rest first.1
    (later.1, first.2 || later.2)

/-! ### The state's registers -/

/-- COUNT of the configuration (R22). -/
def State.count (s : State) : Nat := countOf s.log2m.toNat

/-- SIZE of the configuration (R22). -/
def State.size (s : State) : Nat := sizeWords s.log2m.toNat

/-- `x[p]` (R16). -/
def State.reg (s : State) (p : Nat) : RegVal := readReg s.params.fieldShift s.ra p

/-- The bits of word `w` that hold no register (R39). -/
def State.illegalMask (s : State) (w : Nat) : Word :=
  Sys2Proof.Machine.illegalMask s.params.fieldShift s.count w

/-- The array replaced. -/
def State.withRa (s : State) (m : Memory) : State :=
  { s with ra := m }

/-- CFG written by a successful CONFIG (R21, R105). -/
def State.withConfig (s : State) (n : BitVec 5) : State :=
  { s with configured := true, log2m := n }

/-- CFG as it is read: CONFIGURED 31, LOG2M 20:16, SIZE 15:0 (0 when not configured), 0 elsewhere
(R21, R106). -/
def cfgWord (s : State) : Word :=
  ((if s.configured then 1#32 else 0#32) <<< 31) ||| (s.log2m.setWidth 32 <<< 16) |||
    BitVec.ofNat 32 (if s.configured then s.size else 0)

/-! ### Responses, errors, reset -/

/-- The transaction at the head of the port ends: its response is returned, and the port turns to the
next request (R45, R46, R51). -/
def State.respond (s : State) (status : Word) (result : List Byte) : State :=
  { s with requests := s.requests.tail, responses := s.responses ++ [⟨status, result⟩] }

/-- `raise E`: the response carries ECODE = E and nothing else, "The engine state is exactly the state
before the command" (R13, R111). -/
def raiseError (e : ECode) (s : State) : Host.Outcome State Fault Refusal :=
  .next (s.respond (errorStatus e) [])

/-- RA after the reset that draws number `n`: every word a free value (R29, R120; log entry 4). -/
def freeArray (n : Nat) : Memory :=
  Memory.store [] ((List.range numWordsMax).map (Config.freeWord n))

/-- The reset input: CONFIGURED = 0, LOG2M = 0, RA unspecified; a transaction in flight returns no
response (R120). The responses already returned stay with the host. -/
def takeReset (s : State) : Host.Outcome State Fault Refusal :=
  .next { s with
    configured := false
    log2m := 0
    ra := freeArray s.draws
    requests := s.requests.tail
    draws := s.draws + 1 }

/-- Nothing has arrived: the engine waits (R121; DESIGN CHOICE that a waiting step changes nothing,
log entry 10). -/
def waitForRequest (s : State) : Host.Outcome State Fault Refusal := .next s

/-- A command word that is no command: RESERVED_FIELD (R58). A word of a transaction is never cut
short, since R51 makes it 32 bits. -/
def rejectWord (s : State) : Host.Outcome State Fault Refusal := raiseError .reservedField s

end Sys2Proof.Machine
end

