-- ==== Sys2Proof/Machine/Operands.lean ====
section
/-! DEFINITION. Where the commands find their operands (R54 of 30_encoding.md): the V and P fields,
and the payload of the transaction in service as hashes or as a blob (R12, R33, R34, R56). -/

namespace Sys2Proof.Machine

/-- `PAY`: the payload of the transaction at the head of the port (R12). -/
def State.pay (s : State) : List Byte :=
  match s.requests with
  | .txn t :: _ => t.pay
  | _ => []

/-- The payload's 32-bit words; element `i` is `BE32(PAY, i)` (R12). -/
def State.payWords (s : State) : List Word := beWords s.pay

/-- `BE32(PAY, 0)`, the hash of a HASHRANK (R70). -/
def State.payHash (s : State) : Word := s.payWords.headD 0

/-- PLEN of a command (R56). The illegal opcodes have none: 0 (log entry 11). -/
def plen : Instr → Nat
  | .nop => 0
  | .config _ => 0
  | .clear => 0
  | .set _ _ => 0
  | .get _ => 0
  | .updmax _ _ => 0
  | .hashrank => 4
  | .add p => p
  | .load p => p
  | .merge p => p
  | .ser => 0
  | .estimate => 0
  | .bytesneeded _ => 0
  | .qcfg => 0
  | .illegalE _ => 0
  | .illegalF _ => 0

/-- The register number a command names in its P field (R32: SET, GET and UPDMAX). -/
def positionOperand : Instr → Option Nat
  | .nop => none
  | .config _ => none
  | .clear => none
  | .set _ p => some p
  | .get p => some p
  | .updmax _ p => some p
  | .hashrank => none
  | .add _ => none
  | .load _ => none
  | .merge _ => none
  | .ser => none
  | .estimate => none
  | .bytesneeded _ => none
  | .qcfg => none
  | .illegalE _ => none
  | .illegalF _ => none

/-- The blob length a command names in its P field (R40: LOAD and MERGE). -/
def blobOperand : Instr → Option Nat
  | .nop => none
  | .config _ => none
  | .clear => none
  | .set _ _ => none
  | .get _ => none
  | .updmax _ _ => none
  | .hashrank => none
  | .add _ => none
  | .load p => some p
  | .merge p => some p
  | .ser => none
  | .estimate => none
  | .bytesneeded _ => none
  | .qcfg => none
  | .illegalE _ => none
  | .illegalF _ => none

/-- `valid(I)`: every word of the blob has 0 in each bit that holds no register, pad bits and unused slots
of this engine's own layout (R75; D6). R122 item 4 and S4 say of a blob written in another slot order
that it is valid when its bits 1:0 are 0: where such a blob has a bit in an unused slot of the last word
the model follows R75 and answers MALFORMED (DEDUCED, log entry 19). -/
def blobValid (fs : FieldShift) (count : Nat) (ws : List Word) : Bool :=
  ws.zipIdx.all (fun c => c.1 &&& illegalMask fs count c.2 == 0)

/-- Register `p` of a blob: `getf(I[p div 6], p mod 6)` (R82). -/
def blobReg (fs : FieldShift) (ws : List Word) (p : Nat) : RegVal :=
  getf fs (ws.getD (wordOf p) 0) (slotOf p)

/-- The registers of a blob with their numbers, `p in 0 .. COUNT-1` (R82). -/
def blobRegs (fs : FieldShift) (count : Nat) (ws : List Word) : List (Nat × RegVal) :=
  (List.range count).map (fun p => (p, blobReg fs ws p))

end Sys2Proof.Machine
end

