-- ==== Sys2Proof/Machine/Checks.lean ====
section
/-! DEFINITION. The checks every command makes before its first write, in the order of R110
(60_exceptions.md), and the shared form of a command: checks, then its effect (R14 of 00_scope.md). -/

namespace Sys2Proof.Machine

/-- Check 1, ILLEGAL_OPCODE: OP ∈ {0xE, 0xF} (R110). -/
def illegalOp : Instr → Bool
  | .nop => false
  | .config _ => false
  | .clear => false
  | .set _ _ => false
  | .get _ => false
  | .updmax _ _ => false
  | .hashrank => false
  | .add _ => false
  | .load _ => false
  | .merge _ => false
  | .ser => false
  | .estimate => false
  | .bytesneeded _ => false
  | .qcfg => false
  | .illegalE _ => true
  | .illegalF _ => true

/-- ADD's payload is a whole number of 4-byte hashes: P mod 4 (R56). -/
def raggedBatch : Instr → Bool
  | .nop => false
  | .config _ => false
  | .clear => false
  | .set _ _ => false
  | .get _ => false
  | .updmax _ _ => false
  | .hashrank => false
  | .add p => p % 4 != 0
  | .load _ => false
  | .merge _ => false
  | .ser => false
  | .estimate => false
  | .bytesneeded _ => false
  | .qcfg => false
  | .illegalE _ => false
  | .illegalF _ => false

/-- Check 3, PAYLOAD_LENGTH: |PAY| ≠ PLEN(CW), or an ADD with P mod 4 ≠ 0 (R110). -/
def badLength (i : Instr) (s : State) : Bool := s.pay.length != plen i || raggedBatch i

/-- The commands that need a configuration (R109). -/
def needsConfig : Instr → Bool
  | .nop => false
  | .config _ => false
  | .clear => true
  | .set _ _ => true
  | .get _ => true
  | .updmax _ _ => true
  | .hashrank => true
  | .add _ => true
  | .load _ => true
  | .merge _ => true
  | .ser => true
  | .estimate => true
  | .bytesneeded _ => false
  | .qcfg => false
  | .illegalE _ => false
  | .illegalF _ => false

/-- V as a log2m is in [4,16] (R105; D4). -/
def log2mLegal (v : RegVal) : Bool := decide (log2mMin ≤ v.toNat ∧ v.toNat ≤ log2mMax)

/-- Check 5, CONFIG_ERROR: a CONFIG with V ∉ [4,16] (R110). -/
def badConfig : Instr → Bool
  | .nop => false
  | .config v => !log2mLegal v
  | .clear => false
  | .set _ _ => false
  | .get _ => false
  | .updmax _ _ => false
  | .hashrank => false
  | .add _ => false
  | .load _ => false
  | .merge _ => false
  | .ser => false
  | .estimate => false
  | .bytesneeded _ => false
  | .qcfg => false
  | .illegalE _ => false
  | .illegalF _ => false

/-- Check 6, POS_RANGE: a SET, GET or UPDMAX with P ≥ COUNT (R110). -/
def badPosition (i : Instr) (s : State) : Bool :=
  match positionOperand i with
  | some p => decide (s.count ≤ p)
  | none => false

/-- Check 7, SIZE_MISMATCH: a LOAD or MERGE with P ≠ 4·SIZE (R110). -/
def badSize (i : Instr) (s : State) : Bool :=
  match blobOperand i with
  | some p => p != 4 * s.size
  | none => false

/-- Check 8, MALFORMED: a LOAD or MERGE whose blob is not valid (R75, R110). -/
def badBlob (i : Instr) (s : State) : Bool :=
  match blobOperand i with
  | some _ => !blobValid s.params.fieldShift s.count s.payWords
  | none => false

/-- "the response reports the first that fails" (R110). Check 2, RESERVED_FIELD, is the decoder's: a
word that fails it is no command (R53, R58). -/
def firstError (i : Instr) (s : State) : Option ECode :=
  if illegalOp i then some .illegalOpcode
  else if badLength i s then some .payloadLength
  else if needsConfig i && !s.configured then some .notConfigured
  else if badConfig i then some .configError
  else if badPosition i s then some .posRange
  else if badSize i s then some .sizeMismatch
  else if badBlob i s then some .malformed
  else none

/-- A command: the first check that fails is answered and nothing else happens; when none fails, the
effect (R14, R110, R111). -/
def runChecked (i : Instr) (s : State) (effect : State → State) :
    Host.Outcome State Fault Refusal :=
  match firstError i s with
  | some e => raiseError e s
  | none => .next (effect s)

end Sys2Proof.Machine
end

