-- ==== Sys2Proof/Machine/Control.lean ====
section
/-! DEFINITION. Configuration and control (43_control.md): NOP, CONFIG, QCFG; and the illegal opcodes
(R58 of 30_encoding.md, R107 of 60_exceptions.md). -/

namespace Sys2Proof.Machine

/-- NOP (R104): "the state is unchanged and the result is empty". -/
def execNop (s : State) : Host.Outcome State Fault Refusal :=
  runChecked .nop s fun s => s.respond okStatus []

/-- CONFIG (R105): CONFIGURED <- 1, LOG2M <- n, and every one of the NWORDS_MAX words of RA <- 0. -/
def execConfig (v : RegVal) (s : State) : Host.Outcome State Fault Refusal :=
  runChecked (.config v) s fun s => ((s.withConfig v).withRa []).respond okStatus []

/-- QCFG (R106): the result is CFG (R21). -/
def execQcfg (s : State) : Host.Outcome State Fault Refusal :=
  runChecked .qcfg s fun s => s.respond okStatus (be32 (cfgWord s))

/-- OP = 0xE, whatever the other bits: the first check of R110 fails, and the whole effect is the
ILLEGAL_OPCODE response (R58, R107). -/
def execIllegalE (rest : BitVec 28) (s : State) : Host.Outcome State Fault Refusal :=
  runChecked (.illegalE rest) s id

/-- OP = 0xF, as OP = 0xE (R58, R107). -/
def execIllegalF (rest : BitVec 28) (s : State) : Host.Outcome State Fault Refusal :=
  runChecked (.illegalF rest) s id

end Sys2Proof.Machine
end

