-- ==== Sys2Proof/Machine/Binary64.lean ====
section
/-! DEFINITION. IEEE 754 binary64 as the estimator uses it (R11 of 00_scope.md; D14): values that are
not negative, rounded to nearest with ties to even, one rounding for each operation. Every operation
computes its exact rational result and rounds it once. -/

namespace Sys2Proof.Machine

/-- Every finite binary64 value is a whole number of units of 2^-1075. -/
def b64Unit : Nat := 2 ^ 1075

/-- The pattern of infinity, what an overflowing result rounds to. -/
def b64Inf : Nat := 0x7FF0000000000000

/-- The biased exponent. -/
def b64Exp (b : B64) : Nat := slice b.toNat 62 52

/-- The fraction field. -/
def b64Frac (b : B64) : Nat := slice b.toNat 51 0

/-- The exact value of a finite pattern with sign 0, in units of 2^-1075. -/
def b64Scaled (b : B64) : Nat :=
  if b64Exp b = 0 then 2 * b64Frac b else 2 ^ b64Exp b * (2 ^ 52 + b64Frac b)

/-- The integer nearest to `n / d`, ties to even. -/
def roundHalfEven (n d : Nat) : Nat :=
  if 2 * (n % d) < d then n / d
  else if d < 2 * (n % d) then n / d + 1
  else n / d + n / d % 2

/-- The biased exponent of the binade that `n / d` lies in, at least 1 (the subnormals'). -/
def binadeOf (n d : Nat) : Nat := max 1 (Nat.log2 (b64Unit * n / d) - 52)

/-- `fl64(n / d)`: "the IEEE 754 binary64 value nearest to the exact real value …, with ties to even"
(R11). Consecutive patterns are consecutive values, so the rounded significand is added to the
pattern of its binade. -/
def fl64 (n d : Nat) : B64 :=
  BitVec.ofNat 64
    (min b64Inf
      (2 ^ 52 * (binadeOf n d - 1) + roundHalfEven (b64Unit * n) (2 ^ binadeOf n d * d)))

/-- `fl64(a / b)` of two binary64 values. -/
def fl64Div (a b : B64) : B64 := fl64 (b64Scaled a) (b64Scaled b)

/-- `fl64(a · b)` of two binary64 values. -/
def fl64Mul (a b : B64) : B64 := fl64 (b64Scaled a * b64Scaled b) (b64Unit * b64Unit)

/-- `fl64(a + b)` of two binary64 values. -/
def fl64Add (a b : B64) : B64 := fl64 (b64Scaled a + b64Scaled b) b64Unit

/-- An integer as a binary64 value, exact below 2^53. -/
def b64OfNat (n : Nat) : B64 := fl64 n 1

/-- `a ≤ b`, "a binary64 comparison, which is exact" (R95). -/
def b64Le (a b : B64) : Bool := decide (b64Scaled a ≤ b64Scaled b)

/-- `roundHalfUp(x) = ⌊x + 1/2⌋`, "computed exactly on the real value" (R11). -/
def roundHalfUp (x : B64) : Nat := (b64Unit + 2 * b64Scaled x) / (2 * b64Unit)

end Sys2Proof.Machine
end

