-- ==== Sys2Proof/Machine/Logarithm.lean ====
section
/-! DEFINITION. The parameter LN64 (R5 of 00_scope.md, R96 of 42_estimator.md; D15). The default is
the binary64 value nearest to the exact natural logarithm: it is found between a lower and an upper
bound of ln(q) in units of 2^-256, from ln(q) = e·ln 2 + 2·artanh((m-1)/(m+1)) for q = m·2^e and
ln 2 = 2·artanh(1/3). When the two bounds round to one binary64 value, that value is the nearest
(log entry 7). -/

namespace Sys2Proof.Machine

/-- The bounds are in units of 2^-256. -/
def lnPrecision : Nat := 2 ^ 256

/-- How many terms of the series are added; the rest is bounded by the last power. -/
def lnTerms : Nat := 88

/-- `⌈n / d⌉`. -/
def divUp (n d : Nat) : Nat := (n + d - 1) / d

/-- A lower bound of `Σ z^(2i+1) / (2i+1)` over the next `fuel` terms from term `i`, z = a / b, when
`power` is a lower bound of z^(2i+1). -/
def artanhBelow (a b : Nat) : Nat → Nat → Nat → Nat
  | 0, _, _ => 0
  | fuel + 1, i, power =>
    power / (2 * i + 1) + artanhBelow a b fuel (i + 1) (power * (a * a) / (b * b))

/-- An upper bound of all terms from term `i`, when `power` is an upper bound of z^(2i+1): after
`fuel` terms the rest is at most twice the power, for z ≤ 1/3. -/
def artanhAbove (a b : Nat) : Nat → Nat → Nat → Nat
  | 0, _, power => 2 * power
  | fuel + 1, i, power =>
    divUp power (2 * i + 1) + artanhAbove a b fuel (i + 1) (divUp (power * (a * a)) (b * b))

/-- A lower bound of `2^256 · artanh(a / b)`. -/
def artanhLo (a b : Nat) : Nat := artanhBelow a b lnTerms 0 (lnPrecision * a / b)

/-- An upper bound of `2^256 · artanh(a / b)`, for a / b ≤ 1/3. -/
def artanhHi (a b : Nat) : Nat := artanhAbove a b lnTerms 0 (divUp (lnPrecision * a) b)

/-- The numerator of z = (m-1)/(m+1) for a normal q = m·2^e, m = (2^52 + fraction) / 2^52. -/
def lnNum (q : B64) : Nat := b64Frac q

/-- The denominator of z. -/
def lnDen (q : B64) : Nat := 2 ^ 53 + b64Frac q

/-- The exponent e of q = m·2^e, for q ≥ 1. -/
def lnExp (q : B64) : Nat := b64Exp q - 1023

/-- A lower bound of `2^256 · ln(q)`, for finite q ≥ 1. -/
def lnLo (q : B64) : Nat := 2 * artanhLo (lnNum q) (lnDen q) + 2 * artanhLo 1 3 * lnExp q

/-- An upper bound of `2^256 · ln(q)`, for finite q ≥ 1. -/
def lnHi (q : B64) : Nat := 2 * artanhHi (lnNum q) (lnDen q) + 2 * artanhHi 1 3 * lnExp q

/-- The bounds settle the rounding of ln(q): q ≥ 1 is finite, and both round to one value. -/
def lnSettled (q : B64) : Bool :=
  decide (0x3FF0000000000000 ≤ q.toNat) && decide (q.toNat < b64Inf) &&
    fl64 (lnLo q) lnPrecision == fl64 (lnHi q) lnPrecision

/-- The correctly rounded logarithm, the default of R5 and D15. Where the bounds do not settle it the
answer is a free value (log entry 7). -/
def lnNearest (q : B64) : B64 :=
  if lnSettled q then fl64 (lnLo q) lnPrecision else Config.unsettledLn q

/-- The values R96 admits for LN64: "0.0 <= lnq"; and below 2^30, so that every result stays below the
2^47 of R101 (DESIGN CHOICE, log entry 6). -/
def lnAdmitted (y : B64) : Bool := decide (y.toNat < 0x41D0000000000000)

/-- A logarithm's answer, held to the values R96 admits (log entry 6). -/
def admitLn (y : B64) : B64 := if lnAdmitted y then y else 0

/-- `LN64(q)`. "Any LN64 must give LN64(1.0) = 0.0" (R96). -/
def ln64 (c : LnChoice) (q : B64) : B64 :=
  if q = 0x3FF0000000000000#64 then 0
  else
    match c with
    | .correctlyRounded => admitLn (lnNearest q)
    | .implementation n => admitLn (Config.freeLn n q)

end Sys2Proof.Machine
end

