-- ==== Sys2Proof/Machine/Estimator.lean ====
section
/-! DEFINITION. The cardinality estimator (42_estimator.md): the constants, the sum, the branches and
the command ESTIMATE. -/

namespace Sys2Proof.Machine

/-- ALPHA_ROM, "a 13-entry constant table … indexed by LOG2M" (R90). LOG2M has no other value when the
engine is configured (R23). -/
def alphaRom : Nat → B64
  | 4 => 0x406589374BC6A7F0#64
  | 5 => 0x40864DD2F1A9FBE7#64
  | 6 => 0x40A6B020C49BA5E3#64
  | 7 => 0x40C6E37EF20B947A#64
  | 8 => 0x40E6FC16CE33D64D#64
  | 9 => 0x41070876987DC1B0#64
  | 10 => 0x41270EAB7E0DB3E2#64
  | 11 => 0x414711C7321E7B57#64
  | 12 => 0x416713555C9EFABF#64
  | 13 => 0x4187141C860200C7#64
  | 14 => 0x41A714801FBCCD72#64
  | 15 => 0x41C714B1EDDC9938#64
  | 16 => 0x41E714CAD53D1AD7#64
  | _ => 0#64

/-- `THRESH = 2.5 · COUNT`, exact (R91). -/
def thresh (log2m : Nat) : B64 := fl64 (5 * countOf log2m) 2

/-- `S = Σ_{p=0}^{COUNT-1} 2^(31 - x[p])`, an exact integer (R92). -/
def registerSumInt (log2m : Nat) (x : Nat → RegVal) : Nat :=
  sumPow (fun p => 2 ^ (31 - (x p).toNat)) log2m 0

/-- zeros, "the number of p < COUNT with x[p] = 0" (R93). -/
def zerosCount (log2m : Nat) (x : Nat → RegVal) : Nat :=
  sumPow (fun p => if x p = 0 then 1 else 0) log2m 0

/-- `raw = fl64(ALPHAMM / registerSum)` with `registerSum = S · 2^−31`, exact in binary64 (R92, R94). -/
def rawEstimate (log2m sum : Nat) : B64 := fl64Div (alphaRom log2m) (fl64 sum (2 ^ 31))

/-- Linear counting: `roundHalfUp(fl64(COUNT · LN64(fl64(COUNT / zeros))))` (R96). -/
def linearCounting (c : LnChoice) (log2m zeros : Nat) : Nat :=
  roundHalfUp (fl64Mul (b64OfNat (countOf log2m)) (ln64 c (fl64 (countOf log2m) zeros)))

/-- Branch selection (R95). -/
def estimatePath (log2m zeros : Nat) (raw : B64) : EPath :=
  if b64Le raw (thresh log2m) then (if 0 < zeros then .linear else .fallback) else .raw

/-- The branch and the estimate from LOG2M, S and zeros (R95 to R99). -/
def estimateOf (c : LnChoice) (log2m sum zeros : Nat) : EPath × Nat :=
  let raw := rawEstimate log2m sum
  let path := estimatePath log2m zeros raw
  (path, if path = .linear then linearCounting c log2m zeros else roundHalfUp raw)

/-- The branch and the estimate of the array (R99, R103: registers p < COUNT only). -/
def State.estimate (s : State) : EPath × Nat :=
  estimateOf s.params.ln s.log2m.toNat (registerSumInt s.log2m.toNat s.reg)
    (zerosCount s.log2m.toNat s.reg)

/-- ESTIMATE (R99): the 64-bit estimate, and EPATH; no state changes. -/
def execEstimate (s : State) : Host.Outcome State Fault Refusal :=
  runChecked .estimate s fun s =>
    s.respond (epathStatus s.estimate.1) (be64 (BitVec.ofNat 64 s.estimate.2))

end Sys2Proof.Machine
end

