-- ==== Sys2Proof/Machine/HashRank.lean ====
section
/-! DEFINITION. The hash-to-rank unit (40_hash_rank.md): HASHRANK and ADD. -/

namespace Sys2Proof.Machine

/-- Bucket: `j = h >> (32 − LOG2M)` (R67). -/
def bucket (log2m : Nat) (h : Word) : Nat := (h >>> (32 - log2m)).toNat

/-- `wr = (h << LOG2M) | (1 << (LOG2M - 1))`: the bucket bits shifted out, the sentinel at bit
LOG2M − 1 (R68; 90_conflicts.md C3). -/
def rankWord (log2m : Nat) (h : Word) : Word := (h <<< log2m) ||| (1#32 <<< (log2m - 1))

/-- Rank: `r = clz32(wr) + 1` (R68). -/
def rank (log2m : Nat) (h : Word) : Nat := clz32 (rankWord log2m h) + 1

/-- HASHRANK's result: bits 20:16 = r, bits 15:0 = j (R70). -/
def hashRankWord (log2m : Nat) (h : Word) : Word :=
  (BitVec.ofNat 32 (rank log2m h) <<< 16) ||| BitVec.ofNat 32 (bucket log2m h)

/-- The bucket and the rank of each hash of a batch, in payload order (R71). -/
def batchPairs (log2m : Nat) (hs : List Word) : List (Nat × RegVal) :=
  hs.map (fun h => (bucket log2m h, BitVec.ofNat 5 (rank log2m h)))

/-- HASHRANK (R70): the bucket and rank of one hash, with no state changed. -/
def execHashrank (s : State) : Host.Outcome State Fault Refusal :=
  runChecked .hashrank s fun s =>
    s.respond okStatus (be32 (hashRankWord s.log2m.toNat s.payHash))

/-- ADD (R71): for each hash in payload order, `x[j] <- r` where r > x[j]; UPDATED when one rose. -/
def execAdd (p : Nat) (s : State) : Host.Outcome State Fault Refusal :=
  runChecked (.add p) s fun s =>
    let done := raiseAll s.params.fieldShift (batchPairs s.log2m.toNat s.payWords) s.ra
    (s.withRa done.1).respond (updatedStatus done.2) []

end Sys2Proof.Machine
end

