-- ==== Sys2Proof/Machine/RegisterSet.lean ====
section
/-! DEFINITION. The register array (41_register_set.md): CLEAR, SET, GET, UPDMAX, LOAD, MERGE, SER and
BYTESNEEDED. -/

namespace Sys2Proof.Machine

/-- The blob of the array: words 0 .. SIZE-1 in order, each big-endian (R33, R85). -/
def blobBytes (m : Memory) (size : Nat) : List Byte :=
  (List.range size).flatMap (fun w => be32 (m.read w))

/-- `4 * max(1, ceil_div(2^i, 6))` (R88). -/
def bytesNeeded (i : Nat) : Nat := 4 * max 1 (ceilDiv (2 ^ i) slots)

/-- CLEAR (R76): words 0 .. SIZE-1 <- 0. -/
def execClear (s : State) : Host.Outcome State Fault Refusal :=
  runChecked .clear s fun s => (s.withRa (s.ra.clearBelow s.size)).respond okStatus []

/-- SET (R77): `x[p] <- v`. -/
def execSet (v : RegVal) (p : Nat) (s : State) : Host.Outcome State Fault Refusal :=
  runChecked (.set v p) s fun s =>
    (s.withRa (writeReg s.params.fieldShift s.ra p v)).respond okStatus []

/-- GET (R78): the result is x[p], zero-extended to 32 bits. -/
def execGet (p : Nat) (s : State) : Host.Outcome State Fault Refusal :=
  runChecked (.get p) s fun s => s.respond okStatus (be32 ((s.reg p).setWidth 32))

/-- UPDMAX (R79): `x[p] <- v` and UPDATED when v > x[p], nothing otherwise. -/
def execUpdmax (v : RegVal) (p : Nat) (s : State) : Host.Outcome State Fault Refusal :=
  runChecked (.updmax v p) s fun s =>
    let done := raiseReg s.params.fieldShift s.ra p v
    (s.withRa done.1).respond (updatedStatus done.2) []

/-- LOAD (R81): the blob's words into words 0 .. SIZE-1. -/
def execLoad (p : Nat) (s : State) : Host.Outcome State Fault Refusal :=
  runChecked (.load p) s fun s => (s.withRa (s.ra.store s.payWords)).respond okStatus []

/-- MERGE (R82): for every register p < COUNT, not for every word (R83), the greater of x[p] and the
blob's register; UPDATED when one rose. -/
def execMerge (p : Nat) (s : State) : Host.Outcome State Fault Refusal :=
  runChecked (.merge p) s fun s =>
    let done :=
      raiseAll s.params.fieldShift (blobRegs s.params.fieldShift s.count s.payWords) s.ra
    (s.withRa done.1).respond (updatedStatus done.2) []

/-- SER (R85): the result is the blob of the array. -/
def execSer (s : State) : Host.Outcome State Fault Refusal :=
  runChecked .ser s fun s => s.respond okStatus (blobBytes s.ra s.size)

/-- BYTESNEEDED (R88): the result is the blob size for exponent i; needs no configuration. -/
def execBytesneeded (v : RegVal) (s : State) : Host.Outcome State Fault Refusal :=
  runChecked (.bytesneeded v) s fun s =>
    s.respond okStatus (be32 (BitVec.ofNat 32 (bytesNeeded v.toNat)))

end Sys2Proof.Machine
end

