-- ==== Sys2Proof/Machine/Dispatch.lean ====
section
/-! DEFINITION. One arm for each command (R55 of 30_encoding.md), each a call of its meaning. -/

namespace Sys2Proof.Machine

def exec (i : Instr) (s : State) : Host.Outcome State Fault Refusal :=
  match i with
  | .nop => Sys2Proof.Machine.execNop s
  | .config v => Sys2Proof.Machine.execConfig v s
  | .clear => Sys2Proof.Machine.execClear s
  | .set v p => Sys2Proof.Machine.execSet v p s
  | .get p => Sys2Proof.Machine.execGet p s
  | .updmax v p => Sys2Proof.Machine.execUpdmax v p s
  | .hashrank => Sys2Proof.Machine.execHashrank s
  | .add p => Sys2Proof.Machine.execAdd p s
  | .load p => Sys2Proof.Machine.execLoad p s
  | .merge p => Sys2Proof.Machine.execMerge p s
  | .ser => Sys2Proof.Machine.execSer s
  | .estimate => Sys2Proof.Machine.execEstimate s
  | .bytesneeded v => Sys2Proof.Machine.execBytesneeded v s
  | .qcfg => Sys2Proof.Machine.execQcfg s
  | .illegalE rest => Sys2Proof.Machine.execIllegalE rest s
  | .illegalF rest => Sys2Proof.Machine.execIllegalF rest s

end Sys2Proof.Machine
end

