-- ==== Sys2Proof/Machine/Step.lean ====
section
/-! DEFINITION. One step: the engine executes the transaction at the head of the port to completion
(R15 of 10_state.md, R45 of 20_memory.md), takes a reset (R120), or waits (R121). -/

namespace Sys2Proof.Machine

/-- One step of the engine. -/
def step (s : State) : Host.Outcome State Fault Refusal :=
  match s.requests with
  | [] => waitForRequest s
  | .reset _ :: _ => takeReset s
  | .txn t :: _ =>
    match decode t.cw with
    | .ok i => exec i s
    | .error _ => rejectWord s

/-- The state with a transaction placed at the head of the port: the command word is the table word,
the payload PLEN bytes of 0 (R56; log entry 8). The requests that waited wait behind it. -/
def State.withFetchWord (s : State) (nbits w : Nat) : State :=
  { s with
    requests :=
      .txn ⟨tableWord nbits w, List.replicate (plenWord (tableWord nbits w)) 0⟩ :: s.requests }

end Sys2Proof.Machine
end

