-- ==== Sys2Proof/Machine/Assembler.lean ====
section
/-! DEFINITION. The host's side of the port: the assembler's lines and what they assemble to (R62 of
30_encoding.md; D33), the pseudo-instructions (R63 to R66; D30) and the order in which several hosts'
transactions reach the port (R49, R50 of 20_memory.md). The engine sees none of these as units. -/

namespace Sys2Proof.Machine

/-- A line of the assembler (R62), with its numbers read. -/
inductive AsmLine where
  | nop
  | config (n : Nat)
  | clear
  | set (p v : Nat)
  | get (p : Nat)
  | updmax (p v : Nat)
  | hashrank (h : Nat)
  | add (hs : List Nat)
  /-- `LOAD [w0, ...]` -/
  | load (ws : List Nat)
  /-- `LOAD B[b0, ...]` -/
  | loadBytes (bs : List Nat)
  /-- `MERGE [w0, ...]` -/
  | merge (ws : List Nat)
  /-- `MERGE B[b0, ...]` -/
  | mergeBytes (bs : List Nat)
  | ser
  | estimate
  | bytesneeded (i : Nat)
  | qcfg
  /-- `.txn <cw>, B[...]`: any transaction, legal or not. -/
  | txn (cw : Nat) (bs : List Nat)
deriving DecidableEq, Repr

/-- "a payload of 32-bit values, each serialized big-endian" (R62). -/
def wordPayload (ws : List Nat) : List Byte := ws.flatMap (fun w => be32 (BitVec.ofNat 32 w))

/-- "a raw payload of bytes" (R62). -/
def bytePayload (bs : List Nat) : List Byte := bs.map (BitVec.ofNat 8)

/-- The transaction of a line, P being "4·(number of values)" or "the number of bytes" (R62). -/
def assemble : AsmLine → Txn
  | .nop => ⟨encode .nop, []⟩
  | .config n => ⟨encode (.config (BitVec.ofNat 5 n)), []⟩
  | .clear => ⟨encode .clear, []⟩
  | .set p v => ⟨encode (.set (BitVec.ofNat 5 v) p), []⟩
  | .get p => ⟨encode (.get p), []⟩
  | .updmax p v => ⟨encode (.updmax (BitVec.ofNat 5 v) p), []⟩
  | .hashrank h => ⟨encode .hashrank, wordPayload [h]⟩
  | .add hs => ⟨encode (.add (4 * hs.length)), wordPayload hs⟩
  | .load ws => ⟨encode (.load (4 * ws.length)), wordPayload ws⟩
  | .loadBytes bs => ⟨encode (.load bs.length), bytePayload bs⟩
  | .merge ws => ⟨encode (.merge (4 * ws.length)), wordPayload ws⟩
  | .mergeBytes bs => ⟨encode (.merge bs.length), bytePayload bs⟩
  | .ser => ⟨encode .ser, []⟩
  | .estimate => ⟨encode .estimate, []⟩
  | .bytesneeded i => ⟨encode (.bytesneeded (BitVec.ofNat 5 i)), []⟩
  | .qcfg => ⟨encode .qcfg, []⟩
  | .txn cw bs => ⟨BitVec.ofNat 32 cw, bytePayload bs⟩

/-- Every number of a line fits its field (R52, R62). -/
def asmLineFits : AsmLine → Bool
  | .nop => true
  | .config n => decide (n < 32)
  | .clear => true
  | .set p v => decide (p < 65536 ∧ v < 32)
  | .get p => decide (p < 65536)
  | .updmax p v => decide (p < 65536 ∧ v < 32)
  | .hashrank h => decide (h < 2 ^ 32)
  | .add hs => decide (4 * hs.length < 65536) && hs.all (fun h => decide (h < 2 ^ 32))
  | .load ws => decide (4 * ws.length < 65536) && ws.all (fun w => decide (w < 2 ^ 32))
  | .loadBytes bs => decide (bs.length < 65536) && bs.all (fun b => decide (b < 256))
  | .merge ws => decide (4 * ws.length < 65536) && ws.all (fun w => decide (w < 2 ^ 32))
  | .mergeBytes bs => decide (bs.length < 65536) && bs.all (fun b => decide (b < 256))
  | .ser => true
  | .estimate => true
  | .bytesneeded i => decide (i < 32)
  | .qcfg => true
  | .txn cw bs =>
    decide (cw < 2 ^ 32) && decide (bs.length < 65536) && bs.all (fun b => decide (b < 256))

/-! ### The text of a line -/

/-- A token that has ended is put before the others. -/
def endToken (word : List Char) (later : List (List Char)) : List (List Char) :=
  if word = [] then later else word.reverse :: later

/-- The tokens of a line: words, and the signs `,` `[` `]`; "a `;` starts a comment" (R62). `word` is
the word being read, last character first. -/
def tokens (word : List Char) : List Char → List (List Char)
  | [] => endToken word []
  | c :: rest =>
    if c = ';' then endToken word []
    else if c = ' ' ∨ c = '\t' then endToken word (tokens [] rest)
    else if c = ',' ∨ c = '[' ∨ c = ']' then endToken word ([c] :: tokens [] rest)
    else tokens (c :: word) rest

/-- The value of a digit. -/
def digitOf (base : Nat) (c : Char) : Option Nat :=
  let n := c.toNat
  let d :=
    if 48 ≤ n ∧ n ≤ 57 then n - 48
    else if 97 ≤ n ∧ n ≤ 102 then n - 87
    else if 65 ≤ n ∧ n ≤ 70 then n - 55
    else base
  if d < base then some d else none

/-- Digits in a base, most significant first, after the value read so far. -/
def digits (base : Nat) : Nat → List Char → Option Nat
  | value, [] => some value
  | value, c :: rest =>
    match digitOf base c with
    | some d => digits base (value * base + d) rest
    | none => none

/-- "Numbers are decimal, or hexadecimal with `0x`" (R62). -/
def number : List Char → Option Nat
  | [] => none
  | '0' :: 'x' :: d :: rest => digits 16 0 (d :: rest)
  | c :: rest => digits 10 0 (c :: rest)

/-- Numbers separated by commas up to a closing bracket, which ends the line. -/
def listTail : List (List Char) → Option (List Nat)
  | [[']']] => some []
  | [','] :: n :: rest =>
    match number n, listTail rest with
    | some v, some vs => some (v :: vs)
    | _, _ => none
  | _ => none

/-- A bracketed list, after its opening bracket. -/
def bracketed : List (List Char) → Option (List Nat)
  | [[']']] => some []
  | n :: rest =>
    match number n, listTail rest with
    | some v, some vs => some (v :: vs)
    | _, _ => none
  | [] => none

/-- The line that tokens spell (R62). -/
def parseTokens : List (List Char) → Option AsmLine
  | [['N', 'O', 'P']] => some .nop
  | [['C', 'O', 'N', 'F', 'I', 'G'], n] => (number n).map .config
  | [['C', 'L', 'E', 'A', 'R']] => some .clear
  | [['S', 'E', 'T'], p, [','], v] =>
    match number p, number v with
    | some p, some v => some (.set p v)
    | _, _ => none
  | [['G', 'E', 'T'], p] => (number p).map .get
  | [['U', 'P', 'D', 'M', 'A', 'X'], p, [','], v] =>
    match number p, number v with
    | some p, some v => some (.updmax p v)
    | _, _ => none
  | [['H', 'A', 'S', 'H', 'R', 'A', 'N', 'K'], h] => (number h).map .hashrank
  | ['A', 'D', 'D'] :: ['['] :: rest => (bracketed rest).map .add
  | ['L', 'O', 'A', 'D'] :: ['['] :: rest => (bracketed rest).map .load
  | ['L', 'O', 'A', 'D'] :: ['B'] :: ['['] :: rest => (bracketed rest).map .loadBytes
  | ['M', 'E', 'R', 'G', 'E'] :: ['['] :: rest => (bracketed rest).map .merge
  | ['M', 'E', 'R', 'G', 'E'] :: ['B'] :: ['['] :: rest => (bracketed rest).map .mergeBytes
  | [['S', 'E', 'R']] => some .ser
  | [['E', 'S', 'T', 'I', 'M', 'A', 'T', 'E']] => some .estimate
  | [['B', 'Y', 'T', 'E', 'S', 'N', 'E', 'E', 'D', 'E', 'D'], i] => (number i).map .bytesneeded
  | [['Q', 'C', 'F', 'G']] => some .qcfg
  | ['.', 't', 'x', 'n'] :: cw :: [','] :: ['B'] :: ['['] :: rest =>
    match number cw, bracketed rest with
    | some c, some bs => some (.txn c bs)
    | _, _ => none
  | _ => none

/-- A line of text, "one command per line" (R62). -/
def parseLine (line : List Char) : Option AsmLine := parseTokens (tokens [] line)

/-! ### Pseudo-instructions -/

/-- The most hashes of one ADD (R63, R71). -/
def maxBatch : Nat := 16383

/-- "split into several ADDs of at most 16383 hashes each when n > 16383" (R63). R63 leaves open where the
batch is cut: the model cuts 16383 hashes off the front each time (DESIGN CHOICE, log entry 17). `fuel`
bounds the number of splits; the number of hashes is always enough. -/
def batches : Nat → List Nat → List (List Nat)
  | 0, hs => [hs]
  | fuel + 1, hs =>
    if hs.length ≤ maxBatch then [hs]
    else hs.take maxBatch :: batches fuel (hs.drop maxBatch)

/-- `ADDMEMBERS h0 … h(n−1)`: CLEAR, ADD, SER (R63). -/
def addMembers (hs : List Nat) : List AsmLine :=
  .clear :: (batches hs.length hs).map .add ++ [.ser]

/-- `SETMEMBERS`: "the same three commands" (R64). -/
def setMembers (hs : List Nat) : List AsmLine := addMembers hs

/-- `ESTCARD blob`: LOAD, ESTIMATE; nothing for an absent key, which the host answers with 0 (R65). -/
def estCard : Option (List Nat) → List AsmLine
  | none => []
  | some blob => [.loadBytes blob, .estimate]

/-- `BMERGE stored, incoming`: LOAD, MERGE, SER. When no blob is stored the host stores the incoming one as
it is; R66 adds that a size check "can be had from `LOAD incoming` alone" and leaves open whether the
host makes it: in the model it sends nothing (DESIGN CHOICE, log entry 18). -/
def bMerge : Option (List Nat) → List Nat → List AsmLine
  | none, _ => []
  | some stored, incoming => [.loadBytes stored, .mergeBytes incoming, .ser]

/-- The requests of a sequence of lines. -/
def requestsOf (lines : List AsmLine) : List Request := lines.map (fun l => .txn (assemble l))

/-! ### Several hosts -/

/-- GRANT_ORDER (R50; D13, S6): the orders in which an arbiter may grant the port to hosts that each
send a list of transactions. Any interleaving of whole transactions that keeps each host's own order
(log entry 9). -/
inductive GrantOrder : List (List Txn) → List Txn → Prop where
  | done (hosts : List (List Txn)) (idle : ∀ h ∈ hosts, h = []) : GrantOrder hosts []
  | grant (before later : List (List Txn)) (t : Txn) (rest granted : List Txn)
      (after : GrantOrder (before ++ rest :: later) granted) :
      GrantOrder (before ++ (t :: rest) :: later) (t :: granted)

end Sys2Proof.Machine
end

