-- ==== Sys2Proof/Safety.lean ====
section
/-! DEFINITION. What the claims speak of: the invariants of 10_state.md section 6, what a transaction
leaves, what can be observed of a run (R126 of 70_reset_and_hazards.md). -/

namespace Sys2Proof.Machine

/-- The invariants of a state. They hold at reset, and every step keeps them. -/
structure Inv (s : State) : Prop where
  /-- R23: "either CONFIGURED = 0 and LOG2M = 0, or CONFIGURED = 1 and 4 ≤ LOG2M ≤ 16". -/
  config : s.configured = false ∧ s.log2m = 0 ∨
    s.configured = true ∧ 4 ≤ s.log2m.toNat ∧ s.log2m.toNat ≤ 16
  /-- RA is in its one form, within NWORDS_MAX words (R17). -/
  form : s.ra.wf = true
  /-- R24 and R25: the bits of a word that hold no register, pad bits and unused slots, are 0. -/
  clean : s.configured = true → ∀ w, w < s.size → s.ra.read w &&& s.illegalMask w = 0
  /-- R30: words SIZE and beyond are 0. -/
  beyond : s.configured = true → ∀ w, s.size ≤ w → s.ra.read w = 0
  /-- D5: FIELD_SHIFT is a legal layout. -/
  layout : s.params.fieldShift.legal = true

/-- The engine's own state is that of another state: the spec's tuple, the parameters, the draws. The
two sides of the port may differ. -/
def SameEngine (s t : State) : Prop :=
  t.configured = s.configured ∧ t.log2m = s.log2m ∧ t.ra = s.ra ∧ t.params = s.params ∧
    t.draws = s.draws

/-- One transaction has ended with this response: it left the port, and its response stands last. -/
def Answered (s t : State) (status : Word) (result : List Byte) : Prop :=
  t.requests = s.requests.tail ∧ t.responses = s.responses ++ [⟨status, result⟩]

/-- Everything of the engine but the array is that of another state. -/
def SameButArray (s t : State) : Prop :=
  t.configured = s.configured ∧ t.log2m = s.log2m ∧ t.params = s.params ∧ t.draws = s.draws

/-- The greatest of the values a list gives register `q`, 0 when it gives none (R72). -/
def greatestFor (q : Nat) : List (Nat × RegVal) → Nat
  | [] => 0
  | (p, v) :: rest => if p = q then max v.toNat (greatestFor q rest) else greatestFor q rest

/-- The state with the requests of the port replaced. -/
def State.withRequests (s : State) (rs : List Request) : State := { s with requests := rs }

/-- The transaction of a command with a payload of words, each big-endian (R34, R51). -/
def wordsTxn (i : Instr) (ws : List Word) : Txn := ⟨encode i, ws.flatMap be32⟩

/-- `ADD [h0, h1, ...]` (R62, R71). -/
def addTxn (hs : List Word) : Txn := wordsTxn (.add (4 * hs.length)) hs

/-- `LOAD [w0, w1, ...]` (R62, R81). -/
def loadTxn (ws : List Word) : Txn := wordsTxn (.load (4 * ws.length)) ws

/-- `MERGE [w0, w1, ...]` (R62, R82). -/
def mergeTxn (ws : List Word) : Txn := wordsTxn (.merge (4 * ws.length)) ws

/-- `SER` (R62, R85). -/
def serTxn : Txn := wordsTxn .ser []

/-- A valid blob of a configuration: SIZE words, no bit of them illegal (R75). -/
def ValidBlob (s : State) (ws : List Word) : Prop :=
  ws.length = s.size ∧ ∀ w, w < s.size → ws.getD w 0 &&& s.illegalMask w = 0

/-- The registers of a blob under the state's layout (R16, R36). -/
def State.blobReg (s : State) (ws : List Word) (p : Nat) : RegVal :=
  Sys2Proof.Machine.blobReg s.params.fieldShift ws p

/-- The exact value of a finite binary64 pattern with sign 0 (R11). -/
def b64Value (b : B64) : ℚ := (b64Scaled b : ℚ) / b64Unit

/-- "the list of responses together with the final state" (R126). -/
structure Observation where
  responses : List Response
  configured : Bool
  log2m : BitVec 5
  ra : Memory
deriving DecidableEq, Repr

/-- What is observed of a run that ended in a state (R126). -/
def observe (s : State) : Observation := ⟨s.responses, s.configured, s.log2m, s.ra⟩

/-- The state after `k` steps; a step never stops (R125). -/
def runFor : Nat → State → State
  | 0, s => s
  | k + 1, s =>
    match step s with
    | .next t => runFor k t
    | .fault _ => s
    | .refused _ => s

/-- The state after every request of the port has been answered. -/
def runAll (s : State) : State := runFor s.requests.length s

end Sys2Proof.Machine
end

