-- ==== Sys2Proof/Certificates/Slice0/Obligations.lean ====
section
/-! DEFINITION. The statements for the provers, from the numbered rules of spec/, file by file. Each
docstring names the rule it formalises. -/

open Sys2Proof Sys2Proof.Machine

/-! ### Encoding (30_encoding.md) -/

/-- R52, R53, R55: every command, with every operand its fields admit, is read back from its word and
from its bytes. -/
def Obligations.DecodeOfEncodeIsTheCommand : Prop :=
  ∀ (i : Instr) (rest : List Byte), i.wf = true →
    decode (encode i) = .ok i ∧ decodeBytes (encodeBytes i ++ rest) = .ok (i, rest)

/-- R52, R53, R55, R61: a word that decodes is the word of the command it decodes to, so no two words
stand for one command and no bit is dropped. -/
def Obligations.EncodeOfDecodeIsTheWord : Prop :=
  ∀ (cw : Word) (i : Instr), decode cw = .ok i → i.wf = true ∧ encode i = cw

/-- The rows of spec/opcode_table.json: OP, mask, match. -/
def opcodeRows : List (Nat × Word × Word) :=
  [(0x0, 0xFFFFFFFF, 0x00000000), (0x1, 0xFFE0FFFF, 0x10000000), (0x2, 0xFFFFFFFF, 0x20000000),
   (0x3, 0xFFE00000, 0x30000000), (0x4, 0xFFFF0000, 0x40000000), (0x5, 0xFFE00000, 0x50000000),
   (0x6, 0xFFFFFFFF, 0x60000000), (0x7, 0xFFFF0000, 0x70000000), (0x8, 0xFFFF0000, 0x80000000),
   (0x9, 0xFFFF0000, 0x90000000), (0xA, 0xFFFFFFFF, 0xA0000000), (0xB, 0xFFFFFFFF, 0xB0000000),
   (0xC, 0xFFE0FFFF, 0xC0000000), (0xD, 0xFFFFFFFF, 0xD0000000), (0xE, 0xF0000000, 0xE0000000),
   (0xF, 0xF0000000, 0xF0000000)]

/-- R61: every word is a legal command, an ILLEGAL_OPCODE word or a RESERVED_FIELD word: it decodes to
the command of the one row of the table that it matches, and is rejected when it matches none. -/
def Obligations.DecoderAcceptsExactlyTheTable : Prop :=
  ∀ cw : Word,
    (∀ row ∈ opcodeRows, cw &&& row.2.1 = row.2.2 →
      ∃ i, decode cw = .ok i ∧ opcode i = row.1) ∧
    ((∀ row ∈ opcodeRows, cw &&& row.2.1 ≠ row.2.2) → decode cw = .error .reservedField)

/-- R52, R53, R55: words written out from the opcode map and the formats decode to their commands. -/
def Obligations.SpecWordsDecode : Prop :=
  decode 0x00000000 = .ok .nop ∧ decode 0x10040000 = .ok (.config 4) ∧
    decode 0x301FFFFF = .ok (.set 31 65535) ∧ decode 0x500C0003 = .ok (.updmax 12 3) ∧
    decode 0x8000AAAC = .ok (.load 43692) ∧ decode 0xC0100000 = .ok (.bytesneeded 16) ∧
    decode 0xE0200000 = .ok (.illegalE 0x0200000) ∧ decode 0x40010003 = .error .reservedField

/-- R56, R57: on a byte-serial port the payload's length follows from the command word, so the end of
a transaction is found: its bytes are framed back to it, and any shorter run of them is not yet a
transaction. For OP = 0xE and 0xF, to which R56 gives no length, the length 0 is the model's choice
(DESIGN CHOICE, log entry 11). -/
def Obligations.FramingFindsTheEndOfATransaction : Prop :=
  (∀ i : Instr, i.wf = true → plenWord (encode i) = plen i) ∧
    ∀ (t : Txn) (rest : List Byte), t.pay.length = plenWord t.cw →
      frame (t.bytes ++ rest) = some (t, rest) ∧
        ∀ n, n < t.bytes.length → frame (t.bytes.take n) = none

/-- R62: lines of the assembler's text give the transactions of the rule's own forms. -/
def Obligations.AssemblerLinesGiveTheirTransactions : Prop :=
  (parseLine ("SET 3, 7 ; a comment".toList)).map assemble = some ⟨0x30070003, []⟩ ∧
    (parseLine ("CONFIG 16".toList)).map assemble = some ⟨0x10100000, []⟩ ∧
    (parseLine ("ADD [0x12345678, 0x1FFFFFFF]".toList)).map assemble =
      some ⟨0x70000008, [0x12, 0x34, 0x56, 0x78, 0x1F, 0xFF, 0xFF, 0xFF]⟩ ∧
    (parseLine ("LOAD B[160, 79, 0xF0, 0x24]".toList)).map assemble =
      some ⟨0x80000004, [0xA0, 0x4F, 0xF0, 0x24]⟩ ∧
    (parseLine (".txn 0x9000000D, B[00, 01]".toList)).map assemble =
      some ⟨0x9000000D, [0, 1]⟩

/-- The command a line names, with its P: "4·(number of values)" or "the number of bytes" (R62). `.txn`
names none: it "writes any transaction, legal or not". -/
def lineCommand : AsmLine → Option Instr
  | .nop => some .nop
  | .config n => some (.config (BitVec.ofNat 5 n))
  | .clear => some .clear
  | .set p v => some (.set (BitVec.ofNat 5 v) p)
  | .get p => some (.get p)
  | .updmax p v => some (.updmax (BitVec.ofNat 5 v) p)
  | .hashrank _ => some .hashrank
  | .add hs => some (.add (4 * hs.length))
  | .load ws => some (.load (4 * ws.length))
  | .loadBytes bs => some (.load bs.length)
  | .merge ws => some (.merge (4 * ws.length))
  | .mergeBytes bs => some (.merge bs.length)
  | .ser => some .ser
  | .estimate => some .estimate
  | .bytesneeded i => some (.bytesneeded (BitVec.ofNat 5 i))
  | .qcfg => some .qcfg
  | .txn _ _ => none

/-- A 32-bit value's bytes as numbers, most significant first (R34). -/
def valueBytes (w : Nat) : List Nat := [w / 2 ^ 24, w / 2 ^ 16 % 256, w / 2 ^ 8 % 256, w % 256]

/-- The payload a line names, as numbers: "32-bit values, each serialized big-endian", or the bytes
themselves (R62). -/
def linePayload : AsmLine → List Nat
  | .hashrank h => valueBytes h
  | .add hs => hs.flatMap valueBytes
  | .load ws => ws.flatMap valueBytes
  | .loadBytes bs => bs
  | .merge ws => ws.flatMap valueBytes
  | .mergeBytes bs => bs
  | .txn _ bs => bs
  | _ => []

/-- R62, R56: a line whose numbers fit their fields assembles to the word of its own command, legal, and
to its own payload, whose length is the one that the command asks for; `.txn` gives the command word and
the payload that it names. -/
def Obligations.AssembledLinesAreLegalTransactions : Prop :=
  ∀ l : AsmLine, asmLineFits l = true →
    (assemble l).pay.map BitVec.toNat = linePayload l ∧
    (∀ i, lineCommand l = some i →
      decode (assemble l).cw = .ok i ∧ i.wf = true ∧ illegalOp i = false ∧
        (assemble l).pay.length = plen i ∧ raggedBatch i = false) ∧
    ∀ cw bs, l = .txn cw bs → (assemble l).cw.toNat = cw

/-! ### A step (10_state.md, 20_memory.md) -/

/-- R15, R45, R55: a step executes the command that the transaction at the head of the port carries;
a word that is no command is answered RESERVED_FIELD and changes nothing else. -/
def Obligations.StepExecutesTheDecodedCommand : Prop :=
  ∀ (s : State) (t : Txn) (rest : List Request), s.requests = .txn t :: rest →
    (∀ i, decode t.cw = .ok i → step s = exec i s) ∧
      (∀ r, decode t.cw = .error r → step s = .next (s.respond 2#32 []))

/-- A word of the opcode table placed at the head of the port is what the next step executes, with
PLEN bytes of payload (R51, R56; how a program comes to run is the model's choice, log entry 8). -/
def Obligations.PlacedWordIsExecutedNext : Prop :=
  ∀ (s : State) (i : Instr), i.wf = true →
    step (s.withFetchWord 32 (encode i).toNat) =
        exec i (s.withFetchWord 32 (encode i).toNat) ∧
      (s.withFetchWord 32 (encode i).toNat).pay.length = plen i ∧
      decodeTableWord 32 (encode i).toNat = some i

/-- R121: with nothing on the port the engine waits (that a waiting step changes nothing is the
model's choice, log entry 10). -/
def Obligations.IdleEngineWaits : Prop :=
  ∀ s : State, s.requests = [] → step s = .next s

/-- R47, R125: the engine never hangs and nothing stops it, and each transaction is answered by one
response, after which the port holds the transactions behind it. No step changes the parameters. -/
def Obligations.EveryTransactionIsAnsweredOnce : Prop :=
  (∀ s : State, ∃ t, step s = .next t ∧ t.params = s.params) ∧
    ∀ (s : State) (x : Txn) (rest : List Request), s.requests = .txn x :: rest →
      ∃ t r, step s = .next t ∧ t.requests = rest ∧ t.responses = s.responses ++ [r] ∧
        t.draws = s.draws

/-- The payload length of each command that does not carry it in P (R56). -/
def payloadLengthOf (op p : Nat) : Nat :=
  if op = 6 then 4 else if op = 7 ∨ op = 8 ∨ op = 9 then p else 0

/-- Check `n` of R110 fails for a transaction, in the words of the rule. -/
def checkFails (n : Nat) (x : Txn) (s : State) : Prop :=
  let op := opField x.cw
  match n with
  | 1 => op = 0xE ∨ op = 0xF
  | 2 => rsvField x.cw ≠ 0 ∨
      (op ∈ [0x0, 0x2, 0x6, 0xA, 0xB, 0xD] ∧ (vField x.cw ≠ 0 ∨ pField x.cw ≠ 0)) ∨
      (op ∈ [0x1, 0xC] ∧ pField x.cw ≠ 0) ∨ (op ∈ [0x4, 0x7, 0x8, 0x9] ∧ vField x.cw ≠ 0)
  | 3 => x.pay.length ≠ payloadLengthOf op (pField x.cw) ∨ (op = 0x7 ∧ pField x.cw % 4 ≠ 0)
  | 4 => s.configured = false ∧ op ∈ [0x2, 0x3, 0x4, 0x5, 0x6, 0x7, 0x8, 0x9, 0xA, 0xB]
  | 5 => op = 0x1 ∧ ¬(4 ≤ (vField x.cw).toNat ∧ (vField x.cw).toNat ≤ 16)
  | 6 => op ∈ [0x3, 0x4, 0x5] ∧ 2 ^ s.log2m.toNat ≤ pField x.cw
  | 7 => op ∈ [0x8, 0x9] ∧ pField x.cw ≠ 4 * s.size
  | 8 => op ∈ [0x8, 0x9] ∧ ∃ w, w < s.size ∧ (beWords x.pay).getD w 0 &&& s.illegalMask w ≠ 0
  | _ => False

/-- R110: "the response reports the first that fails", by its number (R107), with an empty result and
nothing else changed (R111); when no check fails the response has ECODE 0. -/
def Obligations.FirstFailingCheckIsReported : Prop :=
  ∀ (s : State) (x : Txn) (rest : List Request), s.requests = .txn x :: rest →
    (∀ n, checkFails n x s → (∀ m, m < n → ¬checkFails m x s) →
      step s = .next (s.respond (BitVec.ofNat 32 n) [])) ∧
    ((∀ n, ¬checkFails n x s) →
      ∃ t r, step s = .next t ∧ t.responses = s.responses ++ [r] ∧ statusECode r.status = 0)

/-- R111: a transaction whose response has ECODE ≠ 0 leaves the engine as it was, and the response has
UPDATED = 0, EPATH = 0 and an empty result. -/
def Obligations.FailedCommandHasNoEffect : Prop :=
  ∀ (s t : State) (x : Txn) (rest : List Request) (r : Response), s.requests = .txn x :: rest →
    step s = .next t → t.responses = s.responses ++ [r] → statusECode r.status ≠ 0 →
      SameEngine s t ∧ r.status = BitVec.ofNat 32 (statusECode r.status) ∧ r.result = []

/-- The codes R108 lists for each opcode. -/
def listedErrors : Nat → List Nat
  | 0x0 => [2, 3]
  | 0x1 => [2, 3, 5]
  | 0x2 => [2, 3, 4]
  | 0x3 => [2, 3, 4, 6]
  | 0x4 => [2, 3, 4, 6]
  | 0x5 => [2, 3, 4, 6]
  | 0x6 => [2, 3, 4]
  | 0x7 => [2, 3, 4]
  | 0x8 => [2, 3, 4, 7, 8]
  | 0x9 => [2, 3, 4, 7, 8]
  | 0xA => [2, 3, 4]
  | 0xB => [2, 3, 4]
  | 0xC => [2, 3]
  | 0xD => [2, 3]
  | _ => [1]

/-- R108: a command raises no error but those listed for it, and "POS_RANGE never fires at
LOG2M = 16". -/
def Obligations.OnlyListedErrorsAreRaised : Prop :=
  ∀ (s t : State) (x : Txn) (rest : List Request) (r : Response), s.requests = .txn x :: rest →
    step s = .next t → t.responses = s.responses ++ [r] →
      (statusECode r.status = 0 ∨ statusECode r.status ∈ listedErrors (opField x.cw)) ∧
        (s.log2m = 16 → statusECode r.status ≠ 6)

/-- R59, R60: the layout of the status word, and the result length of each command: UPDATED is set by
UPDMAX, ADD and MERGE alone, EPATH by ESTIMATE alone, bits 31:7 are 0, and a failed command has no
result. -/
def Obligations.StatusAndResultHaveTheirLayout : Prop :=
  ∀ (s t : State) (x : Txn) (rest : List Request) (r : Response), s.requests = .txn x :: rest →
    step s = .next t → t.responses = s.responses ++ [r] →
      r.status.toNat < 2 ^ 7 ∧ statusECode r.status ≤ 8 ∧
      (statusUpdated r.status ≠ 0 →
        statusECode r.status = 0 ∧ opField x.cw ∈ [0x5, 0x7, 0x9]) ∧
      (statusEPath r.status ≠ 0 ↔ statusECode r.status = 0 ∧ opField x.cw = 0xB) ∧
      r.result.length =
        if statusECode r.status ≠ 0 then 0
        else if opField x.cw ∈ [0x4, 0x6, 0xC, 0xD] then 4
        else if opField x.cw = 0xB then 8
        else if opField x.cw = 0xA then 4 * s.size
        else 0

/-- R23, R24, R25, R30 hold after reset, with the form of the array and the layout. -/
def Obligations.ResetMeetsTheInvariants : Prop := Inv State.reset

/-- R23, R24, R25, R30: every step keeps the configuration legal, the pad bits and unused slots 0, the
words beyond SIZE 0, the array in its one form and FIELD_SHIFT legal. -/
def Obligations.EveryStepKeepsTheInvariants : Prop :=
  ∀ s t : State, Inv s → step s = .next t → Inv t

/-- R21, R105, R120: only a CONFIG with a legal operand and a reset change CONFIGURED or LOG2M, and
only a reset makes CONFIGURED 0. -/
def Obligations.OnlyConfigAndResetChangeTheConfiguration : Prop :=
  ∀ s t : State, step s = .next t → (t.configured ≠ s.configured ∨ t.log2m ≠ s.log2m) →
    (∃ cut rest, s.requests = .reset cut :: rest) ∨
      ∃ x rest v, s.requests = .txn x :: rest ∧ decode x.cw = .ok (.config v) ∧
        4 ≤ v.toNat ∧ v.toNat ≤ 16 ∧ t.configured = true ∧ t.log2m = v

/-! ### Reset (10_state.md, 70_reset_and_hazards.md) -/

/-- R29, R106: after reset CONFIGURED = 0 and LOG2M = 0, and CFG reads as 0. -/
def Obligations.ResetLeavesTheEngineUnconfigured : Prop :=
  State.reset.configured = false ∧ State.reset.log2m = 0 ∧ cfgWord State.reset = 0

/-- R120: a reset, between transactions or while one executes, leaves CONFIGURED = 0 and LOG2M = 0; the
transaction it cuts returns no response. The array is left open, and nothing is said of it. -/
def Obligations.ResetInputUnconfigures : Prop :=
  ∀ (s : State) (cut : Option Txn) (rest : List Request), s.requests = .reset cut :: rest →
    ∃ t, step s = .next t ∧ t.configured = false ∧ t.log2m = 0 ∧ t.requests = rest ∧
      t.responses = s.responses ∧ t.params = s.params

/-- R29, R120: the array's contents while CONFIGURED = 0 cannot be observed: two engines that differ
in nothing else answer every sequence of requests alike, and once one is configured they are equal. -/
def Obligations.UnconfiguredArrayIsUnobservable : Prop :=
  ∀ (s : State) (m : Memory) (k : Nat), s.configured = false →
    (runFor k (s.withRa m)).responses = (runFor k s).responses ∧
      (runFor k (s.withRa m)).configured = (runFor k s).configured ∧
      ((runFor k s).configured = true → runFor k (s.withRa m) = runFor k s)

/-! ### Configuration and control (43_control.md) -/

/-- R104: NOP is answered 0 with an empty result, configured or not, and changes nothing. -/
def Obligations.NopChangesNothing : Prop :=
  ∀ s : State, s.pay = [] → ∃ t, exec .nop s = .next t ∧ SameEngine s t ∧ Answered s t 0#32 []

/-- R105: CONFIG with n in [4,16] sets CONFIGURED and LOG2M and zeroes every word; with another n it is
answered CONFIG_ERROR and changes nothing. It does not need CONFIGURED = 1. -/
def Obligations.ConfigSetsUpAnEmptyArray : Prop :=
  ∀ (s : State) (v : RegVal), s.pay = [] →
    (4 ≤ v.toNat ∧ v.toNat ≤ 16 →
      ∃ t, exec (.config v) s = .next t ∧ t.configured = true ∧ t.log2m = v ∧
        (∀ w, t.ra.read w = 0) ∧ t.params = s.params ∧ t.draws = s.draws ∧
        Answered s t 0#32 []) ∧
    (¬(4 ≤ v.toNat ∧ v.toNat ≤ 16) →
      ∃ t, exec (.config v) s = .next t ∧ SameEngine s t ∧ Answered s t 5#32 [])

/-- R21, R106: QCFG returns CFG: CONFIGURED in bit 31, 0 in 30:21, LOG2M in 20:16, SIZE in 15:0 (0 when
not configured), and changes nothing. -/
def Obligations.QcfgReturnsTheConfiguration : Prop :=
  ∀ s : State, Inv s → s.pay = [] →
    ∃ t w, exec .qcfg s = .next t ∧ SameEngine s t ∧ Answered s t 0#32 (be32 w) ∧
      slice w.toNat 31 31 = (if s.configured then 1 else 0) ∧ slice w.toNat 30 21 = 0 ∧
      slice w.toNat 20 16 = s.log2m.toNat ∧
      slice w.toNat 15 0 = (if s.configured then (2 ^ s.log2m.toNat + 5) / 6 else 0)

/-- R58, R107: OP = 0xE and OP = 0xF, with any other bits and any payload, are answered ILLEGAL_OPCODE,
and nothing else happens. -/
def Obligations.IllegalOpcodesAreAnswered : Prop :=
  ∀ (s : State) (rest : BitVec 28),
    (∃ t, exec (.illegalE rest) s = .next t ∧ SameEngine s t ∧ Answered s t 1#32 []) ∧
      ∃ t, exec (.illegalF rest) s = .next t ∧ SameEngine s t ∧ Answered s t 1#32 []

/-! ### The hash-to-rank unit (40_hash_rank.md) -/

/-- R67, R68, R70: HASHRANK returns the bucket (the top LOG2M bits of h) in bits 15:0, the rank in
20:16 and 0 above, and changes nothing. r − 1 is the number of leading zeros of the 32 − LOG2M bits
below the bucket, or 32 − LOG2M when they are all 0. -/
def Obligations.HashrankReturnsBucketAndRank : Prop :=
  ∀ (s : State) (h : Word), Inv s → s.configured = true → s.pay = be32 h →
    ∃ t w r, exec .hashrank s = .next t ∧ SameEngine s t ∧ Answered s t 0#32 (be32 w) ∧
      w.toNat = r * 2 ^ 16 + h.toNat / 2 ^ (32 - s.log2m.toNat) ∧ r < 32 ∧
      (if h.toNat % 2 ^ (32 - s.log2m.toNat) = 0 then r = 33 - s.log2m.toNat
       else 1 ≤ r ∧ r ≤ 32 - s.log2m.toNat ∧
        2 ^ (32 - s.log2m.toNat - r) ≤ h.toNat % 2 ^ (32 - s.log2m.toNat) ∧
        h.toNat % 2 ^ (32 - s.log2m.toNat) < 2 ^ (33 - s.log2m.toNat - r))

/-- R69: the range of the rank, when it is 1 and when it is the greatest; and the bucket is below
COUNT (R67). -/
def Obligations.RankRange : Prop :=
  ∀ (log2m : Nat) (h : Word), 4 ≤ log2m → log2m ≤ 16 →
    1 ≤ rank log2m h ∧ rank log2m h ≤ 33 - log2m ∧ 33 - log2m ≤ 29 ∧
      (rank log2m h = 1 ↔ slice h.toNat (31 - log2m) (31 - log2m) = 1) ∧
      (rank log2m h = 33 - log2m ↔ slice h.toNat (31 - log2m) 0 = 0) ∧
      bucket log2m h < 2 ^ log2m

/-- R71, R72: after an ADD every register holds the greater of its prior value and the greatest rank
among the batch's hashes of its bucket; UPDATED says whether one increased; words without such a
bucket, the bits that hold no register and everything else of the engine are unchanged. -/
def Obligations.AddRaisesTheBuckets : Prop :=
  ∀ (s : State) (hs : List Word), Inv s → s.configured = true → s.pay = hs.flatMap be32 →
    ∃ t updated, exec (.add (4 * hs.length)) s = .next t ∧ SameButArray s t ∧
      Answered s t (if updated then 0x10#32 else 0#32) [] ∧
      (∀ q, q < s.count → (s.reg q).toNat ≤ (t.reg q).toNat ∧
        (∀ h ∈ hs, bucket s.log2m.toNat h = q → rank s.log2m.toNat h ≤ (t.reg q).toNat) ∧
        (t.reg q = s.reg q ∨
          ∃ h ∈ hs, bucket s.log2m.toNat h = q ∧ rank s.log2m.toNat h = (t.reg q).toNat)) ∧
      (updated = true ↔ ∃ q, q < s.count ∧ (s.reg q).toNat < (t.reg q).toNat) ∧
      (∀ w, (∀ h ∈ hs, w ≠ bucket s.log2m.toNat h / 6) → t.ra.read w = s.ra.read w) ∧
      ∀ w, t.ra.read w &&& s.illegalMask w = s.ra.read w &&& s.illegalMask w

/-- The state after ADDs of these batches, one transaction each. -/
def afterAdds (s : State) (hss : List (List Word)) : State :=
  runAll (s.withRequests (hss.map fun hs => .txn (addTxn hs)))

/-- R72: after ADDs every register holds the greater of its prior value and the greatest rank among the
hashes of its bucket; so the final state (CONFIGURED, LOG2M and
the array) does not depend on the order of the hashes, on how they are split
across ADD commands, or on repeated hashes: it depends on which hashes were added only. -/
def Obligations.AddDependsOnTheSetOfHashesOnly : Prop :=
  ∀ (s : State) (hss : List (List Word)), Inv s → s.configured = true →
    (∀ hs ∈ hss, 4 * hs.length < 65536) →
      (∀ q, q < s.count → (s.reg q).toNat ≤ ((afterAdds s hss).reg q).toNat ∧
        (∀ h ∈ hss.flatten, bucket s.log2m.toNat h = q →
          rank s.log2m.toNat h ≤ ((afterAdds s hss).reg q).toNat) ∧
        ((afterAdds s hss).reg q = s.reg q ∨
          ∃ h ∈ hss.flatten, bucket s.log2m.toNat h = q ∧
            rank s.log2m.toNat h = ((afterAdds s hss).reg q).toNat)) ∧
      ∀ gss : List (List Word), (∀ gs ∈ gss, 4 * gs.length < 65536) →
        (∀ h, h ∈ hss.flatten ↔ h ∈ gss.flatten) →
          SameEngine (afterAdds s hss) (afterAdds s gss)

/-! ### The register array (41_register_set.md) -/

/-- R76: CLEAR makes every register 0 and leaves CONFIGURED, LOG2M and the words beyond SIZE. -/
def Obligations.ClearZeroesTheRegisters : Prop :=
  ∀ s : State, Inv s → s.pay = [] → s.configured = true →
    ∃ t, exec .clear s = .next t ∧ SameButArray s t ∧ Answered s t 0#32 [] ∧
      (∀ w, w < s.size → t.ra.read w = 0) ∧ (∀ w, s.size ≤ w → t.ra.read w = s.ra.read w) ∧
      ∀ p, p < s.count → t.reg p = 0

/-- R16, R74, R77: SET writes v to x[p]; no other register, no other word, no pad bit and no unused
slot changes. -/
def Obligations.SetWritesOneRegister : Prop :=
  ∀ (s : State) (v : RegVal) (p : Nat), Inv s → s.pay = [] → s.configured = true →
    p < s.count →
    ∃ t, exec (.set v p) s = .next t ∧ SameButArray s t ∧ Answered s t 0#32 [] ∧
      t.reg p = v ∧ (∀ q, q ≠ p → t.reg q = s.reg q) ∧
      (∀ w, w ≠ p / 6 → t.ra.read w = s.ra.read w) ∧
      ∀ w, t.ra.read w &&& s.illegalMask w = s.ra.read w &&& s.illegalMask w

/-- R78: GET returns x[p] in 4 bytes, bits 31:5 of them 0, and changes nothing. -/
def Obligations.GetReturnsTheRegister : Prop :=
  ∀ (s : State) (p : Nat), s.pay = [] → s.configured = true → p < s.count →
    ∃ t, exec (.get p) s = .next t ∧ SameEngine s t ∧
      Answered s t 0#32 [0, 0, 0, BitVec.ofNat 8 (s.reg p).toNat]

/-- R79, R80: UPDMAX writes v to x[p] and reports UPDATED = 1 when v > x[p] as 5-bit values; otherwise
it reports UPDATED = 0 and changes nothing. No other register, no other word and
no bit that holds no register changes. -/
def Obligations.UpdmaxRaisesOneRegister : Prop :=
  ∀ (s : State) (v : RegVal) (p : Nat), Inv s → s.pay = [] → s.configured = true →
    p < s.count →
    ∃ t, exec (.updmax v p) s = .next t ∧ SameButArray s t ∧
      (if (s.reg p).toNat < v.toNat then t.reg p = v ∧ Answered s t 0x10#32 []
       else t.ra = s.ra ∧ Answered s t 0#32 []) ∧
      (∀ q, q ≠ p → t.reg q = s.reg q) ∧ (∀ w, w ≠ p / 6 → t.ra.read w = s.ra.read w) ∧
      ∀ w, t.ra.read w &&& s.illegalMask w = s.ra.read w &&& s.illegalMask w

/-- R33, R81: LOAD of a valid blob of 4·SIZE bytes puts bytes 4w .. 4w+3, most significant first, into
word w for every w < SIZE, and changes no other word. -/
def Obligations.LoadReplacesTheArray : Prop :=
  ∀ s : State, Inv s → s.configured = true → s.pay.length = 4 * s.size →
    ValidBlob s s.payWords →
    ∃ t, exec (.load (4 * s.size)) s = .next t ∧ SameButArray s t ∧ Answered s t 0#32 [] ∧
      (∀ w, w < s.size →
        t.ra.read w = s.pay.getD (4 * w) 0 ++ s.pay.getD (4 * w + 1) 0 ++
          s.pay.getD (4 * w + 2) 0 ++ s.pay.getD (4 * w + 3) 0) ∧
      ∀ w, s.size ≤ w → t.ra.read w = s.ra.read w

/-- R82, R83: MERGE of a valid blob makes every register p < COUNT the greater of x[p] and the blob's
register, and reports UPDATED = 1 when one increased. No word beyond SIZE, no bit that
holds no register and nothing else changes. -/
def Obligations.MergeTakesTheMaximumOfEachRegister : Prop :=
  ∀ s : State, Inv s → s.configured = true → s.pay.length = 4 * s.size →
    ValidBlob s s.payWords →
    ∃ t updated, exec (.merge (4 * s.size)) s = .next t ∧ SameButArray s t ∧
      Answered s t (if updated then 0x10#32 else 0#32) [] ∧
      (∀ p, p < s.count →
        (t.reg p).toNat = max (s.reg p).toNat (s.blobReg s.payWords p).toNat) ∧
      (updated = true ↔
        ∃ p, p < s.count ∧ (s.reg p).toNat < (s.blobReg s.payWords p).toNat) ∧
      (∀ w, s.size ≤ w → t.ra.read w = s.ra.read w) ∧
      ∀ w, t.ra.read w &&& s.illegalMask w = s.ra.read w &&& s.illegalMask w

/-- The array after these transactions. -/
def arrayAfter (s : State) (xs : List Txn) : Memory :=
  (runAll (s.withRequests (xs.map .txn))).ra

/-- R84: on valid blobs of one configuration MERGE is commutative, idempotent and associative. -/
def Obligations.MergeIsAJoin : Prop :=
  ∀ (s : State) (a b c : List Word), Inv s → s.configured = true → ValidBlob s a →
    ValidBlob s b → ValidBlob s c →
    arrayAfter s [loadTxn a, mergeTxn b] = arrayAfter s [loadTxn b, mergeTxn a] ∧
      arrayAfter s [loadTxn a, mergeTxn a] = arrayAfter s [loadTxn a] ∧
      arrayAfter s [loadTxn a, mergeTxn b, mergeTxn c] =
        arrayAfter s [loadTxn b, mergeTxn c, mergeTxn a]

/-- R82, R83: the regression scenario: the per-register maximum of the words 0xA04FF024 and 0xF858028C
is 0xF859F2A4 (the whole-word maximum would be 0xF858028C). -/
def Obligations.MergeIsPerRegisterNotPerWord : Prop :=
  ((arrayAfter { State.reset with configured := true, log2m := 4 }
      [loadTxn [0xA04FF024, 0, 0], mergeTxn [0xF858028C, 0, 0]]).read 0) = 0xF859F2A4#32

/-- R33, R85: SER returns words 0 .. SIZE−1 in order, each as 4 bytes, most significant first, and
changes nothing. -/
def Obligations.SerReturnsTheBlob : Prop :=
  ∀ s : State, s.pay = [] → s.configured = true →
    ∃ t blob, exec .ser s = .next t ∧ SameEngine s t ∧ Answered s t 0#32 blob ∧
      blob.length = 4 * s.size ∧
      ∀ w, w < s.size →
        blob.getD (4 * w) 0 ++ blob.getD (4 * w + 1) 0 ++ blob.getD (4 * w + 2) 0 ++
          blob.getD (4 * w + 3) 0 = s.ra.read w

/-- R86: SER followed by LOAD of its result leaves RA unchanged, and LOAD of a valid blob followed by
SER returns it byte for byte. -/
def Obligations.SerAndLoadAreInverse : Prop :=
  (∀ s t u : State, Inv s → s.configured = true → s.pay = [] → exec .ser s = .next t →
    SameEngine s u → u.pay = (t.responses.getLast?.map Response.result).getD [] →
    ∃ v, exec (.load (4 * s.size)) u = .next v ∧ v.ra = s.ra ∧ Answered u v 0#32 []) ∧
  ∀ (s : State) (blob : List Word), Inv s → s.configured = true → ValidBlob s blob →
    (runAll (s.withRequests [.txn (loadTxn blob), .txn serTxn])).responses =
      s.responses ++ [⟨0#32, []⟩, ⟨0#32, blob.flatMap be32⟩]

/-- R88: BYTESNEEDED i returns 4·max(1, ⌈2^i / 6⌉), which fits 32 bits, needs no configuration and
changes nothing. -/
def Obligations.BytesneededReturnsTheBlobSize : Prop :=
  ∀ (s : State) (v : RegVal), s.pay = [] →
    ∃ t w, exec (.bytesneeded v) s = .next t ∧ SameEngine s t ∧ Answered s t 0#32 (be32 w) ∧
      w.toNat = 4 * max 1 ((2 ^ v.toNat + 5) / 6)

/-- R89: SIZE strictly increases with LOG2M, so a blob of another legal LOG2M is answered
SIZE_MISMATCH by LOAD and by MERGE, and nothing changes. -/
def Obligations.SizeSeparatesConfigurations : Prop :=
  (∀ m n, 4 ≤ m → m < n → n ≤ 16 → sizeWords m < sizeWords n) ∧
    ∀ (s : State) (n : Nat), Inv s → s.configured = true → 4 ≤ n → n ≤ 16 →
      n ≠ s.log2m.toNat → s.pay.length = 4 * sizeWords n →
      (∃ t, exec (.load (4 * sizeWords n)) s = .next t ∧ SameEngine s t ∧ Answered s t 7#32 []) ∧
        ∃ t, exec (.merge (4 * sizeWords n)) s = .next t ∧ SameEngine s t ∧ Answered s t 7#32 []

/-- R38, R39: at the default FIELD_SHIFT the slot masks are those of the table, and the illegal bits of
a word are 0x00000003, but for the last word 0xFFC00003 (even LOG2M) or 0xFFFFF003 (odd LOG2M). -/
def Obligations.DefaultLayoutHasTheTabledMasks : Prop :=
  (List.range 6).map (slotMask defaultFieldShift) =
      [0x0000007C#32, 0x00000F80#32, 0x0001F000#32, 0x003E0000#32, 0x07C00000#32, 0xF8000000#32] ∧
    padMask defaultFieldShift = 3#32 ∧
    ∀ n w, 4 ≤ n → n ≤ 16 → w < sizeWords n →
      illegalMask defaultFieldShift (countOf n) w =
        if w + 1 < sizeWords n then 0x00000003#32
        else if n % 2 = 0 then 0xFFC00003#32 else 0xFFFFF003#32

/-- R26, R87: UPDMAX, ADD and MERGE never lower a register; SET, LOAD, CLEAR and a successful CONFIG
may. -/
def Obligations.OnlyOverwritesLowerARegister : Prop :=
  (∀ (s t : State) (i : Instr) (q : Nat), Inv s → s.configured = true → q < s.count →
    ((∃ v p, i = .updmax v p) ∨ (∃ p, i = .add p) ∨ ∃ p, i = .merge p) →
    exec i s = .next t → (s.reg q).toNat ≤ (t.reg q).toNat) ∧
  ∃ s : State, Inv s ∧ s.configured = true ∧
    (∃ t, exec (.set 0 0) s = .next t ∧ (t.reg 0).toNat < (s.reg 0).toNat) ∧
    (∃ t, exec .clear s = .next t ∧ (t.reg 0).toNat < (s.reg 0).toNat) ∧
    (∃ t, exec (.config s.log2m) s = .next t ∧ (t.reg 0).toNat < (s.reg 0).toNat) ∧
    ∃ u t, SameEngine s u ∧ exec (.load (4 * s.size)) u = .next t ∧
      (t.reg 0).toNat < (s.reg 0).toNat

/-- R43: GET, SER, ESTIMATE, HASHRANK, BYTESNEEDED, QCFG and NOP change no state, so a repetition gives
the same response. -/
def Obligations.ReadingCommandsCanBeRepeated : Prop :=
  ∀ (i : Instr) (s t u : State) (st : Word) (rs : List Byte),
    ((∃ p, i = .get p) ∨ i = .ser ∨ i = .estimate ∨ i = .hashrank ∨
      (∃ v, i = .bytesneeded v) ∨ i = .qcfg ∨ i = .nop) →
    exec i s = .next t → Answered s t st rs → SameEngine t u → u.pay = s.pay →
      SameEngine s t ∧ ∃ v, exec i u = .next v ∧ SameEngine s v ∧ Answered u v st rs

/-- R43: a second SET, CLEAR, CONFIG or LOAD with the same operands leaves the same state, and so does
a second MERGE or ADD, which responds with UPDATED = 0. -/
def Obligations.WritingCommandsAreIdempotent : Prop :=
  ∀ (i : Instr) (s t u : State), Inv s →
    ((∃ v p, i = .set v p) ∨ i = .clear ∨ (∃ v, i = .config v) ∨ (∃ p, i = .load p) ∨
      (∃ p, i = .merge p) ∨ ∃ p, i = .add p) →
    exec i s = .next t → SameEngine t u → u.pay = s.pay →
      ∃ v st, exec i u = .next v ∧ SameEngine t v ∧ Answered u v st [] ∧ statusUpdated st = 0

/-! ### The estimator (42_estimator.md) -/

/-- R92 to R95, R97 to R99: ESTIMATE forms the exact sum S and the number of zeros over the COUNT live
registers, raw = fl64(ALPHAMM / (S·2^−31)), takes the branch of R95 and returns the 64-bit result of
R96 to R98, ⌊x + 1/2⌋ of the exact value of x (R11), with the branch's EPATH; it changes nothing. In a
state that meets the invariants S·2^−31 (R92) and COUNT are exact in binary64. -/
def Obligations.EstimateFollowsItsPseudocode : Prop :=
  ∀ s : State, s.pay = [] → s.configured = true →
    ∃ t result path, exec .estimate s = .next t ∧ SameEngine s t ∧
      Answered s t (BitVec.ofNat 32 (path * 2 ^ 5)) (be64 (BitVec.ofNat 64 result)) ∧
      ∀ (sum zeros : Nat) (raw : B64),
        sum = ∑ p ∈ Finset.range s.count, 2 ^ (31 - (s.reg p).toNat) →
        zeros = ((Finset.range s.count).filter fun p => s.reg p = 0).card →
        raw = fl64Div (alphaRom s.log2m.toNat) (fl64 sum (2 ^ 31)) →
        (Inv s → b64Value (fl64 sum (2 ^ 31)) = (sum : ℚ) / 2 ^ 31 ∧
          b64Value (b64OfNat s.count) = s.count) ∧
        if b64Value raw ≤ 5 / 2 * (s.count : ℚ) then
          if 0 < zeros then
            path = 1 ∧ result = ⌊b64Value (fl64Mul (b64OfNat s.count)
              (ln64 s.params.ln (fl64 s.count zeros))) + 1 / 2⌋₊
          else path = 3 ∧ result = ⌊b64Value raw + 1 / 2⌋₊
        else path = 2 ∧ result = ⌊b64Value raw + 1 / 2⌋₊

/-- R100: with every register 0 the path is LINEAR and the result is 0, at every LOG2M and for every
LN64. -/
def Obligations.EmptyArrayEstimatesZero : Prop :=
  ∀ s : State, Inv s → s.pay = [] → s.configured = true → (∀ p, p < s.count → s.reg p = 0) →
    ∃ t, exec .estimate s = .next t ∧ SameEngine s t ∧
      Answered s t 0x20#32 [0, 0, 0, 0, 0, 0, 0, 0]

/-- R101: "Every result is below 2^47, so 64 bits always suffice", for every LN64 the model admits
(log entry 6). -/
def Obligations.EstimateIsBelowTwoToThe47 : Prop :=
  ∀ s : State, Inv s → s.configured = true → s.estimate.2 < 2 ^ 47

/-- R102: the estimate is not monotone: at LOG2M = 4 with the default LN64, raising x[15] from 0 to 1
takes the estimate from 44 to 41 over fifteen registers = 2, and from 44 to 22 over fifteen
registers = 1. -/
def Obligations.EstimateIsNotMonotone : Prop :=
  ∃ a b c d : State, Inv a ∧ Inv b ∧ Inv c ∧ Inv d ∧
    (∀ s ∈ [a, b, c, d],
      s.configured = true ∧ s.log2m = 4 ∧ s.params.ln = .correctlyRounded) ∧
    (∀ p, p < 15 → a.reg p = 2 ∧ b.reg p = 2 ∧ c.reg p = 1 ∧ d.reg p = 1) ∧
    a.reg 15 = 0 ∧ b.reg 15 = 1 ∧ c.reg 15 = 0 ∧ d.reg 15 = 1 ∧
    a.estimate = (.linear, 44) ∧ b.estimate = (.raw, 41) ∧ c.estimate = (.linear, 44) ∧
    d.estimate = (.fallback, 22)

/-- R90: each entry of ALPHA_ROM is the binary64 evaluation of the document's formula, the decimal
literals rounded first. -/
def Obligations.AlphaRomIsTheFormula : Prop :=
  alphaRom 4 = fl64Mul (fl64Mul (fl64 673 1000) (b64OfNat 16)) (b64OfNat 16) ∧
    alphaRom 5 = fl64Mul (fl64Mul (fl64 697 1000) (b64OfNat 32)) (b64OfNat 32) ∧
    alphaRom 6 = fl64Mul (fl64Mul (fl64 709 1000) (b64OfNat 64)) (b64OfNat 64) ∧
    ∀ n ∈ [7, 8, 9, 10, 11, 12, 13, 14, 15, 16],
      alphaRom n =
        fl64Mul (fl64Mul
          (fl64Div (fl64 7213 10000)
            (fl64Add (b64OfNat 1) (fl64Div (fl64 1079 1000) (b64OfNat (2 ^ n)))))
          (b64OfNat (2 ^ n))) (b64OfNat (2 ^ n))

/-- R11: `fl64(e)` is the binary64 value nearest to the exact value of e, and of two nearest values the
one with an even significand. -/
def Obligations.Fl64RoundsToNearestTiesToEven : Prop :=
  ∀ (n d : Nat) (b : B64), 0 < d → (fl64 n d).toNat < b64Inf → b.toNat < b64Inf →
    |(b64Scaled (fl64 n d) : ℚ) / b64Unit - (n : ℚ) / d| ≤
        |(b64Scaled b : ℚ) / b64Unit - (n : ℚ) / d| ∧
      (|(b64Scaled (fl64 n d) : ℚ) / b64Unit - (n : ℚ) / d| =
          |(b64Scaled b : ℚ) / b64Unit - (n : ℚ) / d| →
        b ≠ fl64 n d → (fl64 n d).toNat % 2 = 0)

/-- R96, D15: the default LN64 is correctly rounded where the model's enclosure settles it: no binary64
value is nearer to the exact natural logarithm of q than LN64(q). It settles every q that ESTIMATE forms
at LOG2M = 4. That the default is found by an enclosure, and is free where the enclosure does not settle
it, is the model's means (DEDUCED, log entry 7). -/
def Obligations.DefaultLogarithmIsNearest : Prop :=
  (∀ q b : B64, lnSettled q = true → b.toNat < b64Inf →
    |((b64Scaled (ln64 .correctlyRounded q) : ℝ) / b64Unit) -
        Real.log ((b64Scaled q : ℝ) / b64Unit)| ≤
      |((b64Scaled b : ℝ) / b64Unit) - Real.log ((b64Scaled q : ℝ) / b64Unit)|) ∧
  ∀ zeros, 1 ≤ zeros → zeros ≤ 16 → lnSettled (fl64 16 zeros) = true

/-- R96: "Any LN64 must give LN64(1.0) = 0.0". That every other answer is a finite value with sign 0, for
every q, is the model's choice for a logarithm other than the default (DESIGN CHOICE, log entry 6; R96
writes "0.0 <= lnq"). -/
def Obligations.EveryLogarithmIsAdmitted : Prop :=
  ∀ (c : LnChoice) (q : B64),
    ln64 c 0x3FF0000000000000#64 = 0 ∧ (ln64 c q).toNat < b64Inf

/-! ### The host (20_memory.md, 30_encoding.md) -/

/-- R63: ADDMEMBERS returns, last, the blob of a fresh set with each hash folded in: its register q is
the greatest rank among the hashes of bucket q, 0 where there is none. (Where a long batch
is cut is the model's choice, log entry 17.) -/
def Obligations.AddmembersBuildsTheSketch : Prop :=
  ∀ (s : State) (hs : List Nat), Inv s → s.configured = true → (∀ h ∈ hs, h < 2 ^ 32) →
    ∃ blob, ValidBlob s blob ∧
      (runAll (s.withRequests (requestsOf (addMembers hs)))).responses.getLast? =
        some ⟨0#32, blob.flatMap be32⟩ ∧
      ∀ q, q < s.count →
        (∀ h ∈ hs, bucket s.log2m.toNat (BitVec.ofNat 32 h) = q →
          rank s.log2m.toNat (BitVec.ofNat 32 h) ≤ (s.blobReg blob q).toNat) ∧
        (s.blobReg blob q = 0 ∨
          ∃ h ∈ hs, bucket s.log2m.toNat (BitVec.ofNat 32 h) = q ∧
            rank s.log2m.toNat (BitVec.ofNat 32 h) = (s.blobReg blob q).toNat)

/-- R66: BMERGE of two valid blobs returns, last, the blob of their per-register maximum. When no blob is
stored the host sends nothing: R66 leaves open whether it checks the size by a LOAD, and that it does not
is the model's choice (DESIGN CHOICE, log entry 18). -/
def Obligations.BmergeReturnsTheMaximum : Prop :=
  (∀ incoming : List Nat, requestsOf (bMerge none incoming) = []) ∧
  ∀ (s : State) (a b : List Word), Inv s → s.configured = true → ValidBlob s a →
    ValidBlob s b →
    ∃ blob, ValidBlob s blob ∧
      (runAll (s.withRequests (requestsOf (bMerge (some ((a.flatMap be32).map BitVec.toNat))
        ((b.flatMap be32).map BitVec.toNat))))).responses.getLast? =
        some ⟨0#32, blob.flatMap be32⟩ ∧
      ∀ q, q < s.count →
        (s.blobReg blob q).toNat = max (s.blobReg a q).toNat (s.blobReg b q).toNat

/-- R65: ESTCARD of a valid blob is answered by the LOAD with 0 and by the ESTIMATE with the branch and the
estimate of the array that holds the blob; for an absent key nothing is sent. -/
def Obligations.EstcardReturnsTheEstimateOfTheBlob : Prop :=
  estCard none = [] ∧
  ∀ (s : State) (blob : List Word), Inv s → s.configured = true → ValidBlob s blob →
    (runAll (s.withRequests
      (requestsOf (estCard (some ((blob.flatMap be32).map BitVec.toNat)))))).responses =
        s.responses ++ [⟨0#32, []⟩, ⟨epathStatus (s.withRa (s.ra.store blob)).estimate.1,
          be64 (BitVec.ofNat 64 (s.withRa (s.ra.store blob)).estimate.2)⟩]

/-- R45, R126: transactions execute in port order, each sees every effect of the earlier ones and none of
a later one: what is observed of a run over `xs` then `ys` is what is observed of a run over `ys` from
where the run over `xs` ends, and the responses to `xs` do not depend on `ys`. -/
def Obligations.RequestsExecuteInPortOrder : Prop :=
  ∀ (s : State) (xs ys : List Request),
    observe (runAll (s.withRequests (xs ++ ys))) =
        observe (runAll ((runAll (s.withRequests xs)).withRequests ys)) ∧
      (runAll (s.withRequests xs)).responses <+: (runAll (s.withRequests (xs ++ ys))).responses

/-- R50, R117: the order in which an arbiter grants the port is open, and a claim must hold for every
order. Whatever the order, hosts that send ADDs leave the same array. -/
def Obligations.AddsCommuteUnderEveryGrantOrder : Prop :=
  ∀ (s : State) (hosts : List (List (List Word))) (xs ys : List Txn), Inv s →
    s.configured = true → (∀ host ∈ hosts, ∀ hs ∈ host, 4 * hs.length < 65536) →
    GrantOrder (hosts.map fun host => host.map addTxn) xs →
    GrantOrder (hosts.map fun host => host.map addTxn) ys →
      arrayAfter s xs = arrayAfter s ys

/-- R124: a sequence is not atomic: when the arbiter lets one ADDMEMBERS run between the CLEAR and the
SER of another, the blob that the other gets holds registers of both. -/
def Obligations.InterleavedSequencesShareTheArray : Prop :=
  ∃ xs : List Txn,
    GrantOrder [(addMembers [0x12345678]).map assemble, (addMembers [0xDEADBEEF]).map assemble]
      xs ∧
    ∃ blob : List Byte,
      ⟨0#32, blob⟩ ∈
          (runAll ({ State.reset with configured := true, log2m := 4 }.withRequests
            (xs.map .txn))).responses ∧
      blob = [0x00, 0x00, 0x01, 0x80, 0, 0, 0, 0, 0, 0, 0, 0x80]

/-- R34, R51, R57, R60: on a byte-serial port a response is its status word, most significant byte first,
then its result; the host, which knows OP and SIZE, finds its end from the status word, and any shorter
run of the bytes is not yet a response. -/
def Obligations.ResponseBytesFollowTheStatusWord : Prop :=
  ∀ (s t : State) (x : Txn) (rest : List Request) (r : Response), s.requests = .txn x :: rest →
    step s = .next t → t.responses = s.responses ++ [r] →
      (r.bytes.take 4).map BitVec.toNat = valueBytes r.status.toNat ∧
      r.bytes.drop 4 = r.result ∧
      (∀ more : List Byte,
        frameResponse (opField x.cw) s.size (r.bytes ++ more) = some (r, more)) ∧
      ∀ n, n < r.bytes.length → frameResponse (opField x.cw) s.size (r.bytes.take n) = none
end

