-- ==== Sys2Proof/Laws/Binary64.lean ====
section
/-! SUPPORT. Rounding to binary64 (R11): the rounded quotient, the binade, and the value of a rounded
pattern. -/

namespace Sys2Proof.Machine

/-- `roundHalfEven` is within half a unit of the quotient, and is even when two integers are equally
near. -/
theorem roundHalfEven_spec (n : Nat) {d : Nat} (hd : 0 < d) :
    2 * n ≤ (2 * roundHalfEven n d + 1) * d ∧ 2 * roundHalfEven n d * d ≤ 2 * n + d ∧
      (2 * n = (2 * roundHalfEven n d + 1) * d ∨ 2 * roundHalfEven n d * d = 2 * n + d →
        roundHalfEven n d % 2 = 0) := by
  have hq := Nat.div_add_mod n d
  have hr := Nat.mod_lt n hd
  unfold roundHalfEven
  generalize n / d = q at *
  generalize n % d = r at *
  subst hq
  split
  · exact ⟨by linarith, by linarith, by rintro (h | h) <;> (exfalso; nlinarith)⟩
  · split
    · exact ⟨by linarith, by linarith, by rintro (h | h) <;> (exfalso; nlinarith)⟩
    · have e : d = 2 * r := by omega
      subst e
      rcases Nat.mod_two_eq_zero_or_one q with h | h <;> rw [h]
      · exact ⟨by linarith, by linarith, fun _ => by omega⟩
      · exact ⟨by linarith, by linarith, fun _ => by omega⟩

theorem binadeOf_pos (n d : Nat) : 1 ≤ binadeOf n d := Nat.le_max_left _ _

/-- The scaled quotient lies below the top of its binade, and at or above its bottom when the binade
is not the subnormals'. -/
theorem binadeOf_spec (n : Nat) {d : Nat} (hd : 0 < d) :
    b64Unit * n < 2 ^ 53 * (2 ^ binadeOf n d * d) ∧
      (1 < binadeOf n d → 2 ^ 52 * (2 ^ binadeOf n d * d) ≤ b64Unit * n) := by
  have low : b64Unit * n / d * d ≤ b64Unit * n := Nat.div_mul_le_self _ _
  have high : b64Unit * n < (b64Unit * n / d + 1) * d := by
    have := Nat.div_add_mod (b64Unit * n) d
    have := Nat.mod_lt (b64Unit * n) hd
    linarith [Nat.mul_comm d (b64Unit * n / d)]
  unfold binadeOf
  generalize b64Unit * n = x at *
  generalize x / d = q at *
  have lt : q < 2 ^ (Nat.log2 q + 1) := Nat.lt_log2_self
  constructor
  · have h : 2 ^ (Nat.log2 q + 1) ≤ 2 ^ (53 + max 1 (Nat.log2 q - 52)) :=
      Nat.pow_le_pow_right (by decide) (by omega)
    have h := Nat.lt_of_lt_of_le lt h
    rw [pow_add] at h
    calc x < (q + 1) * d := high
      _ ≤ (2 ^ 53 * 2 ^ max 1 (Nat.log2 q - 52)) * d := Nat.mul_le_mul_right _ (by omega)
      _ = _ := by ring
  · intro h
    have hq : q ≠ 0 := by rintro rfl; simp at h
    have ge : 2 ^ Nat.log2 q ≤ q := Nat.log2_self_le hq
    have h' : 2 ^ (52 + max 1 (Nat.log2 q - 52)) ≤ 2 ^ Nat.log2 q :=
      Nat.pow_le_pow_right (by decide) (by omega)
    rw [pow_add] at h'
    calc 2 ^ 52 * (2 ^ max 1 (Nat.log2 q - 52) * d)
        = (2 ^ 52 * 2 ^ max 1 (Nat.log2 q - 52)) * d := by ring
      _ ≤ q * d := Nat.mul_le_mul_right _ (by omega)
      _ ≤ x := low

/-- The significand that `fl64` rounds to, in the binade of its operand. -/
def roundedSig (n d : Nat) : Nat := roundHalfEven (b64Unit * n) (2 ^ binadeOf n d * d)

/-- The rounded significand: at most the next binade's bottom, and at least its own when the binade
is not the subnormals'. -/
theorem roundedSig_range (n : Nat) {d : Nat} (hd : 0 < d) :
    roundedSig n d ≤ 2 ^ 53 ∧ (1 < binadeOf n d → 2 ^ 52 ≤ roundedSig n d) := by
  have hD : 0 < 2 ^ binadeOf n d * d := by positivity
  obtain ⟨h1, h2, -⟩ := roundHalfEven_spec (b64Unit * n) hD
  obtain ⟨b1, b2⟩ := binadeOf_spec n hd
  rw [roundedSig]
  generalize roundHalfEven (b64Unit * n) (2 ^ binadeOf n d * d) = r at *
  generalize b64Unit * n = x at *
  generalize 2 ^ binadeOf n d * d = D at *
  constructor
  · by_contra h
    have : (2 ^ 53 + 1) * D ≤ r * D := Nat.mul_le_mul_right _ (by omega)
    linarith
  · intro hb
    have b2 := b2 hb
    by_contra h
    have : (r + 1) * D ≤ 2 ^ 52 * D := Nat.mul_le_mul_right _ (by omega)
    linarith

/-- The exponent field of a pattern with sign 0, split off. -/
theorem b64_of_split {b : B64} {e f : Nat} (hb : b.toNat = 2 ^ 52 * e + f) (hf : f < 2 ^ 52)
    (he : e < 2 ^ 11) : b64Exp b = e ∧ b64Frac b = f := by
  simp only [b64Exp, b64Frac, slice, hb]
  omega

/-- What `fl64` answers when the result is finite: the pattern, and its value, the rounded
significand in the binade of the operand (R11). -/
theorem fl64_finite {n d : Nat} (hd : 0 < d) (hf : (fl64 n d).toNat < b64Inf) :
    (fl64 n d).toNat = 2 ^ 52 * (binadeOf n d - 1) + roundedSig n d ∧
      b64Scaled (fl64 n d) = 2 ^ binadeOf n d * roundedSig n d := by
  obtain ⟨r1, r2⟩ := roundedSig_range n hd
  have hp := binadeOf_pos n d
  have hN : (fl64 n d).toNat =
      min b64Inf (2 ^ 52 * (binadeOf n d - 1) + roundedSig n d) := by
    rw [fl64, BitVec.toNat_ofNat]
    apply Nat.mod_eq_of_lt
    exact Nat.lt_of_le_of_lt (Nat.min_le_left _ _) (by decide)
  generalize fl64 n d = b at *
  generalize roundedSig n d = r at *
  generalize binadeOf n d = E at *
  have hN' : b.toNat = 2 ^ 52 * (E - 1) + r := by omega
  refine ⟨hN', ?_⟩
  have hE : E ≤ 2047 := by
    rw [b64Inf] at hf
    omega
  by_cases h1 : r < 2 ^ 52
  · have hE1 : E = 1 := by omega
    subst hE1
    obtain ⟨a, c⟩ := b64_of_split (b := b) (e := 0) (f := r) (by omega) h1 (by omega)
    rw [b64Scaled, if_pos a, c, pow_one]
  · by_cases h2 : r < 2 ^ 53
    · obtain ⟨a, c⟩ := b64_of_split (b := b) (e := E) (f := r - 2 ^ 52) (by omega) (by omega)
        (by omega)
      have hr : 2 ^ 52 + (r - 2 ^ 52) = r := Nat.add_sub_cancel' (by omega)
      rw [b64Scaled, if_neg (by omega), a, c, hr]
    · have h3 : r = 2 ^ 53 := by omega
      rw [b64Inf] at hf
      obtain ⟨a, c⟩ := b64_of_split (b := b) (e := E + 1) (f := 0) (by omega) (by omega) (by omega)
      rw [b64Scaled, if_neg (by omega), a, c, h3, pow_succ]
      ring

end Sys2Proof.Machine
end

