-- ==== Sys2Proof/Laws/Bits.lean ====
section
/-! SUPPORT. Laws of the notation (Machine/Bits.lean): big-endian bytes and words are inverse, what
`clz32` says of the bits, and a sum by halves is the sum. -/

namespace Sys2Proof.Machine

@[simp] theorem be32_length (v : Word) : (be32 v).length = 4 := by simp [be32]

@[simp] theorem be64_length (v : BitVec 64) : (be64 v).length = 8 := by simp [be64]

theorem slice_lt (v hi lo : Nat) : slice v hi lo < 2 ^ (hi + 1 - lo) :=
  Nat.mod_lt _ (by positivity)

/-- The word of a word's four bytes is the word. -/
theorem beWord_bytes (v : Word) :
    beWord (v.extractLsb' 24 8) (v.extractLsb' 16 8) (v.extractLsb' 8 8) (v.extractLsb' 0 8) =
      v := by
  apply BitVec.eq_of_getLsbD_eq
  intro i hi
  simp only [beWord, BitVec.getLsbD_append, BitVec.getLsbD_extractLsb']
  interval_cases i <;> simp

/-- The bytes of the word of four bytes are the bytes. -/
theorem be32_beWord (a b c d : Byte) : be32 (beWord a b c d) = [a, b, c, d] := by
  have key : ∀ (lo : Nat) (x : Byte),
      (∀ i, i < 8 → (beWord a b c d).getLsbD (lo + i) = x.getLsbD i) →
        (beWord a b c d).extractLsb' lo 8 = x := by
    intro lo x h
    apply BitVec.eq_of_getLsbD_eq
    intro i hi
    rw [BitVec.getLsbD_extractLsb', h i hi]
    simp [hi]
  simp only [be32, List.cons.injEq, and_true]
  refine ⟨key _ _ ?_, key _ _ ?_, key _ _ ?_, key _ _ ?_⟩ <;> intro i hi <;>
    simp only [beWord, BitVec.getLsbD_append] <;> interval_cases i <;> simp

/-- `BE32` of a word's bytes gives the word back. -/
@[simp] theorem beWords_be32_append (v : Word) (rest : List Byte) :
    beWords (be32 v ++ rest) = v :: beWords rest := by
  simp only [be32, List.cons_append, List.nil_append, beWords, beWord_bytes]

@[simp] theorem beWords_nil : beWords [] = [] := rfl

/-- Reading back the bytes of a list of words gives the list. -/
@[simp] theorem beWords_flatMap_be32 (ws : List Word) : beWords (ws.flatMap be32) = ws := by
  induction ws with
  | nil => rfl
  | cons v rest ih => simp [List.flatMap_cons, ih]

/-- A byte list holds one word for every four bytes. -/
theorem beWords_length (bs : List Byte) : (beWords bs).length = bs.length / 4 := by
  induction bs using beWords.induct with
  | case1 a b c d rest ih => simp only [beWords, List.length_cons, ih]; omega
  | case2 bs h =>
    rcases bs with _ | ⟨a, _ | ⟨b, _ | ⟨c, _ | ⟨d, rest⟩⟩⟩⟩ <;> simp [beWords]
    exact (h a b c d rest rfl).elim

/-- Writing out the words of a byte list of whole words gives the list. -/
theorem flatMap_be32_beWords (bs : List Byte) (h : bs.length % 4 = 0) :
    (beWords bs).flatMap be32 = bs := by
  induction bs using beWords.induct with
  | case1 a b c d rest ih =>
    simp only [List.length_cons] at h
    simp [beWords, be32_beWord, ih (by omega)]
  | case2 bs hn =>
    rcases bs with _ | ⟨a, _ | ⟨b, _ | ⟨c, _ | ⟨d, rest⟩⟩⟩⟩
    · rfl
    · simp at h
    · simp at h
    · simp at h
    · exact (hn a b c d rest rfl).elim

/-- The sum by halves is the sum over the range. -/
theorem sumPow_eq_sum (f : Nat → Nat) (k base : Nat) :
    sumPow f k base = ∑ p ∈ Finset.range (2 ^ k), f (base + p) := by
  induction k generalizing base with
  | zero => simp [sumPow]
  | succ k ih =>
    rw [sumPow, ih, ih, pow_succ, Nat.mul_two, Finset.sum_range_add]
    simp [Nat.add_assoc]

/-- A sum by halves depends on the values of its range only. -/
theorem sumPow_congr {f g : Nat → Nat} {k base : Nat}
    (h : ∀ p, base ≤ p → p < base + 2 ^ k → f p = g p) : sumPow f k base = sumPow g k base := by
  rw [sumPow_eq_sum, sumPow_eq_sum]
  exact Finset.sum_congr rfl fun p hp => h _ (by omega) (by simpa using hp)

/-- `clz32` counts at most 32, and 32 for 0 only. -/
theorem clz32_le (v : Word) : clz32 v ≤ 32 := by
  unfold clz32
  split <;> omega

/-- The bit below the leading zeros is 1 (R10). -/
theorem clz32_bit {v : Word} (h : v ≠ 0) :
    clz32 v ≤ 31 ∧ 2 ^ (31 - clz32 v) ≤ v.toNat ∧ v.toNat < 2 ^ (32 - clz32 v) := by
  have hv : v.toNat ≠ 0 := by
    intro e
    exact h (BitVec.eq_of_toNat_eq (by simpa using e))
  have hl : v.toNat.log2 < 32 := (Nat.log2_lt hv).2 v.isLt
  have e1 : 31 - (31 - v.toNat.log2) = v.toNat.log2 := by omega
  have e2 : 32 - (31 - v.toNat.log2) = v.toNat.log2 + 1 := by omega
  simp only [clz32, h, if_false]
  refine ⟨by omega, ?_, ?_⟩
  · rw [e1]; exact Nat.log2_self_le hv
  · rw [e2]; exact Nat.lt_log2_self

end Sys2Proof.Machine
end

