-- ==== Sys2Proof/Laws/State.lean ====
section
/-! SUPPORT. One lemma for each field of State under each update, so that no proof unfolds a record
update; what the views of the state read after an update; and the small facts of `Answered` and
`SameEngine`. -/

namespace Sys2Proof.Machine

@[simp] theorem State.withRa_configured (s : State) (m : Memory) : (s.withRa m).configured = s.configured := rfl
@[simp] theorem State.withRa_log2m (s : State) (m : Memory) : (s.withRa m).log2m = s.log2m := rfl
@[simp] theorem State.withRa_ra (s : State) (m : Memory) : (s.withRa m).ra = m := rfl
@[simp] theorem State.withRa_params (s : State) (m : Memory) : (s.withRa m).params = s.params := rfl
@[simp] theorem State.withRa_requests (s : State) (m : Memory) : (s.withRa m).requests = s.requests := rfl
@[simp] theorem State.withRa_responses (s : State) (m : Memory) : (s.withRa m).responses = s.responses := rfl
@[simp] theorem State.withRa_draws (s : State) (m : Memory) : (s.withRa m).draws = s.draws := rfl

@[simp] theorem State.withConfig_configured (s : State) (n : BitVec 5) : (s.withConfig n).configured = true := rfl
@[simp] theorem State.withConfig_log2m (s : State) (n : BitVec 5) : (s.withConfig n).log2m = n := rfl
@[simp] theorem State.withConfig_ra (s : State) (n : BitVec 5) : (s.withConfig n).ra = s.ra := rfl
@[simp] theorem State.withConfig_params (s : State) (n : BitVec 5) : (s.withConfig n).params = s.params := rfl
@[simp] theorem State.withConfig_requests (s : State) (n : BitVec 5) : (s.withConfig n).requests = s.requests := rfl
@[simp] theorem State.withConfig_responses (s : State) (n : BitVec 5) : (s.withConfig n).responses = s.responses := rfl
@[simp] theorem State.withConfig_draws (s : State) (n : BitVec 5) : (s.withConfig n).draws = s.draws := rfl

@[simp] theorem State.respond_configured (s : State) (st : Word) (rs : List Byte) : (s.respond st rs).configured = s.configured := rfl
@[simp] theorem State.respond_log2m (s : State) (st : Word) (rs : List Byte) : (s.respond st rs).log2m = s.log2m := rfl
@[simp] theorem State.respond_ra (s : State) (st : Word) (rs : List Byte) : (s.respond st rs).ra = s.ra := rfl
@[simp] theorem State.respond_params (s : State) (st : Word) (rs : List Byte) : (s.respond st rs).params = s.params := rfl
@[simp] theorem State.respond_requests (s : State) (st : Word) (rs : List Byte) : (s.respond st rs).requests = s.requests.tail := rfl
@[simp] theorem State.respond_responses (s : State) (st : Word) (rs : List Byte) : (s.respond st rs).responses = s.responses ++ [⟨st, rs⟩] := rfl
@[simp] theorem State.respond_draws (s : State) (st : Word) (rs : List Byte) : (s.respond st rs).draws = s.draws := rfl

@[simp] theorem State.withRa_count (s : State) (m : Memory) : (s.withRa m).count = s.count := rfl
@[simp] theorem State.withRa_size (s : State) (m : Memory) : (s.withRa m).size = s.size := rfl
@[simp] theorem State.withRa_illegalMask (s : State) (m : Memory) : (s.withRa m).illegalMask = s.illegalMask := rfl
@[simp] theorem State.respond_count (s : State) (st : Word) (rs : List Byte) : (s.respond st rs).count = s.count := rfl
@[simp] theorem State.respond_size (s : State) (st : Word) (rs : List Byte) : (s.respond st rs).size = s.size := rfl
@[simp] theorem State.respond_illegalMask (s : State) (st : Word) (rs : List Byte) : (s.respond st rs).illegalMask = s.illegalMask := rfl
@[simp] theorem State.respond_reg (s : State) (st : Word) (rs : List Byte) :
    (s.respond st rs).reg = s.reg := rfl
@[simp] theorem State.withRa_reg (s : State) (m : Memory) (p : Nat) :
    (s.withRa m).reg p = readReg s.params.fieldShift m p := rfl
@[simp] theorem State.withConfig_count (s : State) (n : BitVec 5) :
    (s.withConfig n).count = countOf n.toNat := rfl
@[simp] theorem State.withConfig_size (s : State) (n : BitVec 5) :
    (s.withConfig n).size = sizeWords n.toNat := rfl

@[simp] theorem State.reset_configured : State.reset.configured = false := rfl
@[simp] theorem State.reset_log2m : State.reset.log2m = 0 := rfl
@[simp] theorem State.reset_ra : State.reset.ra = [] := rfl
@[simp] theorem State.reset_params : State.reset.params = defaultParams := rfl
@[simp] theorem State.reset_requests : State.reset.requests = [] := rfl
@[simp] theorem State.reset_responses : State.reset.responses = [] := rfl
@[simp] theorem State.reset_draws : State.reset.draws = 0 := rfl

/-- The payload read from a state whose head request is a transaction. -/
theorem State.pay_of_requests {s : State} {t : Txn} {rest : List Request}
    (h : s.requests = .txn t :: rest) : s.pay = t.pay := by
  simp [State.pay, h]

theorem SameEngine.refl (s : State) : SameEngine s s := ⟨rfl, rfl, rfl, rfl, rfl⟩

theorem SameEngine.trans {s t u : State} (h : SameEngine s t) (k : SameEngine t u) :
    SameEngine s u := by
  obtain ⟨h1, h2, h3, h4, h5⟩ := h
  obtain ⟨k1, k2, k3, k4, k5⟩ := k
  exact ⟨k1.trans h1, k2.trans h2, k3.trans h3, k4.trans h4, k5.trans h5⟩

theorem sameEngine_respond (s : State) (st : Word) (rs : List Byte) :
    SameEngine s (s.respond st rs) := ⟨rfl, rfl, rfl, rfl, rfl⟩

theorem answered_respond (s : State) (st : Word) (rs : List Byte) :
    Answered s (s.respond st rs) st rs := ⟨rfl, rfl⟩

/-- A state is the response to another when the engine is the same and it has been answered so. -/
theorem eq_respond_of_answered {s t : State} {st : Word} {rs : List Byte}
    (h : SameEngine s t) (k : Answered s t st rs) : t = s.respond st rs := by
  obtain ⟨c, l, r, p, q, o, d⟩ := t
  obtain ⟨h1, h2, h3, h4, h5⟩ := h
  obtain ⟨k1, k2⟩ := k
  simp only at h1 h2 h3 h4 h5 k1 k2
  subst h1 h2 h3 h4 h5 k1 k2
  rfl

end Sys2Proof.Machine
end

