-- ==== Sys2Proof/Laws/Checks.lean ====
section
/-! SUPPORT. Laws of the checks (Machine/Checks.lean): when each command passes all of them (R108,
R110), and the two things a checked command can do (R111). -/

namespace Sys2Proof.Machine

theorem runChecked_pass {i : Instr} {s : State} (h : firstError i s = none)
    (effect : State → State) : runChecked i s effect = .next (effect s) := by
  simp [runChecked, h]

theorem runChecked_fail {i : Instr} {s : State} {e : ECode} (h : firstError i s = some e)
    (effect : State → State) :
    runChecked i s effect = .next (s.respond (errorStatus e) []) := by
  simp [runChecked, h, raiseError]

/-- The checks in order, as one condition for none to fail (R110). -/
theorem firstError_eq_none (i : Instr) (s : State) :
    firstError i s = none ↔
      illegalOp i = false ∧ badLength i s = false ∧
        (needsConfig i = true → s.configured = true) ∧ badConfig i = false ∧
        badPosition i s = false ∧ badSize i s = false ∧ badBlob i s = false := by
  unfold firstError
  split_ifs <;> simp_all

/-- V as a log2m is legal in 4..16 exactly (R105; D4). -/
theorem log2mLegal_iff (v : RegVal) : log2mLegal v = true ↔ 4 ≤ v.toNat ∧ v.toNat ≤ 16 := by
  rw [log2mLegal, decide_eq_true_eq]
  rfl

theorem firstError_nop (s : State) : firstError .nop s = none ↔ s.pay = [] := by
  simp [firstError_eq_none, illegalOp, badLength, needsConfig, badConfig, badPosition, badSize,
    badBlob, plen, raggedBatch, positionOperand, blobOperand]

theorem firstError_config (v : RegVal) (s : State) :
    firstError (.config v) s = none ↔ s.pay = [] ∧ 4 ≤ v.toNat ∧ v.toNat ≤ 16 := by
  simp [firstError_eq_none, illegalOp, badLength, needsConfig, badConfig, badPosition, badSize,
    badBlob, plen, raggedBatch, positionOperand, blobOperand, log2mLegal_iff]

theorem firstError_clear (s : State) :
    firstError .clear s = none ↔ s.pay = [] ∧ s.configured = true := by
  simp [firstError_eq_none, illegalOp, badLength, needsConfig, badConfig, badPosition, badSize,
    badBlob, plen, raggedBatch, positionOperand, blobOperand]

theorem firstError_set (v : RegVal) (p : Nat) (s : State) :
    firstError (.set v p) s = none ↔ s.pay = [] ∧ s.configured = true ∧ p < s.count := by
  simp [firstError_eq_none, illegalOp, badLength, needsConfig, badConfig, badPosition, badSize,
    badBlob, plen, raggedBatch, positionOperand, blobOperand]

theorem firstError_get (p : Nat) (s : State) :
    firstError (.get p) s = none ↔ s.pay = [] ∧ s.configured = true ∧ p < s.count := by
  simp [firstError_eq_none, illegalOp, badLength, needsConfig, badConfig, badPosition, badSize,
    badBlob, plen, raggedBatch, positionOperand, blobOperand]

theorem firstError_updmax (v : RegVal) (p : Nat) (s : State) :
    firstError (.updmax v p) s = none ↔ s.pay = [] ∧ s.configured = true ∧ p < s.count := by
  simp [firstError_eq_none, illegalOp, badLength, needsConfig, badConfig, badPosition, badSize,
    badBlob, plen, raggedBatch, positionOperand, blobOperand]

theorem firstError_hashrank (s : State) :
    firstError .hashrank s = none ↔ s.pay.length = 4 ∧ s.configured = true := by
  simp [firstError_eq_none, illegalOp, badLength, needsConfig, badConfig, badPosition, badSize,
    badBlob, plen, raggedBatch, positionOperand, blobOperand]

theorem firstError_add (p : Nat) (s : State) :
    firstError (.add p) s = none ↔
      s.pay.length = p ∧ p % 4 = 0 ∧ s.configured = true := by
  simp [firstError_eq_none, illegalOp, badLength, needsConfig, badConfig, badPosition, badSize,
    badBlob, plen, raggedBatch, positionOperand, blobOperand, and_assoc]

theorem firstError_load (p : Nat) (s : State) :
    firstError (.load p) s = none ↔
      s.pay.length = p ∧ s.configured = true ∧ p = 4 * s.size ∧
        blobValid s.params.fieldShift s.count s.payWords = true := by
  simp [firstError_eq_none, illegalOp, badLength, needsConfig, badConfig, badPosition, badSize,
    badBlob, plen, raggedBatch, positionOperand, blobOperand]

theorem firstError_merge (p : Nat) (s : State) :
    firstError (.merge p) s = none ↔
      s.pay.length = p ∧ s.configured = true ∧ p = 4 * s.size ∧
        blobValid s.params.fieldShift s.count s.payWords = true := by
  simp [firstError_eq_none, illegalOp, badLength, needsConfig, badConfig, badPosition, badSize,
    badBlob, plen, raggedBatch, positionOperand, blobOperand]

theorem firstError_ser (s : State) :
    firstError .ser s = none ↔ s.pay = [] ∧ s.configured = true := by
  simp [firstError_eq_none, illegalOp, badLength, needsConfig, badConfig, badPosition, badSize,
    badBlob, plen, raggedBatch, positionOperand, blobOperand]

theorem firstError_estimate (s : State) :
    firstError .estimate s = none ↔ s.pay = [] ∧ s.configured = true := by
  simp [firstError_eq_none, illegalOp, badLength, needsConfig, badConfig, badPosition, badSize,
    badBlob, plen, raggedBatch, positionOperand, blobOperand]

theorem firstError_bytesneeded (v : RegVal) (s : State) :
    firstError (.bytesneeded v) s = none ↔ s.pay = [] := by
  simp [firstError_eq_none, illegalOp, badLength, needsConfig, badConfig, badPosition, badSize,
    badBlob, plen, raggedBatch, positionOperand, blobOperand]

theorem firstError_qcfg (s : State) : firstError .qcfg s = none ↔ s.pay = [] := by
  simp [firstError_eq_none, illegalOp, badLength, needsConfig, badConfig, badPosition, badSize,
    badBlob, plen, raggedBatch, positionOperand, blobOperand]

theorem firstError_illegalE (r : BitVec 28) (s : State) :
    firstError (.illegalE r) s = some .illegalOpcode := rfl

theorem firstError_illegalF (r : BitVec 28) (s : State) :
    firstError (.illegalF r) s = some .illegalOpcode := rfl

end Sys2Proof.Machine
end

