-- ==== Sys2Proof/Laws/Decode.lean ====
section
/-! SUPPORT. The fields of an encoded command word (Decode.lean). -/

namespace Sys2Proof

open Machine

theorem opcode_lt (i : Instr) : opcode i < 16 := by cases i <;> simp [opcode]

/-- A concatenation as a number (R8). -/
theorem append_toNat {m n : Nat} (x : BitVec m) (y : BitVec n) :
    (x ++ y).toNat = x.toNat * 2 ^ n + y.toNat := by
  rw [BitVec.toNat_append, Nat.shiftLeft_eq, Nat.mul_comm, Nat.two_pow_add_eq_or_of_lt y.isLt]

/-- The V and P fields as a number (R52). -/
theorem fieldBits_toNat (v : RegVal) {p : Nat} (h : p < 65536) :
    (fieldBits v p).toNat = v.toNat * 65536 + p := by
  rw [fieldBits, append_toNat, append_toNat]
  simp
  omega

/-- The command word of a command as a number (R52). -/
theorem encode_toNat (i : Instr) :
    (encode i).toNat = opcode i * 2 ^ 28 + (operandBits i).toNat := by
  rw [encode, append_toNat, BitVec.toNat_ofNat, Nat.mod_eq_of_lt (opcode_lt i)]

/-- OP of a command's word (R55). -/
theorem opField_encode (i : Instr) : opField (encode i) = opcode i := by
  have h1 := (operandBits i).isLt
  have h2 := opcode_lt i
  rw [opField, encode_toNat i, slice]
  norm_num at h1 ⊢
  omega

/-- P of a command's word (R52). -/
theorem pField_encode (i : Instr) : pField (encode i) = (operandBits i).toNat % 65536 := by
  rw [pField, encode_toNat i, slice]
  norm_num
  omega

/-- V of a command's word (R52). -/
theorem vField_encode (i : Instr) :
    vField (encode i) = BitVec.ofNat 5 ((operandBits i).toNat / 65536 % 32) := by
  rw [vField, encode_toNat i, slice]
  congr 1
  norm_num
  omega

/-- RSV of a command's word (R52). -/
theorem rsvField_encode (i : Instr) : rsvField (encode i) = (operandBits i).toNat / 2 ^ 21 := by
  have h1 := (operandBits i).isLt
  rw [rsvField, encode_toNat i, slice]
  norm_num at h1 ⊢
  omega

/-- The bits below OP of a command's word (R58). -/
theorem restField_encode (i : Instr) : restField (encode i) = operandBits i := by
  apply BitVec.eq_of_toNat_eq
  have h1 := (operandBits i).isLt
  rw [restField, encode_toNat i, slice, BitVec.toNat_ofNat]
  norm_num at h1 ⊢
  omega

/-- The fields of a command's word that carries V and P (R52). -/
theorem fields_of_fieldBits {i : Instr} {v : RegVal} {p : Nat}
    (h : operandBits i = fieldBits v p) (hp : p < 65536) :
    rsvField (encode i) = 0 ∧ vField (encode i) = v ∧ pField (encode i) = p := by
  have hv := v.isLt
  rw [rsvField_encode, vField_encode, pField_encode, h, fieldBits_toNat v hp]
  refine ⟨by omega, ?_, by omega⟩
  apply BitVec.eq_of_toNat_eq
  rw [BitVec.toNat_ofNat]
  omega

theorem opField_lt (cw : Word) : opField cw < 16 := slice_lt _ _ _

theorem pField_lt (cw : Word) : pField cw < 65536 := slice_lt _ _ _

/-- A word is its OP and the bits below. -/
theorem word_of_rest (cw : Word) : BitVec.ofNat 4 (opField cw) ++ restField cw = cw := by
  apply BitVec.eq_of_toNat_eq
  have h := cw.isLt
  rw [append_toNat, restField, opField, BitVec.toNat_ofNat, BitVec.toNat_ofNat, slice, slice]
  norm_num at h ⊢
  omega

/-- A word whose RSV is 0 is its OP, V and P (R52). -/
theorem word_of_fields {cw : Word} (h : rsvField cw = 0) :
    BitVec.ofNat 4 (opField cw) ++ fieldBits (vField cw) (pField cw) = cw := by
  apply BitVec.eq_of_toNat_eq
  have hc := cw.isLt
  have hp := pField_lt cw
  rw [append_toNat, fieldBits_toNat _ hp, vField, BitVec.toNat_ofNat, BitVec.toNat_ofNat]
  rw [opField, pField]
  rw [rsvField] at h
  simp only [slice] at h ⊢
  norm_num at h hc ⊢
  omega

/-- Bytes as a port carries them read back as the word (R34). -/
theorem decodeBytes_be32 (cw : Word) (rest : List Byte) :
    decodeBytes (be32 cw ++ rest) =
      match decode cw with
      | .ok i => .ok (i, rest)
      | .error r => .error r := by
  cases h : decode cw <;>
    simp only [be32, List.cons_append, List.nil_append, decodeBytes, beWord_bytes, h]

end Sys2Proof
end

