-- ==== Sys2Proof/Laws/Estimator.lean ====
section
/-! SUPPORT. The parts of the estimator: its sums, its branches, and what each branch answers (R92,
R93, R95 to R98). -/

namespace Sys2Proof.Machine

/-- S as a sum over the registers p < COUNT (R92, R103). -/
theorem registerSumInt_eq (n : Nat) (x : Nat → RegVal) :
    registerSumInt n x = ∑ p ∈ Finset.range (countOf n), 2 ^ (31 - (x p).toNat) := by
  rw [registerSumInt, sumPow_eq_sum]
  simp [countOf]

/-- zeros as a number of registers p < COUNT (R93, R103). -/
theorem zerosCount_eq (n : Nat) (x : Nat → RegVal) :
    zerosCount n x = ((Finset.range (countOf n)).filter fun p => x p = 0).card := by
  rw [zerosCount, sumPow_eq_sum, Finset.card_filter]
  simp [countOf]

/-- The path is the branch that R95 selects. -/
theorem estimateOf_path (c : LnChoice) (n sum zeros : Nat) :
    (estimateOf c n sum zeros).1 = estimatePath n zeros (rawEstimate n sum) := rfl

theorem estimateOf_linear {c : LnChoice} {n sum zeros : Nat}
    (h : estimatePath n zeros (rawEstimate n sum) = .linear) :
    (estimateOf c n sum zeros).2 = linearCounting c n zeros := by
  simp only [estimateOf, if_pos h]

theorem estimateOf_raw {c : LnChoice} {n sum zeros : Nat}
    (h : estimatePath n zeros (rawEstimate n sum) ≠ .linear) :
    (estimateOf c n sum zeros).2 = roundHalfUp (rawEstimate n sum) := by
  simp only [estimateOf, if_neg h]

/-- An ESTIMATE that is answered 0 names a branch (R59). -/
theorem estimatePath_ne_none (n zeros : Nat) (raw : B64) : estimatePath n zeros raw ≠ .none := by
  unfold estimatePath
  split <;> [split; skip] <;> simp

/-- An answer of LN64 is a value that R96 admits (log entry 6). -/
theorem ln64_admitted (c : LnChoice) (q : B64) : lnAdmitted (ln64 c q) = true := by
  have h (y : B64) : lnAdmitted (admitLn y) = true := by
    unfold admitLn
    split
    · assumption
    · rfl
  unfold ln64
  split
  · rfl
  · cases c
    · exact h _
    · exact h _

end Sys2Proof.Machine
end

