-- ==== Sys2Proof/Laws/Exec.lean ====
section
/-! SUPPORT. What `exec`, `step` and a run can do, said once: a command either fails its first check
that fails and is answered so, or has its effect; a step takes a request, and never stops. -/

namespace Sys2Proof.Machine

/-- The checks look at the configuration, the layout and the payload only (R110). -/
theorem firstError_congr {i : Instr} {s u : State} (h : SameEngine s u) (hp : u.pay = s.pay) :
    firstError i u = firstError i s := by
  obtain ⟨h1, h2, -, h4, -⟩ := h
  have e3 : badLength i u = badLength i s := by rw [badLength, badLength, hp]
  have e6 : badPosition i u = badPosition i s := by
    unfold badPosition State.count
    rw [h2]
  have e7 : badSize i u = badSize i s := by
    unfold badSize State.size
    rw [h2]
  have e8 : badBlob i u = badBlob i s := by
    unfold badBlob State.payWords State.count
    rw [h2, h4, hp]
  rw [firstError, firstError, e3, e6, e7, e8, h1]

/-- The effect of a command whose checks have all passed. -/
def effectOf (i : Instr) (s : State) : State :=
  match i with
  | .nop => s.respond okStatus []
  | .config v => ((s.withConfig v).withRa []).respond okStatus []
  | .clear => (s.withRa (s.ra.clearBelow s.size)).respond okStatus []
  | .set v p => (s.withRa (writeReg s.params.fieldShift s.ra p v)).respond okStatus []
  | .get p => s.respond okStatus (be32 ((s.reg p).setWidth 32))
  | .updmax v p =>
    (s.withRa (raiseReg s.params.fieldShift s.ra p v).1).respond
      (updatedStatus (raiseReg s.params.fieldShift s.ra p v).2) []
  | .hashrank => s.respond okStatus (be32 (hashRankWord s.log2m.toNat s.payHash))
  | .add _ =>
    (s.withRa (raiseAll s.params.fieldShift (batchPairs s.log2m.toNat s.payWords) s.ra).1).respond
      (updatedStatus
        (raiseAll s.params.fieldShift (batchPairs s.log2m.toNat s.payWords) s.ra).2) []
  | .load _ => (s.withRa (s.ra.store s.payWords)).respond okStatus []
  | .merge _ =>
    (s.withRa (raiseAll s.params.fieldShift
        (blobRegs s.params.fieldShift s.count s.payWords) s.ra).1).respond
      (updatedStatus (raiseAll s.params.fieldShift
        (blobRegs s.params.fieldShift s.count s.payWords) s.ra).2) []
  | .ser => s.respond okStatus (blobBytes s.ra s.size)
  | .estimate => s.respond (epathStatus s.estimate.1) (be64 (BitVec.ofNat 64 s.estimate.2))
  | .bytesneeded v => s.respond okStatus (be32 (BitVec.ofNat 32 (bytesNeeded v.toNat)))
  | .qcfg => s.respond okStatus (be32 (cfgWord s))
  | .illegalE _ => s
  | .illegalF _ => s

/-- A command with no failing check has its effect (R14, R110). -/
theorem exec_pass {i : Instr} {s : State} (h : firstError i s = none) :
    exec i s = .next (effectOf i s) := by
  cases i <;> simp only [exec, execNop, execConfig, execClear, execSet, execGet, execUpdmax,
    execHashrank, execAdd, execLoad, execMerge, execSer, execEstimate, execBytesneeded, execQcfg,
    execIllegalE, execIllegalF] <;>
    rw [runChecked_pass h] <;> rfl

/-- A command with a failing check is answered the first, and does nothing else (R110, R111). -/
theorem exec_fail {i : Instr} {s : State} {e : ECode} (h : firstError i s = some e) :
    exec i s = .next (s.respond (errorStatus e) []) := by
  cases i <;> simp only [exec, execNop, execConfig, execClear, execSet, execGet, execUpdmax,
    execHashrank, execAdd, execLoad, execMerge, execSer, execEstimate, execBytesneeded, execQcfg,
    execIllegalE, execIllegalF] <;>
    rw [runChecked_fail h]

/-- The two things a command can do. -/
theorem exec_cases {i : Instr} {s t : State} (h : exec i s = .next t) :
    (∃ e, firstError i s = some e ∧ t = s.respond (errorStatus e) []) ∨
      firstError i s = none ∧ t = effectOf i s := by
  cases he : firstError i s with
  | none =>
    rw [exec_pass he] at h
    exact .inr ⟨rfl, by cases h; rfl⟩
  | some e =>
    rw [exec_fail he] at h
    exact .inl ⟨e, rfl, by cases h; rfl⟩

/-- A command always answers a next state (R125). -/
theorem exec_next (i : Instr) (s : State) : ∃ t, exec i s = .next t := by
  cases h : firstError i s with
  | none => exact ⟨_, exec_pass h⟩
  | some e => exact ⟨_, exec_fail h⟩

theorem step_idle {s : State} (h : s.requests = []) : step s = .next s := by
  simp [step, h, waitForRequest]

theorem step_reset {s : State} {c : Option Txn} {rest : List Request}
    (h : s.requests = .reset c :: rest) : step s = takeReset s := by
  simp [step, h]

theorem step_command {s : State} {x : Txn} {rest : List Request} {i : Instr}
    (h : s.requests = .txn x :: rest) (d : decode x.cw = .ok i) : step s = exec i s := by
  simp [step, h, d]

theorem step_reject {s : State} {x : Txn} {rest : List Request} {r : Reject}
    (h : s.requests = .txn x :: rest) (d : decode x.cw = .error r) :
    step s = .next (s.respond (errorStatus .reservedField) []) := by
  simp [step, h, d, rejectWord, raiseError]

/-- Everything a step can do (R15, R45, R58, R120, R121). -/
theorem step_cases {s t : State} (h : step s = .next t) :
    (s.requests = [] ∧ t = s) ∨
    (∃ c rest, s.requests = .reset c :: rest ∧ takeReset s = .next t) ∨
    ∃ x rest, s.requests = .txn x :: rest ∧
      ((∃ r, decode x.cw = .error r ∧ t = s.respond (errorStatus .reservedField) []) ∨
        ∃ i, decode x.cw = .ok i ∧ exec i s = .next t) := by
  rcases hr : s.requests with _ | ⟨_ | _, rest⟩
  · rw [step_idle hr] at h
    exact .inl ⟨rfl, by cases h; rfl⟩
  · rename_i x
    cases d : decode x.cw with
    | ok i =>
      rw [step_command hr d] at h
      exact .inr (.inr ⟨x, rest, rfl, .inr ⟨i, d, h⟩⟩)
    | error r =>
      rw [step_reject hr d] at h
      exact .inr (.inr ⟨x, rest, rfl, .inl ⟨r, d, by cases h; rfl⟩⟩)
  · rename_i c
    rw [step_reset hr] at h
    exact .inr (.inl ⟨c, rest, rfl, h⟩)

/-- A step never stops (R125). -/
theorem step_next (s : State) : ∃ t, step s = .next t := by
  rcases hr : s.requests with _ | ⟨_ | _, rest⟩
  · exact ⟨_, step_idle hr⟩
  · rename_i x
    cases d : decode x.cw with
    | ok i =>
      rw [step_command hr d]
      exact exec_next i s
    | error r => exact ⟨_, step_reject hr d⟩
  · exact ⟨_, step_reset hr⟩

@[simp] theorem runFor_zero (s : State) : runFor 0 s = s := rfl

theorem runFor_succ {s t : State} (k : Nat) (h : step s = .next t) :
    runFor (k + 1) s = runFor k t := by
  simp [runFor, h]

end Sys2Proof.Machine
end

