-- ==== Sys2Proof/Laws/Memory.lean ====
section
/-! SUPPORT. Laws of the word space (Machine/Ops.lean): what is read after each operation, that each
operation keeps the one form of the list, and that two arrays in that form which read alike are
equal. -/

namespace Sys2Proof.Machine

/-- The form, as two facts. -/
theorem Memory.wf_iff (m : Memory) :
    m.wf = true ↔
      m.Pairwise (fun c d => c.1 < d.1) ∧ ∀ c ∈ m, c.1 < numWordsMax ∧ c.2 ≠ 0 := by
  simp [Memory.wf, List.all_eq_true]

/-- The form of a list, from its head and its tail. -/
theorem Memory.wf_cons (a : Nat) (u : Word) (m : Memory) :
    Memory.wf ((a, u) :: m) = true ↔
      a < numWordsMax ∧ u ≠ 0 ∧ (∀ c ∈ m, a < c.1) ∧ m.wf = true := by
  simp only [Memory.wf_iff, List.pairwise_cons, List.forall_mem_cons]
  tauto

@[simp] theorem Memory.wf_nil : Memory.wf [] = true := rfl

@[simp] theorem Memory.read_nil (w : Nat) : Memory.read [] w = 0 := rfl

/-- A word below every listed index is 0. -/
theorem Memory.read_below {m : Memory} {w : Nat} (h : ∀ c ∈ m, w < c.1) : m.read w = 0 := by
  cases m with
  | nil => rfl
  | cons c m =>
    have := h c (by simp)
    simp [Memory.read, this]

/-- In the form, a listed word is what is read at its index. -/
theorem Memory.read_of_mem {m : Memory} (hm : m.wf = true) {w : Nat} {v : Word}
    (h : (w, v) ∈ m) : m.read w = v := by
  induction m with
  | nil => simp at h
  | cons c m ih =>
    obtain ⟨a, u⟩ := c
    obtain ⟨_, _, hlt, hwf⟩ := (Memory.wf_cons a u m).1 hm
    rcases List.mem_cons.1 h with e | e
    · obtain ⟨rfl, rfl⟩ := Prod.mk.inj e
      simp [Memory.read]
    · have := hlt _ e
      simp only [Memory.read]
      rw [if_neg (by omega), if_neg (by omega)]
      exact ih hwf e

/-- In the form, a word that is not 0 is listed. -/
theorem Memory.mem_of_read {m : Memory} {w : Nat} (h : m.read w ≠ 0) : (w, m.read w) ∈ m := by
  induction m with
  | nil => simp at h
  | cons c m ih =>
    obtain ⟨a, u⟩ := c
    simp only [Memory.read] at h ⊢
    split at h
    · exact (h rfl).elim
    · rename_i h1
      rw [if_neg h1]
      split at h
      · rename_i h2
        rw [if_pos h2, h2]
        exact List.mem_cons_self
      · rename_i h2
        rw [if_neg h2]
        exact List.mem_cons_of_mem _ (ih h)

/-- A word outside the array is 0. -/
theorem Memory.read_outside {m : Memory} (hm : m.wf = true) {w : Nat} (h : numWordsMax ≤ w) :
    m.read w = 0 := by
  by_contra hne
  have := ((Memory.wf_iff m).1 hm).2 _ (Memory.mem_of_read hne)
  simp only at this
  omega

/-- Two arrays in the form that read alike are equal. -/
theorem Memory.ext {m n : Memory} (hm : m.wf = true) (hn : n.wf = true)
    (h : ∀ w, m.read w = n.read w) : m = n := by
  induction m generalizing n with
  | nil =>
    cases n with
    | nil => rfl
    | cons c n =>
      obtain ⟨a, u⟩ := c
      have h1 := h a
      rw [Memory.read_of_mem hn List.mem_cons_self] at h1
      exact (((Memory.wf_cons a u n).1 hn).2.1 h1.symm).elim
  | cons c m ih =>
    obtain ⟨a, u⟩ := c
    obtain ⟨_, hu, hlt, hwf⟩ := (Memory.wf_cons a u m).1 hm
    cases n with
    | nil =>
      have h1 := h a
      rw [Memory.read_of_mem hm List.mem_cons_self] at h1
      exact (hu h1).elim
    | cons d n =>
      obtain ⟨b, v⟩ := d
      obtain ⟨_, hv, hlt', hwf'⟩ := (Memory.wf_cons b v n).1 hn
      have h1 := h a
      have h2 := h b
      rw [Memory.read_of_mem hm List.mem_cons_self] at h1
      rw [Memory.read_of_mem hn List.mem_cons_self] at h2
      have hab : a = b := by
        rcases Nat.lt_trichotomy a b with hlt2 | rfl | hlt2
        · simp [Memory.read, hlt2] at h1
          exact (hu h1).elim
        · rfl
        · simp [Memory.read, hlt2] at h2
          exact (hv h2.symm).elim
      subst hab
      have huv : u = v := by simpa [Memory.read] using h1
      subst huv
      congr 1
      refine ih hwf hwf' fun w => ?_
      rcases Nat.lt_or_ge a w with hw | hw
      · have h3 := h w
        simp only [Memory.read] at h3
        rwa [if_neg (by omega), if_neg (by omega), if_neg (by omega), if_neg (by omega)] at h3
      · rw [Memory.read_below (m := m) fun c hc => lt_of_le_of_lt hw (hlt c hc),
          Memory.read_below (m := n) fun c hc => lt_of_le_of_lt hw (hlt' c hc)]

/-- What is read after a write. -/
theorem Memory.read_write {m : Memory} (hm : m.wf = true) (w : Nat) (v : Word) (x : Nat) :
    (m.write w v).read x = if x = w then v else m.read x := by
  induction m with
  | nil =>
    by_cases hv : v = 0
    · simp [Memory.write, hv]
    · simp only [Memory.write, if_neg hv, Memory.read]
      split
      · rw [if_neg (by omega)]
      · rfl
  | cons c m ih =>
    obtain ⟨a, u⟩ := c
    obtain ⟨_, hu, hlt, hwf⟩ := (Memory.wf_cons a u m).1 hm
    have ih := ih hwf
    simp only [Memory.write]
    by_cases h1 : w < a
    · rw [if_pos h1]
      by_cases hv : v = 0
      · rw [if_pos hv]
        split
        · subst x; subst v
          simp [Memory.read, h1]
        · rfl
      · rw [if_neg hv]
        simp only [Memory.read]
        by_cases hx : x < w
        · rw [if_pos hx, if_neg (by omega), if_pos (by omega)]
        · rw [if_neg hx]
    · rw [if_neg h1]
      by_cases h2 : w = a
      · subst h2
        rw [if_pos rfl]
        by_cases hv : v = 0
        · rw [if_pos hv]
          subst hv
          by_cases hx : x = w
          · subst x
            rw [if_pos rfl, Memory.read_below hlt]
          · rw [if_neg hx]
            simp only [Memory.read, if_neg hx]
            split
            · rw [Memory.read_below fun c hc => lt_trans (by omega) (hlt c hc)]
            · rfl
        · rw [if_neg hv]
          simp only [Memory.read]
          by_cases hx : x < w
          · rw [if_pos hx, if_neg (by omega), if_pos hx]
          · rw [if_neg hx]
            by_cases hx2 : x = w
            · simp [hx2]
            · simp [hx, hx2]
      · rw [if_neg h2]
        simp only [Memory.read]
        by_cases hx : x < a
        · rw [if_pos hx, if_neg (by omega), if_pos hx]
        · rw [if_neg hx]
          by_cases hx2 : x = a
          · rw [if_pos hx2, if_neg (by omega), if_neg hx, if_pos hx2]
          · rw [if_neg hx2, ih, if_neg hx, if_neg hx2]

/-- Every index a write lists was listed, or is the one written. -/
theorem Memory.mem_write {m : Memory} {w : Nat} {v : Word} {c : Nat × Word}
    (h : c ∈ m.write w v) : c ∈ m ∨ c = (w, v) ∧ v ≠ 0 := by
  induction m with
  | nil =>
    simp only [Memory.write] at h
    split at h
    · simp at h
    · simp at h
      right; exact ⟨h, by assumption⟩
  | cons d m ih =>
    obtain ⟨a, u⟩ := d
    simp only [Memory.write] at h
    split_ifs at h with h1 h2 h3 h4
    · exact .inl h
    · rcases List.mem_cons.1 h with e | e
      · exact .inr ⟨e, h2⟩
      · exact .inl e
    · exact .inl (List.mem_cons_of_mem _ h)
    · rcases List.mem_cons.1 h with e | e
      · exact .inr ⟨e, h4⟩
      · exact .inl (List.mem_cons_of_mem _ e)
    · rcases List.mem_cons.1 h with e | e
      · exact .inl (by simp [e])
      · rcases ih e with f | f
        · exact .inl (List.mem_cons_of_mem _ f)
        · exact .inr f

/-- A write within the array keeps the form. -/
theorem Memory.wf_write {m : Memory} (hm : m.wf = true) {w : Nat} (hw : w < numWordsMax)
    (v : Word) : (m.write w v).wf = true := by
  induction m with
  | nil =>
    simp only [Memory.write]
    split
    · rfl
    · rw [Memory.wf_cons]
      exact ⟨hw, by assumption, by simp, rfl⟩
  | cons d m ih =>
    obtain ⟨a, u⟩ := d
    have hm' := hm
    obtain ⟨ha, hu, hlt, hwf⟩ := (Memory.wf_cons a u m).1 hm
    simp only [Memory.write]
    split_ifs with h1 h2 h3 h4
    · exact hm'
    · rw [Memory.wf_cons]
      refine ⟨hw, h2, ?_, hm'⟩
      intro c hc
      rcases List.mem_cons.1 hc with e | e
      · simpa [e] using h1
      · exact lt_trans h1 (hlt c e)
    · exact hwf
    · rw [Memory.wf_cons]
      exact ⟨hw, h4, by simpa [h3] using hlt, hwf⟩
    · rw [Memory.wf_cons]
      refine ⟨ha, hu, ?_, ih hwf⟩
      intro c hc
      rcases Memory.mem_write hc with e | ⟨e, _⟩
      · exact hlt c e
      · subst e
        show a < w
        omega

/-- What is read after the words below `n` are cleared. -/
theorem Memory.read_clearBelow {m : Memory} (hm : m.wf = true) (n w : Nat) :
    (m.clearBelow n).read w = if w < n then 0 else m.read w := by
  induction m with
  | nil => simp [Memory.clearBelow]
  | cons c m ih =>
    obtain ⟨a, u⟩ := c
    obtain ⟨_, hu, hlt, hwf⟩ := (Memory.wf_cons a u m).1 hm
    have ih := ih hwf
    simp only [Memory.clearBelow, List.filter_cons] at ih ⊢
    by_cases hn : n ≤ a
    · simp only [hn, decide_true, if_true, Memory.read, ih]
      by_cases hw : w < n
      · simp [hw, lt_of_lt_of_le hw hn]
      · simp [hw]
    · simp only [hn, decide_false, Bool.false_eq_true, if_false, ih, Memory.read]
      by_cases hw : w < n
      · simp [hw]
      · rw [if_neg hw, if_neg hw, if_neg (by omega), if_neg (by omega)]

/-- Clearing keeps the form. -/
theorem Memory.wf_clearBelow {m : Memory} (hm : m.wf = true) (n : Nat) :
    (m.clearBelow n).wf = true := by
  rw [Memory.wf_iff] at hm ⊢
  exact ⟨hm.1.filter _, fun c hc => hm.2 c (List.mem_of_mem_filter hc)⟩

/-- The cells of a run of words lie in the run and hold its words. -/
theorem mem_wordCells {base : Nat} {ws : List Word} {c : Nat × Word}
    (h : c ∈ wordCells base ws) : base ≤ c.1 ∧ c.1 < base + ws.length ∧ c.2 ≠ 0 := by
  induction ws generalizing base with
  | nil => simp [wordCells] at h
  | cons v ws ih =>
    simp only [wordCells] at h
    split at h
    · have := ih h
      simp only [List.length_cons]
      exact ⟨by omega, by omega, this.2.2⟩
    · rcases List.mem_cons.1 h with e | e
      · subst e
        simp only [List.length_cons]
        exact ⟨le_refl _, by omega, by assumption⟩
      · have := ih e
        simp only [List.length_cons]
        exact ⟨by omega, by omega, this.2.2⟩

/-- The cells of a run of words are in the form. -/
theorem pairwise_wordCells (base : Nat) (ws : List Word) :
    (wordCells base ws).Pairwise (fun c d => c.1 < d.1) := by
  induction ws generalizing base with
  | nil => exact List.Pairwise.nil
  | cons v ws ih =>
    simp only [wordCells]
    split
    · exact ih _
    · rw [List.pairwise_cons]
      refine ⟨fun c hc => ?_, ih _⟩
      have := (mem_wordCells hc).1
      show base < c.1
      omega

/-- Storing words within the array keeps the form. -/
theorem Memory.wf_store {m : Memory} (hm : m.wf = true) {ws : List Word}
    (h : ws.length ≤ numWordsMax) : (m.store ws).wf = true := by
  have hc := (Memory.wf_iff _).1 (Memory.wf_clearBelow hm ws.length)
  rw [Memory.wf_iff]
  refine ⟨List.pairwise_append.2 ⟨pairwise_wordCells 0 ws, hc.1, ?_⟩, ?_⟩
  · intro c hcm d hd
    have h1 := (mem_wordCells hcm).2.1
    have h2 := (List.mem_filter.1 hd).2
    simp at h2
    omega
  · intro c hcm
    rcases List.mem_append.1 hcm with e | e
    · have := mem_wordCells e
      exact ⟨by omega, this.2.2⟩
    · exact hc.2 c e

/-- What is read after words are stored. -/
theorem Memory.read_store {m : Memory} (hm : m.wf = true) (ws : List Word) (w : Nat) :
    (m.store ws).read w = if w < ws.length then ws.getD w 0 else m.read w := by
  have key : ∀ (ws : List Word) (base : Nat) (n : Memory), (∀ c ∈ n, base + ws.length ≤ c.1) →
      (wordCells base ws ++ n).read w =
        if base ≤ w ∧ w < base + ws.length then ws.getD (w - base) 0 else n.read w := by
    intro ws
    induction ws with
    | nil =>
      intro base n hn
      rw [if_neg (by simp)]
      rfl
    | cons v ws ih =>
      intro base n hn
      have hn' : ∀ c ∈ n, base + 1 + ws.length ≤ c.1 := by
        intro c hc
        have := hn c hc
        simp only [List.length_cons] at this
        omega
      have ih := ih (base + 1) n hn'
      have below : w < base → n.read w = 0 := fun hw =>
        Memory.read_below fun c hc => by have := hn c hc; omega
      simp only [wordCells, List.length_cons]
      split
      · rename_i hv
        rw [ih]
        by_cases h1 : w = base
        · subst h1
          rw [if_neg (by omega), if_pos (by omega)]
          rw [Memory.read_below fun c hc => by have := hn' c hc; omega]
          simp [hv]
        · by_cases h2 : base + 1 ≤ w ∧ w < base + 1 + ws.length
          · rw [if_pos h2, if_pos (by omega)]
            obtain ⟨j, hj⟩ : ∃ j, w - base = j + 1 := ⟨w - base - 1, by omega⟩
            rw [hj, show w - (base + 1) = j by omega]
            rfl
          · rw [if_neg h2, if_neg (by omega)]
      · simp only [List.cons_append, Memory.read]
        by_cases h0 : w < base
        · rw [if_pos h0, if_neg (by omega), below h0]
        · rw [if_neg h0]
          by_cases h1 : w = base
          · subst h1
            rw [if_pos rfl, if_pos (by omega)]
            simp
          · rw [if_neg h1, ih]
            by_cases h2 : base + 1 ≤ w ∧ w < base + 1 + ws.length
            · rw [if_pos h2, if_pos (by omega)]
              obtain ⟨j, hj⟩ : ∃ j, w - base = j + 1 := ⟨w - base - 1, by omega⟩
              rw [hj, show w - (base + 1) = j by omega]
              rfl
            · rw [if_neg h2, if_neg (by omega)]
  rw [Memory.store, key ws 0 _ (fun c hc => by simpa using (List.mem_filter.1 hc).2)]
  simp only [Nat.zero_le, true_and, Nat.zero_add, Nat.sub_zero]
  split
  · rfl
  · rename_i h
    rw [Memory.read_clearBelow hm, if_neg h]

/-- The array that a reset leaves is in the form, whatever its words. -/
theorem wf_freeArray (n : Nat) : (freeArray n).wf = true :=
  Memory.wf_store Memory.wf_nil (by simp)

end Sys2Proof.Machine
end

