-- ==== Sys2Proof/Laws/Fields.lean ====
section
/-! SUPPORT. Laws of the slots of a word (Machine/Ops.lean) for every legal FIELD_SHIFT: bit by bit what
`getf`, `setf` and the masks are, that a slot written reads back and no other slot changes, and that a
word is its used slots when its illegal bits are 0. -/

namespace Sys2Proof.Machine

theorem defaultFieldShift_legal : defaultFieldShift.legal = true := by decide

/-- A legal layout puts every slot within bits 31:2 (D5). -/
theorem fieldShift_bounds {fs : FieldShift} (h : fs.legal = true) (k : Nat) :
    2 ≤ fieldShiftOf fs k ∧ fieldShiftOf fs k + 4 ≤ 31 := by
  simp only [FieldShift.legal, FieldShift.positions, Bool.and_eq_true, List.all_cons,
    decide_eq_true_eq] at h
  obtain ⟨⟨h0, h1, h2, h3, h4, h5, -⟩, -⟩ := h
  rcases k with _ | _ | _ | _ | _ | k <;> simp only [fieldShiftOf] <;> assumption

/-- A legal layout keeps the slots apart (D5). -/
theorem fieldShift_apart {fs : FieldShift} (h : fs.legal = true) {k l : Nat} (hk : k < 6)
    (hl : l < 6) (hne : k ≠ l) :
    fieldShiftOf fs k + 5 ≤ fieldShiftOf fs l ∨ fieldShiftOf fs l + 5 ≤ fieldShiftOf fs k := by
  rw [FieldShift.legal, Bool.and_eq_true, decide_eq_true_eq] at h
  simp only [FieldShift.positions, List.pairwise_cons, List.mem_cons, List.not_mem_nil, or_false,
    forall_eq_or_imp, forall_eq] at h
  obtain ⟨-, ⟨h01, h02, h03, h04, h05⟩, ⟨h12, h13, h14, h15⟩, ⟨h23, h24, h25⟩, ⟨h34, h35⟩,
    h45, -⟩ := h
  interval_cases k <;> interval_cases l <;> simp only [fieldShiftOf] <;>
    first | exact absurd rfl hne | assumption | exact Or.symm ‹_›

/-- The bits of a register's value (R73). -/
theorem getf_bit (fs : FieldShift) (w : Word) (k i : Nat) :
    (getf fs w k).getLsbD i = (decide (i < 5) && w.getLsbD (fieldShiftOf fs k + i)) := by
  simp [getf, BitVec.getLsbD_setWidth, BitVec.getLsbD_ushiftRight]

/-- The bits of a slot's mask (R39). -/
theorem slotMask_bit (fs : FieldShift) (k j : Nat) :
    (slotMask fs k).getLsbD j =
      decide (j < 32 ∧ fieldShiftOf fs k ≤ j ∧ j < fieldShiftOf fs k + 5) := by
  have h : ∀ i, (0x1F#32).getLsbD i = decide (i < 5) := by
    intro i
    by_cases hi : i < 32
    · interval_cases i <;> decide
    · rw [BitVec.getLsbD_of_ge _ _ (by omega)]
      simp; omega
  rw [slotMask, BitVec.getLsbD_shiftLeft, h, Bool.eq_iff_iff]
  simp only [Bool.and_eq_true, Bool.not_eq_true', decide_eq_true_eq, decide_eq_false_iff_not]
  omega

/-- The bits of a word after a slot is written (R74). -/
theorem setf_bit (fs : FieldShift) (w : Word) (k : Nat) (v : RegVal) {j : Nat} (hj : j < 32) :
    (setf fs w k v).getLsbD j =
      if fieldShiftOf fs k ≤ j ∧ j < fieldShiftOf fs k + 5 then
        v.getLsbD (j - fieldShiftOf fs k)
      else w.getLsbD j := by
  simp only [setf, BitVec.getLsbD_or, BitVec.getLsbD_and, BitVec.getLsbD_not, slotMask_bit,
    BitVec.getLsbD_shiftLeft, BitVec.getLsbD_setWidth, hj, decide_true, Bool.true_and]
  by_cases h1 : fieldShiftOf fs k ≤ j
  · by_cases h2 : j < fieldShiftOf fs k + 5
    · have : j - fieldShiftOf fs k < 32 := by omega
      simp [h1, h2, Nat.not_lt.2 h1, this]
    · have : v.getLsbD (j - fieldShiftOf fs k) = false :=
        BitVec.getLsbD_of_ge _ _ (by omega)
      simp [h1, h2, this]
  · simp [h1, Nat.lt_of_not_le h1]

/-- A slot written reads back (R73, R74). -/
theorem getf_setf_same {fs : FieldShift} (h : fs.legal = true) (w : Word) (k : Nat)
    (v : RegVal) : getf fs (setf fs w k v) k = v := by
  apply BitVec.eq_of_getLsbD_eq
  intro i hi
  have := fieldShift_bounds h k
  rw [getf_bit, setf_bit _ _ _ _ (by omega), if_pos (by omega)]
  simp [hi]

/-- No other slot changes (R74). -/
theorem getf_setf_other {fs : FieldShift} (h : fs.legal = true) (w : Word) {k l : Nat}
    (v : RegVal) (hk : k < 6) (hl : l < 6) (hne : l ≠ k) :
    getf fs (setf fs w k v) l = getf fs w l := by
  apply BitVec.eq_of_getLsbD_eq
  intro i hi
  have hb := fieldShift_bounds h l
  have hd := fieldShift_apart h hk hl (Ne.symm hne)
  rw [getf_bit, getf_bit, setf_bit _ _ _ _ (by omega), if_neg (by omega)]

/-- A slot written with the value it holds leaves the word. -/
theorem setf_getf (fs : FieldShift) (w : Word) (k : Nat) : setf fs w k (getf fs w k) = w := by
  apply BitVec.eq_of_getLsbD_eq
  intro j hj
  rw [setf_bit _ _ _ _ hj]
  split
  · rw [getf_bit, show fieldShiftOf fs k + (j - fieldShiftOf fs k) = j by omega]
    simp; omega
  · rfl

/-- The bits of a union of slot masks (R39). -/
theorem maskOf_bit (fs : FieldShift) (ks : List Nat) {j : Nat} (hj : j < 32) :
    (maskOf fs ks).getLsbD j = true ↔
      ∃ k ∈ ks, fieldShiftOf fs k ≤ j ∧ j < fieldShiftOf fs k + 5 := by
  induction ks with
  | nil => simp [maskOf]
  | cons k ks ih =>
    simp only [maskOf, List.foldr_cons] at ih ⊢
    rw [BitVec.getLsbD_or, Bool.or_eq_true, ih, slotMask_bit]
    simp [hj]

/-- The bits of a word that hold a register (R39). -/
theorem usedMask_bit (fs : FieldShift) (count w : Nat) {j : Nat} (hj : j < 32) :
    (usedMask fs count w).getLsbD j = true ↔
      ∃ k, k < 6 ∧ 6 * w + k < count ∧ fieldShiftOf fs k ≤ j ∧ j < fieldShiftOf fs k + 5 := by
  rw [usedMask, maskOf_bit fs _ hj]
  simp only [List.mem_filter, List.mem_range, decide_eq_true_eq, and_assoc]
  rfl

/-- The illegal bits of a word are 0 exactly when each of its 1 bits lies in a used slot (R39). -/
theorem and_illegalMask_eq_zero (fs : FieldShift) (count w : Nat) (v : Word) :
    v &&& illegalMask fs count w = 0 ↔
      ∀ j, j < 32 → v.getLsbD j = true → (usedMask fs count w).getLsbD j = true := by
  constructor
  · intro h j hj hv
    have := congrArg (fun x => BitVec.getLsbD x j) h
    simpa [illegalMask, hv, hj] using this
  · intro h
    apply BitVec.eq_of_getLsbD_eq
    intro j hj
    cases hv : v.getLsbD j with
    | false => simp [hv]
    | true => simp [illegalMask, hv, h j hj hv]

/-- Writing a slot that holds a register leaves the illegal bits 0. -/
theorem setf_illegal {fs : FieldShift} {count w k : Nat} {x : Word} (v : RegVal) (hk : k < 6)
    (hc : 6 * w + k < count) (hx : x &&& illegalMask fs count w = 0) :
    setf fs x k v &&& illegalMask fs count w = 0 := by
  rw [and_illegalMask_eq_zero] at hx ⊢
  intro j hj hv
  rw [setf_bit _ _ _ _ hj] at hv
  split at hv
  · rename_i h
    exact (usedMask_bit fs count w hj).2 ⟨k, hk, hc, h⟩
  · exact hx j hj hv

/-- Words whose illegal bits are 0 are equal when their used slots are (R39). -/
theorem word_ext {fs : FieldShift} {count w : Nat} {x y : Word}
    (hx : x &&& illegalMask fs count w = 0) (hy : y &&& illegalMask fs count w = 0)
    (h : ∀ k, k < 6 → 6 * w + k < count → getf fs x k = getf fs y k) : x = y := by
  rw [and_illegalMask_eq_zero] at hx hy
  have key : ∀ (a b : Word), (∀ j, j < 32 → a.getLsbD j = true →
      (usedMask fs count w).getLsbD j = true) →
      (∀ k, k < 6 → 6 * w + k < count → getf fs a k = getf fs b k) →
      ∀ j, j < 32 → a.getLsbD j = true → b.getLsbD j = true := by
    intro a b ha hab j hj haj
    obtain ⟨k, hk, hc, h1, h2⟩ := (usedMask_bit fs count w hj).1 (ha j hj haj)
    have := congrArg (fun r => BitVec.getLsbD r (j - fieldShiftOf fs k)) (hab k hk hc)
    simp only [getf_bit, show fieldShiftOf fs k + (j - fieldShiftOf fs k) = j by omega,
      haj] at this
    have h5 : j - fieldShiftOf fs k < 5 := by omega
    simpa [h5] using this.symm
  apply BitVec.eq_of_getLsbD_eq
  intro j hj
  rw [Bool.eq_iff_iff]
  exact ⟨key x y hx h j hj, key y x hy (fun k hk hc => (h k hk hc).symm) j hj⟩

end Sys2Proof.Machine
end

