-- ==== Sys2Proof/Laws/Flags.lean ====
section
/-! SUPPORT. The status word and its fields (R59, R107). -/

namespace Sys2Proof.Machine

theorem ecodeNumber_range (e : ECode) : 1 ≤ ecodeNumber e ∧ ecodeNumber e ≤ 8 := by
  cases e <;> decide

theorem epathNumber_lt (p : EPath) : epathNumber p < 4 := by cases p <;> decide

/-- The status word as a number: bits 31:7 are 0 (R59). -/
theorem statusWord_toNat {e : Nat} (he : e < 16) (u : Bool) (p : EPath) :
    (statusWord e u p).toNat = e + (if u then 16 else 0) + epathNumber p * 32 := by
  have hp := epathNumber_lt p
  rw [statusWord, BitVec.toNat_ofNat]
  split <;> omega

theorem statusECode_statusWord {e : Nat} (he : e < 16) (u : Bool) (p : EPath) :
    statusECode (statusWord e u p) = e := by
  simp only [statusECode, slice, statusWord_toNat he]
  split <;> omega

theorem statusUpdated_statusWord {e : Nat} (he : e < 16) (u : Bool) (p : EPath) :
    statusUpdated (statusWord e u p) = if u then 1 else 0 := by
  have hp := epathNumber_lt p
  simp only [statusUpdated, slice, statusWord_toNat he]
  split <;> omega

theorem statusEPath_statusWord {e : Nat} (he : e < 16) (u : Bool) (p : EPath) :
    statusEPath (statusWord e u p) = epathNumber p := by
  have hp := epathNumber_lt p
  simp only [statusEPath, slice, statusWord_toNat he]
  split <;> omega

/-- The status of a failed command is its code and nothing else (R111). -/
theorem errorStatus_eq (e : ECode) : errorStatus e = BitVec.ofNat 32 (ecodeNumber e) := by
  cases e <;> rfl

theorem statusECode_errorStatus (e : ECode) : statusECode (errorStatus e) = ecodeNumber e :=
  statusECode_statusWord (by have := ecodeNumber_range e; omega) _ _

theorem okStatus_eq : okStatus = 0#32 := rfl

theorem updatedStatus_eq (u : Bool) : updatedStatus u = if u then 0x10#32 else 0#32 := by
  cases u <;> rfl

theorem epathStatus_eq (p : EPath) : epathStatus p = BitVec.ofNat 32 (epathNumber p * 2 ^ 5) := by
  cases p <;> rfl

theorem Response.bytes_length (r : Response) : r.bytes.length = 4 + r.result.length := by
  simp [Response.bytes]

/-- The status word stands first in a response's bytes (R51). -/
theorem Response.bytes_take (r : Response) : r.bytes.take 4 = be32 r.status := by
  simp [Response.bytes, be32]

theorem Response.bytes_drop (r : Response) : r.bytes.drop 4 = r.result := by
  simp [Response.bytes, be32]

/-- The framing of bytes that begin with a status word (R57). -/
theorem frameResponse_be32 (op size : Nat) (status : Word) (more : List Byte) :
    frameResponse op size (be32 status ++ more) =
      if resultLength op size status ≤ more.length then
        some (⟨status, more.take (resultLength op size status)⟩,
          more.drop (resultLength op size status))
      else none := by
  simp only [be32, List.cons_append, List.nil_append, frameResponse, beWord_bytes]

/-- Fewer than the 4 bytes of a status word are no response (R57). -/
theorem frameResponse_short (op size : Nat) {bs : List Byte} (h : bs.length < 4) :
    frameResponse op size bs = none := by
  rcases bs with _ | ⟨a, _ | ⟨b, _ | ⟨c, _ | ⟨d, rest⟩⟩⟩⟩
  · rfl
  · rfl
  · rfl
  · rfl
  · simp only [List.length_cons] at h
    omega

end Sys2Proof.Machine
end

