-- ==== Sys2Proof/Laws/PerInstr.lean ====
section
/-! SUPPORT. The family OpcodeField: a command's word carries the opcode that R55 gives the command, and
its operands in the bits below; one lemma for each command. -/

namespace Sys2Proof.Laws.OpcodeField

/-- The word of `i` carries the opcode of R55 in its bits 31:28, and the operands below. -/
def Statement (i : Instr) : Prop :=
  opField (encode i) = opcode i ∧ restField (encode i) = operandBits i

theorem nop : Statement .nop := ⟨opField_encode _, restField_encode _⟩

theorem config (v : RegVal) : Statement (.config v) :=
  ⟨opField_encode _, restField_encode _⟩

theorem clear : Statement .clear := ⟨opField_encode _, restField_encode _⟩

theorem set (v : RegVal) (p : Nat) : Statement (.set v p) :=
  ⟨opField_encode _, restField_encode _⟩

theorem get (p : Nat) : Statement (.get p) :=
  ⟨opField_encode _, restField_encode _⟩

theorem updmax (v : RegVal) (p : Nat) : Statement (.updmax v p) :=
  ⟨opField_encode _, restField_encode _⟩

theorem hashrank : Statement .hashrank := ⟨opField_encode _, restField_encode _⟩

theorem add (p : Nat) : Statement (.add p) :=
  ⟨opField_encode _, restField_encode _⟩

theorem load (p : Nat) : Statement (.load p) :=
  ⟨opField_encode _, restField_encode _⟩

theorem merge (p : Nat) : Statement (.merge p) :=
  ⟨opField_encode _, restField_encode _⟩

theorem ser : Statement .ser := ⟨opField_encode _, restField_encode _⟩

theorem estimate : Statement .estimate := ⟨opField_encode _, restField_encode _⟩

theorem bytesneeded (v : RegVal) : Statement (.bytesneeded v) :=
  ⟨opField_encode _, restField_encode _⟩

theorem qcfg : Statement .qcfg := ⟨opField_encode _, restField_encode _⟩

theorem illegalE (rest : BitVec 28) : Statement (.illegalE rest) :=
  ⟨opField_encode _, restField_encode _⟩

theorem illegalF (rest : BitVec 28) : Statement (.illegalF rest) :=
  ⟨opField_encode _, restField_encode _⟩

end Sys2Proof.Laws.OpcodeField
end

