-- ==== Sys2Proof/Laws/Registers.lean ====
section
/-! SUPPORT. Laws of the registers (Machine/Ops.lean), in an array that is in its one form and for a
legal FIELD_SHIFT: a register written reads back and no other changes; everything that raising one
register, or a list of them, can do. -/

namespace Sys2Proof.Machine

theorem slotOf_lt (p : Nat) : slotOf p < 6 := Nat.mod_lt _ (by decide)

theorem word_slot (p : Nat) : 6 * wordOf p + slotOf p = p := Nat.div_add_mod p 6

theorem eq_of_word_slot {p q : Nat} (h : wordOf p = wordOf q) (k : slotOf p = slotOf q) :
    p = q := by
  rw [← word_slot p, ← word_slot q, h, k]

/-- Register `6w + k` is slot `k` of word `w` (R16). -/
theorem wordOf_slotOf (w k : Nat) (hk : k < 6) :
    wordOf (6 * w + k) = w ∧ slotOf (6 * w + k) = k := by
  simp only [wordOf, slotOf, slots]
  omega

/-- What is read at a word after a register is written: the other words are unchanged. -/
theorem read_writeReg (fs : FieldShift) {m : Memory} (hm : m.wf = true) (p : Nat) (v : RegVal)
    (w : Nat) :
    (writeReg fs m p v).read w =
      if w = wordOf p then setf fs (m.read (wordOf p)) (slotOf p) v else m.read w :=
  Memory.read_write hm _ _ _

/-- A register written within the array keeps the form. -/
theorem wf_writeReg (fs : FieldShift) {m : Memory} (hm : m.wf = true) {p : Nat}
    (hp : wordOf p < numWordsMax) (v : RegVal) : (writeReg fs m p v).wf = true :=
  Memory.wf_write hm hp _

/-- A register written reads back, and every other register is unchanged (R16, R74). -/
theorem readReg_writeReg {fs : FieldShift} (hl : fs.legal = true) {m : Memory}
    (hm : m.wf = true) (p : Nat) (v : RegVal) (q : Nat) :
    readReg fs (writeReg fs m p v) q = if q = p then v else readReg fs m q := by
  unfold readReg
  rw [read_writeReg fs hm]
  by_cases hw : wordOf q = wordOf p
  · rw [if_pos hw]
    by_cases hs : slotOf q = slotOf p
    · rw [if_pos (eq_of_word_slot hw hs), hs, getf_setf_same hl]
    · rw [if_neg (fun e => hs (by rw [e])),
        getf_setf_other hl _ _ (slotOf_lt p) (slotOf_lt q) hs, hw]
  · rw [if_neg hw, if_neg (fun e => hw (by rw [e]))]

/-- Writing a register below COUNT leaves the illegal bits of every word 0. -/
theorem clean_writeReg {fs : FieldShift} {m : Memory} (hm : m.wf = true) {count p : Nat}
    (hp : p < count) (v : RegVal) {w : Nat}
    (hw : m.read w &&& illegalMask fs count w = 0) :
    (writeReg fs m p v).read w &&& illegalMask fs count w = 0 := by
  rw [read_writeReg fs hm]
  split
  · rename_i e
    subst e
    exact setf_illegal v (slotOf_lt p) (by rw [word_slot]; exact hp) hw
  · exact hw

/-- Everything that raising a register can do to the registers (R79). -/
theorem readReg_raiseReg {fs : FieldShift} (hl : fs.legal = true) {m : Memory}
    (hm : m.wf = true) (p : Nat) (v : RegVal) (q : Nat) :
    (readReg fs (raiseReg fs m p v).1 q).toNat =
      if q = p then max (readReg fs m p).toNat v.toNat else (readReg fs m q).toNat := by
  unfold raiseReg
  split
  · rename_i h
    rw [readReg_writeReg hl hm]
    split
    · have := BitVec.lt_def.1 h
      omega
    · rfl
  · rename_i h
    split
    · rename_i e
      subst e
      have := mt BitVec.lt_def.2 h
      simp only
      omega
    · rfl

/-- The flag of raising a register is "iff `v > get(pos)`" (R79). -/
theorem raiseReg_flag (fs : FieldShift) (m : Memory) (p : Nat) (v : RegVal) :
    (raiseReg fs m p v).2 = true ↔ (readReg fs m p).toNat < v.toNat := by
  unfold raiseReg
  split
  · rename_i h
    simp [BitVec.lt_def.1 h]
  · rename_i h
    simp [mt BitVec.lt_def.2 h]

/-- With no rise, nothing changes (R79). -/
theorem raiseReg_unchanged (fs : FieldShift) (m : Memory) (p : Nat) (v : RegVal)
    (h : (raiseReg fs m p v).2 = false) : (raiseReg fs m p v).1 = m := by
  unfold raiseReg at h ⊢
  split at h
  · simp at h
  · rename_i h2
    rw [if_neg h2]

theorem wf_raiseReg (fs : FieldShift) {m : Memory} (hm : m.wf = true) {p : Nat}
    (hp : wordOf p < numWordsMax) (v : RegVal) : (raiseReg fs m p v).1.wf = true := by
  unfold raiseReg
  split
  · exact wf_writeReg fs hm hp v
  · exact hm

theorem read_raiseReg_other (fs : FieldShift) {m : Memory} (hm : m.wf = true) (p : Nat)
    (v : RegVal) {w : Nat} (hw : w ≠ wordOf p) : (raiseReg fs m p v).1.read w = m.read w := by
  unfold raiseReg
  split
  · rw [read_writeReg fs hm, if_neg hw]
  · rfl

theorem clean_raiseReg {fs : FieldShift} {m : Memory} (hm : m.wf = true) {count p : Nat}
    (hp : p < count) (v : RegVal) {w : Nat}
    (hw : m.read w &&& illegalMask fs count w = 0) :
    (raiseReg fs m p v).1.read w &&& illegalMask fs count w = 0 := by
  unfold raiseReg
  split
  · exact clean_writeReg hm hp v hw
  · exact hw

@[simp] theorem raiseAll_nil (fs : FieldShift) (m : Memory) : raiseAll fs [] m = (m, false) :=
  rfl

theorem raiseAll_cons (fs : FieldShift) (p : Nat) (v : RegVal) (ps : List (Nat × RegVal))
    (m : Memory) :
    raiseAll fs ((p, v) :: ps) m =
      ((raiseAll fs ps (raiseReg fs m p v).1).1,
        (raiseReg fs m p v).2 || (raiseAll fs ps (raiseReg fs m p v).1).2) := rfl

/-- Raising a batch, then another, is raising both together (R72). -/
theorem raiseAll_append (fs : FieldShift) (ps qs : List (Nat × RegVal)) (m : Memory) :
    raiseAll fs (ps ++ qs) m =
      ((raiseAll fs qs (raiseAll fs ps m).1).1,
        (raiseAll fs ps m).2 || (raiseAll fs qs (raiseAll fs ps m).1).2) := by
  induction ps generalizing m with
  | nil => simp
  | cons c ps ih =>
    obtain ⟨p, v⟩ := c
    simp [raiseAll_cons, ih, Bool.or_assoc]

/-- Raising registers within the array keeps the form. -/
theorem wf_raiseAll (fs : FieldShift) {ps : List (Nat × RegVal)} {m : Memory}
    (hm : m.wf = true) (hp : ∀ c ∈ ps, wordOf c.1 < numWordsMax) :
    (raiseAll fs ps m).1.wf = true := by
  induction ps generalizing m with
  | nil => exact hm
  | cons c ps ih =>
    obtain ⟨p, v⟩ := c
    rw [raiseAll_cons]
    exact ih (wf_raiseReg fs hm (hp _ List.mem_cons_self) v)
      fun c hc => hp c (List.mem_cons_of_mem _ hc)

/-- After a list of raises "every register holds max(its prior value, the greatest …)" (R72). -/
theorem readReg_raiseAll {fs : FieldShift} (hl : fs.legal = true) {ps : List (Nat × RegVal)}
    {m : Memory} (hm : m.wf = true) (hp : ∀ c ∈ ps, wordOf c.1 < numWordsMax) (q : Nat) :
    (readReg fs (raiseAll fs ps m).1 q).toNat =
      max (readReg fs m q).toNat (greatestFor q ps) := by
  induction ps generalizing m with
  | nil => simp [greatestFor]
  | cons c ps ih =>
    obtain ⟨p, v⟩ := c
    rw [raiseAll_cons]
    simp only
    rw [ih (wf_raiseReg fs hm (hp _ List.mem_cons_self) v)
      (fun c hc => hp c (List.mem_cons_of_mem _ hc)), readReg_raiseReg hl hm, greatestFor]
    by_cases h : q = p
    · subst h
      rw [if_pos rfl, if_pos rfl]
      dsimp only
      omega
    · rw [if_neg h, if_neg (Ne.symm h)]

/-- The flag of a list of raises says that some register rose (R71, R84). -/
theorem raiseAll_flag {fs : FieldShift} (hl : fs.legal = true) {ps : List (Nat × RegVal)}
    {m : Memory} (hm : m.wf = true) (hp : ∀ c ∈ ps, wordOf c.1 < numWordsMax) :
    (raiseAll fs ps m).2 = true ↔ ∃ q, (readReg fs m q).toNat < greatestFor q ps := by
  induction ps generalizing m with
  | nil => simp [greatestFor]
  | cons c ps ih =>
    obtain ⟨p, v⟩ := c
    rw [raiseAll_cons]
    simp only [Bool.or_eq_true]
    rw [ih (wf_raiseReg fs hm (hp _ List.mem_cons_self) v)
      (fun c hc => hp c (List.mem_cons_of_mem _ hc)), raiseReg_flag]
    simp only [greatestFor, readReg_raiseReg hl hm]
    constructor
    · rintro (h | ⟨q, h⟩)
      · exact ⟨p, by rw [if_pos rfl]; omega⟩
      · refine ⟨q, ?_⟩
        by_cases e : q = p
        · subst e
          rw [if_pos rfl] at h ⊢
          omega
        · rw [if_neg e] at h
          rwa [if_neg (Ne.symm e)]
    · rintro ⟨q, h⟩
      by_cases e : q = p
      · subst e
        rw [if_pos rfl] at h
        by_cases g : (readReg fs m q).toNat < v.toNat
        · exact .inl g
        · refine .inr ⟨q, ?_⟩
          rw [if_pos rfl]
          omega
      · rw [if_neg (Ne.symm e)] at h
        exact .inr ⟨q, by rwa [if_neg e]⟩

/-- With no rise, nothing changes. -/
theorem raiseAll_unchanged (fs : FieldShift) (ps : List (Nat × RegVal)) (m : Memory)
    (h : (raiseAll fs ps m).2 = false) : (raiseAll fs ps m).1 = m := by
  induction ps generalizing m with
  | nil => rfl
  | cons c ps ih =>
    obtain ⟨p, v⟩ := c
    rw [raiseAll_cons] at h ⊢
    simp only [Bool.or_eq_false_iff] at h
    have e := raiseReg_unchanged fs m p v h.1
    rw [e] at h ⊢
    exact ih m h.2

/-- A word that holds none of the registers named is unchanged. -/
theorem read_raiseAll_other (fs : FieldShift) {ps : List (Nat × RegVal)} {m : Memory}
    (hm : m.wf = true) (hp : ∀ c ∈ ps, wordOf c.1 < numWordsMax) {w : Nat}
    (hw : ∀ c ∈ ps, w ≠ wordOf c.1) : (raiseAll fs ps m).1.read w = m.read w := by
  induction ps generalizing m with
  | nil => rfl
  | cons c ps ih =>
    obtain ⟨p, v⟩ := c
    rw [raiseAll_cons]
    simp only
    rw [ih (wf_raiseReg fs hm (hp _ List.mem_cons_self) v)
        (fun c hc => hp c (List.mem_cons_of_mem _ hc))
        (fun c hc => hw c (List.mem_cons_of_mem _ hc)),
      read_raiseReg_other fs hm p v (hw _ List.mem_cons_self)]

/-- Raising registers below COUNT leaves the illegal bits 0. -/
theorem clean_raiseAll {fs : FieldShift} {ps : List (Nat × RegVal)} {m : Memory}
    (hm : m.wf = true) (hp : ∀ c ∈ ps, wordOf c.1 < numWordsMax) {count : Nat}
    (hc : ∀ c ∈ ps, c.1 < count) {w : Nat} (hw : m.read w &&& illegalMask fs count w = 0) :
    (raiseAll fs ps m).1.read w &&& illegalMask fs count w = 0 := by
  induction ps generalizing m with
  | nil => exact hw
  | cons c ps ih =>
    obtain ⟨p, v⟩ := c
    rw [raiseAll_cons]
    exact ih (wf_raiseReg fs hm (hp _ List.mem_cons_self) v)
      (fun c hc => hp c (List.mem_cons_of_mem _ hc))
      (fun c h => hc c (List.mem_cons_of_mem _ h))
      (clean_raiseReg hm (hc _ List.mem_cons_self) v hw)

/-- The greatest value does not depend on the order of the list. -/
theorem greatestFor_perm {ps qs : List (Nat × RegVal)} (h : ps.Perm qs) (q : Nat) :
    greatestFor q ps = greatestFor q qs := by
  induction h with
  | nil => rfl
  | cons c _ ih => simp only [greatestFor, ih]
  | swap c d l =>
    simp only [greatestFor]
    split_ifs <;> omega
  | trans _ _ ih1 ih2 => exact ih1.trans ih2

theorem greatestFor_append (q : Nat) (ps qs : List (Nat × RegVal)) :
    greatestFor q (ps ++ qs) = max (greatestFor q ps) (greatestFor q qs) := by
  induction ps with
  | nil => simp [greatestFor]
  | cons c ps ih =>
    simp only [List.cons_append, greatestFor, ih]
    split
    · omega
    · rfl

/-- A register that no pair names is given nothing. -/
theorem greatestFor_eq_zero {q : Nat} {ps : List (Nat × RegVal)} (h : ∀ c ∈ ps, c.1 ≠ q) :
    greatestFor q ps = 0 := by
  induction ps with
  | nil => rfl
  | cons c ps ih =>
    rw [greatestFor, if_neg (h _ List.mem_cons_self)]
    exact ih fun c hc => h c (List.mem_cons_of_mem _ hc)

/-- A list that names each register below `n` once gives each its value. -/
theorem greatestFor_range (f : Nat → RegVal) (n q : Nat) :
    greatestFor q ((List.range n).map fun p => (p, f p)) = if q < n then (f q).toNat else 0 := by
  induction n with
  | zero => simp [greatestFor]
  | succ n ih =>
    rw [List.range_succ, List.map_append, greatestFor_append, ih]
    simp only [List.map_cons, List.map_nil, greatestFor]
    by_cases h : n = q
    · subst h
      simp
    · rw [if_neg h]
      by_cases h2 : q < n
      · rw [if_pos h2, if_pos (by omega)]
        omega
      · rw [if_neg h2, if_neg (by omega)]
        omega

end Sys2Proof.Machine
end

