-- ==== Sys2Proof/Laws/Runs.lean ====
section
/-! SUPPORT. Runs over the requests of a port: each request takes one step (R45, R126). -/

namespace Sys2Proof.Machine

/-- A command leaves the port with the requests behind it, and the parameters as they were. -/
theorem exec_frame {i : Instr} {s t : State} (h : exec i s = .next t) :
    t.requests = s.requests.tail ∧ t.params = s.params ∧ t.draws = s.draws := by
  rcases exec_cases h with ⟨e, -, rfl⟩ | ⟨hn, rfl⟩
  · exact ⟨rfl, rfl, rfl⟩
  · cases i with
    | illegalE r => simp [firstError_illegalE] at hn
    | illegalF r => simp [firstError_illegalF] at hn
    | _ => exact ⟨rfl, rfl, rfl⟩

/-- A step takes one request, and leaves the parameters. -/
theorem step_frame {s t : State} (h : step s = .next t) :
    t.requests = s.requests.tail ∧ t.params = s.params := by
  rcases step_cases h with ⟨e, rfl⟩ | ⟨c, rest, e, ht⟩ | ⟨x, rest, e, ⟨r, d, rfl⟩ | ⟨i, d, ht⟩⟩
  · exact ⟨by rw [e]; rfl, rfl⟩
  · simp only [takeReset, Host.Outcome.next.injEq] at ht
    subst ht
    exact ⟨rfl, rfl⟩
  · exact ⟨rfl, rfl⟩
  · exact ⟨(exec_frame ht).1, (exec_frame ht).2.1⟩

/-- With nothing on the port a run stays where it is. -/
theorem runFor_idle {s : State} (h : s.requests = []) (k : Nat) : runFor k s = s := by
  induction k with
  | zero => rfl
  | succ k ih => rw [runFor_succ k (step_idle h), ih]

@[simp] theorem State.withRequests_requests (s : State) (rs : List Request) :
    (s.withRequests rs).requests = rs := rfl
@[simp] theorem State.withRequests_configured (s : State) (rs : List Request) :
    (s.withRequests rs).configured = s.configured := rfl
@[simp] theorem State.withRequests_log2m (s : State) (rs : List Request) :
    (s.withRequests rs).log2m = s.log2m := rfl
@[simp] theorem State.withRequests_ra (s : State) (rs : List Request) :
    (s.withRequests rs).ra = s.ra := rfl
@[simp] theorem State.withRequests_params (s : State) (rs : List Request) :
    (s.withRequests rs).params = s.params := rfl
@[simp] theorem State.withRequests_responses (s : State) (rs : List Request) :
    (s.withRequests rs).responses = s.responses := rfl
@[simp] theorem State.withRequests_draws (s : State) (rs : List Request) :
    (s.withRequests rs).draws = s.draws := rfl

/-- What waits on the port is not the engine's own state. -/
theorem sameEngine_withRequests (s : State) (rs : List Request) :
    SameEngine s (s.withRequests rs) := ⟨rfl, rfl, rfl, rfl, rfl⟩

/-- A run over a port with nothing on it. -/
theorem runAll_nil {s : State} (h : s.requests = []) : runAll s = s := by
  rw [runAll, h]
  rfl

/-- A run over a port with a request on it goes on after the first step. -/
theorem runAll_step {s t : State} {r : Request} {rs : List Request} (h : s.requests = r :: rs)
    (hs : step s = .next t) : runAll s = runAll t := by
  have ht : t.requests = rs := by rw [(step_frame hs).1, h]; rfl
  rw [runAll, runAll, h, ht, List.length_cons, runFor_succ _ hs]

/-- The invariants do not speak of the port. -/
theorem Inv.withRequests {s : State} (h : Inv s) (rs : List Request) : Inv (s.withRequests rs) :=
  ⟨h.config, h.form, h.clean, h.beyond, h.layout⟩

theorem Inv.respond {s : State} (h : Inv s) (st : Word) (rs : List Byte) : Inv (s.respond st rs) :=
  ⟨h.config, h.form, h.clean, h.beyond, h.layout⟩

end Sys2Proof.Machine
end

