-- ==== Sys2Proof/Laws/Sizes.lean ====
section
/-! SUPPORT. The sizes of a configuration (R6 of 00_scope.md, R22 of 10_state.md) and what the
invariants give about them. -/

namespace Sys2Proof.Machine

theorem sizeWords_eq (n : Nat) : sizeWords n = (2 ^ n + 5) / 6 := rfl

theorem sizeWords_pos (n : Nat) : 0 < sizeWords n := by
  have := Nat.one_le_two_pow (n := n)
  rw [sizeWords_eq]
  omega

/-- SIZE never falls as LOG2M rises (R89). -/
theorem sizeWords_mono {m n : Nat} (h : m ≤ n) : sizeWords m ≤ sizeWords n := by
  have := Nat.pow_le_pow_right (n := 2) (by decide) h
  simp only [sizeWords_eq]
  omega

/-- The word of a register below COUNT is below SIZE (R16, R17). -/
theorem wordOf_lt_sizeWords {n p : Nat} (h : p < countOf n) : wordOf p < sizeWords n := by
  simp only [countOf] at h
  rw [sizeWords_eq, wordOf, slots]
  omega

theorem sizeWords_le {n : Nat} (h : n ≤ 16) : sizeWords n ≤ numWordsMax :=
  sizeWords_mono h

theorem countOf_le {n : Nat} (h : n ≤ 16) : countOf n ≤ 65536 :=
  Nat.pow_le_pow_right (n := 2) (by decide) h

/-- A configured state that meets the invariants has a legal LOG2M (R23). -/
theorem Inv.log2m_range {s : State} (h : Inv s) (c : s.configured = true) :
    4 ≤ s.log2m.toNat ∧ s.log2m.toNat ≤ 16 := by
  rcases h.config with ⟨e, -⟩ | ⟨-, e⟩
  · rw [c] at e
    cases e
  · exact e

theorem Inv.log2m_le {s : State} (h : Inv s) : s.log2m.toNat ≤ 16 := by
  rcases h.config with ⟨-, e⟩ | ⟨-, e⟩
  · rw [e]
    decide
  · exact e.2

theorem Inv.size_le {s : State} (h : Inv s) : s.size ≤ numWordsMax := sizeWords_le h.log2m_le

theorem Inv.count_le {s : State} (h : Inv s) : s.count ≤ 65536 := countOf_le h.log2m_le

theorem Inv.wordOf_lt {s : State} (h : Inv s) {p : Nat} (hp : p < s.count) :
    wordOf p < s.size ∧ wordOf p < numWordsMax :=
  ⟨wordOf_lt_sizeWords hp, lt_of_lt_of_le (wordOf_lt_sizeWords hp) h.size_le⟩

/-- No slot of a word at or beyond SIZE holds a register. -/
theorem usedMask_beyond (fs : FieldShift) {n w : Nat} (h : sizeWords n ≤ w) :
    usedMask fs (countOf n) w = 0 := by
  have : (List.range slots).filter (fun k => decide (slots * w + k < countOf n)) = [] := by
    rw [List.filter_eq_nil_iff]
    intro k _ hk
    rw [decide_eq_true_eq] at hk
    rw [sizeWords_eq] at h
    simp only [slots, countOf] at hk
    omega
  rw [usedMask, this]
  rfl

/-- In a configured state that meets the invariants every bit that holds no register is 0, at every
word index. -/
theorem Inv.clean_all {s : State} (h : Inv s) (c : s.configured = true) (w : Nat) :
    s.ra.read w &&& s.illegalMask w = 0 := by
  rcases Nat.lt_or_ge w s.size with hw | hw
  · exact h.clean c w hw
  · rw [h.beyond c w hw]
    exact BitVec.zero_and

/-- Two arrays in the one form with no illegal bit set and the same registers are equal. -/
theorem Memory.ext_of_regs {fs : FieldShift} {m n : Memory} {log2m : Nat} (hm : m.wf = true)
    (hn : n.wf = true) (cm : ∀ w, m.read w &&& illegalMask fs (countOf log2m) w = 0)
    (cn : ∀ w, n.read w &&& illegalMask fs (countOf log2m) w = 0)
    (h : ∀ p, p < countOf log2m → readReg fs m p = readReg fs n p) : m = n := by
  refine Memory.ext hm hn fun w => word_ext (cm w) (cn w) fun k hk hc => ?_
  obtain ⟨h1, h2⟩ := wordOf_slotOf w k hk
  have := h (6 * w + k) hc
  rwa [readReg, readReg, h1, h2] at this

/-- The invariants of a state given in figures, from checks that can be evaluated. -/
theorem Inv.of_checks {s : State}
    (config : s.configured = true ∧ 4 ≤ s.log2m.toNat ∧ s.log2m.toNat ≤ 16)
    (form : s.ra.wf = true)
    (clean : (List.range s.size).all (fun w => s.ra.read w &&& s.illegalMask w == 0) = true)
    (beyond : s.ra.all (fun c => decide (c.1 < s.size)) = true)
    (layout : s.params.fieldShift.legal = true) : Inv s := by
  refine ⟨.inr config, form, fun _ w hw => ?_, fun _ w hw => ?_, layout⟩
  · exact beq_iff_eq.1 (List.all_eq_true.1 clean w (List.mem_range.2 hw))
  · by_contra hne
    have := List.all_eq_true.1 beyond _ (Memory.mem_of_read hne)
    simp only [decide_eq_true_eq] at this
    omega

end Sys2Proof.Machine
end

