-- ==== Sys2Proof/Laws/Units.lean ====
section
/-! SUPPORT. The parts of the units: the bucket and the rank of a hash (R67 to R69), a batch as raises
(R71), a blob's validity and registers (R75, R82), the bytes of the array (R85). -/

namespace Sys2Proof.Machine

/-- The bucket as a number: the top LOG2M bits (R67). -/
theorem bucket_eq (n : Nat) (h : Word) : bucket n h = h.toNat / 2 ^ (32 - n) := by
  rw [bucket, BitVec.toNat_ushiftRight, Nat.shiftRight_eq_div_pow]

/-- The bucket is below COUNT (R67). -/
theorem bucket_lt {n : Nat} (hn : n ≤ 32) (h : Word) : bucket n h < countOf n := by
  rw [bucket_eq, countOf, Nat.div_lt_iff_lt_mul (by positivity), ← pow_add,
    Nat.add_sub_cancel' hn]
  exact h.isLt

/-- The word whose leading zeros are counted, as a number: the remaining bits left-aligned, and the
sentinel (R68). -/
theorem rankWord_toNat {n : Nat} (h1 : 1 ≤ n) (h2 : n ≤ 32) (h : Word) :
    (rankWord n h).toNat = h.toNat % 2 ^ (32 - n) * 2 ^ n + 2 ^ (n - 1) := by
  have e : (h <<< n).toNat = h.toNat % 2 ^ (32 - n) * 2 ^ n := by
    rw [BitVec.toNat_shiftLeft, Nat.shiftLeft_eq]
    have : 2 ^ 32 = 2 ^ (32 - n) * 2 ^ n := by rw [← pow_add, Nat.sub_add_cancel h2]
    rw [this, Nat.mul_mod_mul_right]
  have f : (1#32 <<< (n - 1)).toNat = 2 ^ (n - 1) := by
    rw [BitVec.toNat_shiftLeft, Nat.shiftLeft_eq]
    have : 2 ^ (n - 1) < 2 ^ 32 := Nat.pow_lt_pow_right (by decide) (by omega)
    simpa using this
  rw [rankWord, BitVec.toNat_or, e, f, Nat.mul_comm]
  exact (Nat.two_pow_add_eq_or_of_lt (Nat.pow_lt_pow_right (by decide) (by omega)) _).symm

/-- The rank bounds the remaining bits from both sides (R68, R69): `r − 1` is the number of leading
zeros of the 32 − LOG2M bits below the bucket, or 32 − LOG2M when they are all 0. -/
theorem rank_spec {n : Nat} (h1 : 1 ≤ n) (h2 : n ≤ 31) (h : Word) :
    1 ≤ rank n h ∧ rank n h ≤ 33 - n ∧
      (if h.toNat % 2 ^ (32 - n) = 0 then rank n h = 33 - n
       else rank n h ≤ 32 - n ∧ 2 ^ (32 - n - rank n h) ≤ h.toNat % 2 ^ (32 - n) ∧
        h.toNat % 2 ^ (32 - n) < 2 ^ (33 - n - rank n h)) := by
  have hw := rankWord_toNat h1 (by omega) h
  have hne : rankWord n h ≠ 0 := by
    intro e
    rw [e] at hw
    have : 0 < 2 ^ (n - 1) := by positivity
    simp at hw
    omega
  obtain ⟨b1, b2, b3⟩ := clz32_bit hne
  have hr : rank n h = clz32 (rankWord n h) + 1 := rfl
  generalize clz32 (rankWord n h) = c at *
  rw [hr, hw] at *
  generalize h.toNat % 2 ^ (32 - n) = x at *
  have hp : 2 * 2 ^ (n - 1) = 2 ^ n := by rw [← pow_succ']; congr 1; omega
  by_cases hx : x = 0
  · subst hx
    simp only [Nat.zero_mul, Nat.zero_add, if_true] at *
    have a1 : 31 - c ≤ n - 1 := (Nat.pow_le_pow_iff_right (by decide)).1 b2
    have a2 : n - 1 < 32 - c := (Nat.pow_lt_pow_iff_right (by decide)).1 b3
    omega
  · rw [if_neg hx]
    have lo : 2 ^ n ≤ x * 2 ^ n := Nat.le_mul_of_pos_left _ (by omega)
    have a2 : n < 32 - c :=
      (Nat.pow_lt_pow_iff_right (a := 2) (by decide)).1 (by omega)
    have e1 : 2 ^ (31 - c) = 2 ^ (31 - n - c) * 2 ^ n := by rw [← pow_add]; congr 1; omega
    have e2 : 2 ^ (32 - c) = 2 ^ (32 - n - c) * 2 ^ n := by rw [← pow_add]; congr 1; omega
    rw [e1] at b2
    rw [e2] at b3
    have hd : 0 < 2 ^ (n - 1) := by positivity
    have b2' : 2 ^ (31 - n - c) * 2 ^ n < (x + 1) * 2 ^ n := by
      rw [Nat.add_mul]
      omega
    have b2'' := Nat.lt_of_mul_lt_mul_right b2'
    have b3' : x * 2 ^ n < 2 ^ (32 - n - c) * 2 ^ n := by omega
    have b3'' := Nat.lt_of_mul_lt_mul_right b3'
    have e3 : 32 - n - (c + 1) = 31 - n - c := by omega
    have e4 : 33 - n - (c + 1) = 32 - n - c := by omega
    rw [e3, e4]
    refine ⟨by omega, by omega, by omega, by omega, b3''⟩

/-- A rank of a legal configuration fits a register (R69). -/
theorem rank_le {n : Nat} (h1 : 4 ≤ n) (h2 : n ≤ 16) (h : Word) : rank n h ≤ 29 := by
  have := (rank_spec (n := n) (by omega) (by omega) h).2.1
  omega

theorem mem_batchPairs {n : Nat} (hn : n ≤ 16) {hs : List Word} {c : Nat × RegVal}
    (h : c ∈ batchPairs n hs) : c.1 < countOf n := by
  obtain ⟨w, -, rfl⟩ := List.mem_map.1 h
  exact bucket_lt (by omega) w

theorem batchPairs_append (n : Nat) (hs gs : List Word) :
    batchPairs n (hs ++ gs) = batchPairs n hs ++ batchPairs n gs := List.map_append

/-- The greatest rank that a batch gives a register (R72). -/
theorem le_greatestFor_batch {n : Nat} (h1 : 4 ≤ n) (h2 : n ≤ 16) {hs : List Word} {h : Word}
    (hm : h ∈ hs) : rank n h ≤ greatestFor (bucket n h) (batchPairs n hs) := by
  induction hs with
  | nil => cases hm
  | cons g gs ih =>
    have hr := rank_le h1 h2 g
    rw [batchPairs, List.map_cons, greatestFor]
    rcases List.mem_cons.1 hm with rfl | hm
    · rw [if_pos rfl, BitVec.toNat_ofNat]
      omega
    · have := ih hm
      rw [batchPairs] at this
      split
      · omega
      · exact this

/-- The greatest rank is the rank of a hash of that bucket, or 0 with none (R72). -/
theorem greatestFor_batch_mem {n : Nat} (h1 : 4 ≤ n) (h2 : n ≤ 16) (hs : List Word) (q : Nat) :
    greatestFor q (batchPairs n hs) = 0 ∨
      ∃ h ∈ hs, bucket n h = q ∧ rank n h = greatestFor q (batchPairs n hs) := by
  induction hs with
  | nil => exact .inl rfl
  | cons g gs ih =>
    have hr := rank_le h1 h2 g
    rw [batchPairs, List.map_cons, greatestFor, BitVec.toNat_ofNat]
    simp only [batchPairs] at ih
    split
    · rename_i e
      rcases Nat.le_total (greatestFor q (List.map (fun h =>
        (bucket n h, BitVec.ofNat 5 (rank n h))) gs)) (rank n g) with l | l
      · exact .inr ⟨g, List.mem_cons_self, e, by omega⟩
      · rcases ih with ih | ⟨h, hm, hb, hk⟩
        · exact .inr ⟨g, List.mem_cons_self, e, by omega⟩
        · exact .inr ⟨h, List.mem_cons_of_mem _ hm, hb, by omega⟩
    · rcases ih with ih | ⟨h, hm, hb, hk⟩
      · exact .inl ih
      · exact .inr ⟨h, List.mem_cons_of_mem _ hm, hb, hk⟩

/-- A blob is valid when no word of it has an illegal bit (R75). -/
theorem blobValid_iff (fs : FieldShift) (count : Nat) (ws : List Word) :
    blobValid fs count ws = true ↔
      ∀ w, w < ws.length → ws.getD w 0 &&& illegalMask fs count w = 0 := by
  simp only [blobValid, List.all_eq_true, beq_iff_eq]
  constructor
  · intro h w hw
    have := h (ws[w], w) (List.mk_mem_zipIdx_iff_getElem?.2 (List.getElem?_eq_getElem hw))
    simpa [List.getD_eq_getElem?_getD, List.getElem?_eq_getElem hw] using this
  · rintro h ⟨v, w⟩ hm
    have e := List.mk_mem_zipIdx_iff_getElem?.1 hm
    have hw : w < ws.length := (List.getElem?_eq_some_iff.1 e).1
    simpa [List.getD_eq_getElem?_getD, e] using h w hw

theorem mem_blobRegs {fs : FieldShift} {count : Nat} {ws : List Word} {c : Nat × RegVal}
    (h : c ∈ blobRegs fs count ws) : c.1 < count := by
  obtain ⟨p, hp, rfl⟩ := List.mem_map.1 h
  exact List.mem_range.1 hp

/-- A blob gives each register below COUNT its own value, once (R82). -/
theorem greatestFor_blobRegs (fs : FieldShift) (count : Nat) (ws : List Word) (q : Nat) :
    greatestFor q (blobRegs fs count ws) = if q < count then (blobReg fs ws q).toNat else 0 :=
  greatestFor_range _ _ _

/-- After words are stored the registers are the blob's (R81). -/
theorem readReg_store (fs : FieldShift) {m : Memory} (hm : m.wf = true) {ws : List Word}
    {p : Nat} (hp : wordOf p < ws.length) : readReg fs (m.store ws) p = blobReg fs ws p := by
  rw [readReg, Memory.read_store hm, if_pos hp, blobReg]

/-- The bytes of the array read back as its words (R85). -/
theorem beWords_blobBytes (m : Memory) (n : Nat) :
    beWords (blobBytes m n) = (List.range n).map m.read := by
  have : blobBytes m n = ((List.range n).map m.read).flatMap be32 := by
    rw [blobBytes, List.flatMap_map]
  rw [this, beWords_flatMap_be32]

theorem blobBytes_length (m : Memory) (n : Nat) : (blobBytes m n).length = 4 * n := by
  simp [blobBytes, List.length_flatMap, Nat.mul_comm]

theorem flatMap_be32_length (ws : List Word) : (ws.flatMap be32).length = 4 * ws.length := by
  simp [List.length_flatMap, Nat.mul_comm]

end Sys2Proof.Machine
end

