-- ==== Sys2Proof/Tests/Slice0.lean ====
section
/-! SUPPORT. The model's own tests: ill-formed terms that are refused, words written out from the
encodings of 30_encoding.md, one step per command from the vectors of 95_test_vectors.md, and for each
statement that has hypotheses a witness that meets all of them. -/

namespace Sys2Proof.Tests

open Sys2Proof.Machine

-- One test at a time: tests that wait for the kernel side by side each hold a thread's stack.
set_option Elab.async false

/-! ### States of the tests -/

/-- An engine at a LOG2M whose array has these words. -/
def engine (n : RegVal) (ws : List Word) : State :=
  { State.reset with configured := true, log2m := n, ra := Memory.store [] ws }

/-- That state with a transaction alone on the port. -/
def serving (s : State) (cw : Word) (pay : List Byte) : State := s.withRequests [.txn ⟨cw, pay⟩]

/-- The state after one step. -/
def after (s : State) : State :=
  match step s with
  | .next t => t
  | .fault _ => s
  | .refused _ => s

theorem step_after (s : State) : step s = .next (after s) := by
  obtain ⟨t, h⟩ := step_next s
  simp [after, h]

/-- The state after the command itself. -/
def afterExec (i : Instr) (s : State) : State :=
  match exec i s with
  | .next t => t
  | .fault _ => s
  | .refused _ => s

theorem exec_after (i : Instr) (s : State) : exec i s = .next (afterExec i s) := by
  obtain ⟨t, h⟩ := exec_next i s
  simp [afterExec, h]

/-- The response to one transaction. -/
def reply (s : State) (cw : Word) (pay : List Byte) : List Response :=
  (after (serving s cw pay)).responses

/-- The array after one transaction. -/
def arrayOf (s : State) (cw : Word) (pay : List Byte) : Memory := (after (serving s cw pay)).ra

/-! ### WellFormed: an ill-formed term for each check -/

theorem test_wf_refuses_wide_p :
    (Instr.set 0 65536).wf = false ∧ (Instr.get 65536).wf = false ∧
      (Instr.updmax 0 65536).wf = false ∧ (Instr.add 65536).wf = false ∧
      (Instr.load 65536).wf = false ∧ (Instr.merge 65536).wf = false := by decide

theorem test_wf_admits_the_widest_p :
    (Instr.set 31 65535).wf = true ∧ (Instr.merge 65535).wf = true := by decide

theorem test_wf_refuses_long_payload : Txn.wf ⟨0, List.replicate 65536 0⟩ = false := by
  rw [Txn.wf, List.length_replicate]
  decide

theorem test_layout_refuses_overlap : FieldShift.legal ⟨2, 6, 12, 17, 22, 27⟩ = false := by decide

theorem test_layout_refuses_low_and_high_bits :
    FieldShift.legal ⟨1, 7, 12, 17, 22, 27⟩ = false ∧
      FieldShift.legal ⟨2, 7, 12, 17, 22, 28⟩ = false := by decide

theorem test_layout_admits_another_order : FieldShift.legal ⟨27, 22, 17, 12, 7, 2⟩ = true := by
  decide

/-! ### Decode: a word for every constructor (V-ENC-1), and words that are no command -/

theorem test_decode_nop : decode 0b0000_0000000_00000_0000000000000000#32 = .ok .nop := by decide
theorem test_decode_config :
    decode 0b0001_0000000_00100_0000000000000000#32 = .ok (.config 4) := by decide
theorem test_decode_clear :
    decode 0b0010_0000000_00000_0000000000000000#32 = .ok .clear := by decide
theorem test_decode_set :
    decode 0b0011_0000000_00111_0000000000000011#32 = .ok (.set 7 3) := by decide
theorem test_decode_get :
    decode 0b0100_0000000_00000_0000000000000011#32 = .ok (.get 3) := by decide
theorem test_decode_updmax :
    decode 0b0101_0000000_01100_0000000000000011#32 = .ok (.updmax 12 3) := by decide
theorem test_decode_hashrank :
    decode 0b0110_0000000_00000_0000000000000000#32 = .ok .hashrank := by decide
theorem test_decode_add :
    decode 0b0111_0000000_00000_0000000000001000#32 = .ok (.add 8) := by decide
theorem test_decode_load :
    decode 0b1000_0000000_00000_1010101010101100#32 = .ok (.load 43692) := by decide
theorem test_decode_merge :
    decode 0b1001_0000000_00000_0000000000001100#32 = .ok (.merge 12) := by decide
theorem test_decode_ser :
    decode 0b1010_0000000_00000_0000000000000000#32 = .ok .ser := by decide
theorem test_decode_estimate :
    decode 0b1011_0000000_00000_0000000000000000#32 = .ok .estimate := by decide
theorem test_decode_bytesneeded :
    decode 0b1100_0000000_10000_0000000000000000#32 = .ok (.bytesneeded 16) := by decide
theorem test_decode_qcfg :
    decode 0b1101_0000000_00000_0000000000000000#32 = .ok .qcfg := by decide
theorem test_decode_illegalE :
    decode 0b1110_0000001_00000_0000000000000000#32 = .ok (.illegalE 0x0200000) := by decide
theorem test_decode_illegalF :
    decode 0b1111_1111111_11111_1111111111111111#32 = .ok (.illegalF 0xFFFFFFF) := by decide

/-- V-ERR-4 to V-ERR-7: a reserved or unused field that is not 0. -/
theorem test_decode_reserved_fields :
    decode 0x20200000 = .error .reservedField ∧ decode 0x40010003 = .error .reservedField ∧
      decode 0x20000001 = .error .reservedField ∧ decode 0x10040001 = .error .reservedField := by
  decide

theorem test_decode_bytes_big_endian :
    decodeBytes [0x30, 0x07, 0x00, 0x03, 0xAA] = .ok (.set 7 3, [0xAA]) := by decide

theorem test_decode_truncated : decodeBytes [0x30, 0x07, 0x00] = .error .truncated := by decide

theorem test_encode_words :
    encode (.set 7 3) = 0x30070003 ∧ encode (.load 43692) = 0x8000AAAC ∧
      encode (.bytesneeded 16) = 0xC0100000 := by decide

/-! ### Commands: one step each, from the vectors of 95_test_vectors.md -/

/-- V-CTL-6. -/
theorem test_nop : reply State.reset 0x00000000 [] = [⟨0, []⟩] := by decide +kernel

/-- V-CTL-2, V-CTL-4. -/
theorem test_config :
    (after (serving (engine 4 [4]) 0x10100000 [])).log2m = 16 ∧
      arrayOf (engine 4 [4]) 0x10100000 [] = [] := by decide +kernel

/-- V-ERR-17 to V-ERR-19. -/
theorem test_config_error :
    reply State.reset 0x10030000 [] = [⟨5, []⟩] ∧ reply State.reset 0x10110000 [] = [⟨5, []⟩] := by
  decide +kernel

/-- V-RS-15. -/
theorem test_clear : arrayOf (engine 4 [0xA04FF024]) 0x20000000 [] = [] := by decide +kernel

/-- V-RS-3, V-RS-4. -/
theorem test_set :
    arrayOf (engine 4 []) 0x30070003 [] = [(0, 0x000E0000)] ∧
      arrayOf (engine 4 []) 0x301F000F [] = [(2, 0x003E0000)] := by decide +kernel

/-- V-RS-9: the other slots are unchanged. -/
theorem test_set_lowers :
    arrayOf (engine 4 [0x8000007C]) 0x30000005 [] = [(0, 0x0000007C)] := by decide +kernel

/-- V-RS-6. -/
theorem test_get : reply (engine 4 [0x80000000]) 0x40000005 [] = [⟨0, [0, 0, 0, 0x10]⟩] := by
  decide +kernel

/-- V-ERR-20. -/
theorem test_set_position : reply (engine 4 []) 0x30010010 [] = [⟨6, []⟩] := by decide +kernel

/-- V-RS-6: across the sign bit. -/
theorem test_updmax :
    arrayOf (engine 4 [0x78000000]) 0x50100005 [] = [(0, 0x80000000)] ∧
      reply (engine 4 [0x78000000]) 0x50100005 [] = [⟨0x10, []⟩] := by decide +kernel

/-- V-RS-7: an equal value. -/
theorem test_updmax_equal :
    reply (engine 4 [0x00180000]) 0x500C0003 [] = [⟨0, []⟩] := by decide +kernel

/-- V-HR-1. -/
theorem test_hashrank :
    reply (engine 4 []) 0x60000000 [0x12, 0x34, 0x56, 0x78] = [⟨0, [0x00, 0x03, 0x00, 0x01]⟩] ∧
      reply (engine 10 []) 0x60000000 [0x80, 0, 0, 0] = [⟨0, [0x00, 0x17, 0x02, 0x00]⟩] := by
  decide +kernel

/-- V-HR-1: the last real bit, and none. -/
theorem test_rank_edges :
    rank 4 0x00000001 = 28 ∧ rank 4 0x00000000 = 29 ∧ rank 16 0x00000001 = 16 ∧
      rank 16 0x80000000 = 17 := by decide +kernel

/-- V-HR-3: a lower rank does not lower the register. -/
theorem test_add :
    arrayOf (engine 4 []) 0x70000008 [0x12, 0x34, 0x56, 0x78, 0x1F, 0xFF, 0xFF, 0xFF] =
        [(0, 0x00000180)] ∧
      reply (engine 4 []) 0x70000008 [0x12, 0x34, 0x56, 0x78, 0x1F, 0xFF, 0xFF, 0xFF] =
        [⟨0x10, []⟩] := by decide +kernel

/-- V-HR-5: the empty batch. -/
theorem test_add_empty : reply (engine 4 [0x180]) 0x70000000 [] = [⟨0, []⟩] := by decide +kernel

/-- V-RS-10. -/
theorem test_load :
    (List.range 6).map (after (serving (engine 4 []) 0x8000000C
      [0xA0, 0x4F, 0xF0, 0x24, 0, 0, 0, 0, 0, 0, 0, 0])).reg = [9, 0, 31, 7, 1, 20] := by
  decide +kernel

/-- V-ERR-26: an unused slot of the last word. -/
theorem test_load_malformed :
    reply (engine 4 []) 0x8000000C [0, 0, 0, 0, 0, 0, 0, 0, 0x04, 0, 0, 0] = [⟨8, []⟩] := by
  decide +kernel

/-- V-L1-3 (R82): the regression scenario. -/
theorem test_merge :
    arrayOf (engine 4 [0xA04FF024]) 0x9000000C [0xF8, 0x58, 0x02, 0x8C, 0, 0, 0, 0, 0, 0, 0, 0] =
      [(0, 0xF859F2A4)] := by decide +kernel

/-- V-ERR-12: the length before the size. -/
theorem test_merge_length :
    reply (engine 4 []) 0x9000000D [0, 0, 0, 0, 0, 0, 0, 0, 0, 0, 0, 0] = [⟨3, []⟩] := by
  decide +kernel

/-- V-RS-4. -/
theorem test_ser :
    reply (engine 4 [0, 0, 0x003E0000]) 0xA0000000 [] =
      [⟨0, [0, 0, 0, 0, 0, 0, 0, 0, 0x00, 0x3E, 0x00, 0x00]⟩] := by decide +kernel

/-- V-EST-12: x[0] = 7, x[3] = 2, x[8] = 1, x[15] = 4, on the LINEAR path. -/
theorem test_estimate_linear :
    reply (engine 4 [0x0004001C, 0x00001000, 0x00080000]) 0xB0000000 [] =
      [⟨0x20, [0, 0, 0, 0, 0, 0, 0, 5]⟩] := by decide +kernel

/-- V-EST-11: every register 31, on the RAW path. -/
theorem test_estimate_raw :
    reply (engine 4 [0xFFFFFFFC, 0xFFFFFFFC, 0x003FFFFC]) 0xB0000000 [] =
      [⟨0x40, be64 23124103922#64⟩] := by decide +kernel

/-- V-RS-14: i = 31 gives 0x55555558, and i = 0 gives 4. -/
theorem test_bytesneeded :
    reply State.reset 0xC01F0000 [] = [⟨0, [0x55, 0x55, 0x55, 0x58]⟩] ∧
      reply State.reset 0xC0000000 [] = [⟨0, [0, 0, 0, 4]⟩] := by decide +kernel

/-- V-CTL-1, V-CTL-3. -/
theorem test_qcfg :
    reply State.reset 0xD0000000 [] = [⟨0, [0, 0, 0, 0]⟩] ∧
      reply (engine 16 []) 0xD0000000 [] = [⟨0, [0x80, 0x10, 0x2A, 0xAB]⟩] := by decide +kernel

/-- V-ERR-3: ILLEGAL_OPCODE before the other checks. -/
theorem test_illegalE : reply (engine 4 []) 0xE0200000 [0] = [⟨1, []⟩] := by decide +kernel

/-- V-ERR-2. -/
theorem test_illegalF : reply State.reset 0xF0000000 [] = [⟨1, []⟩] := by decide +kernel

/-- V-ERR-8: RESERVED_FIELD before NOT_CONFIGURED; V-ERR-14: NOT_CONFIGURED. -/
theorem test_reject_and_not_configured :
    reply State.reset 0x20200000 [] = [⟨2, []⟩] ∧ reply State.reset 0x40000000 [] = [⟨4, []⟩] := by
  decide +kernel

/-- R51: the status word most significant byte first, then the result. The bytes are those of UPDMAX's
UPDATED = 1 (V-RS-6) and of SER at LOG2M = 4 (V-RS-4). -/
theorem test_response_bytes :
    (reply (engine 4 [0x78000000]) 0x50100005 []).map Response.bytes = [[0, 0, 0, 0x10]] ∧
      (reply (engine 4 [0, 0, 0x003E0000]) 0xA0000000 []).map Response.bytes =
        [[0, 0, 0, 0, 0, 0, 0, 0, 0, 0, 0, 0, 0x00, 0x3E, 0x00, 0x00]] := by decide +kernel

/-- A response is found in a byte stream, and not before its last byte. -/
theorem test_frame_response :
    frameResponse 0x4 3 [0, 0, 0, 0, 0, 0, 0, 7, 0xAA] = some (⟨0, [0, 0, 0, 7]⟩, [0xAA]) ∧
      frameResponse 0x4 3 [0, 0, 0, 6, 0xAA] = some (⟨6, []⟩, [0xAA]) ∧
      frameResponse 0x4 3 [0, 0, 0, 0, 0, 0, 0] = none := by decide

/-- V-EST-19: COUNT·LN64(q) lies 2.7·10^-6 above a half-integer. -/
theorem test_linear_near_half : linearCounting .correctlyRounded 15 6649 = 52265 := by
  decide +kernel

/-- ln 2 and ln 16 as 95_test_vectors.md prints them, 0.6931471805599453 and 2.772588722239781: these
are the binary64 values nearest to those decimals. -/
theorem test_logarithms :
    ln64 .correctlyRounded (b64OfNat 2) = fl64 6931471805599453 10000000000000000 ∧
      ln64 .correctlyRounded (b64OfNat 16) = fl64 2772588722239781 1000000000000000 := by
  decide +kernel

/-! ### Witnesses: for each statement with hypotheses, values that meet all of them together -/

/-- A configured engine with an empty array meets the invariants. -/
theorem inv_empty {n : RegVal} (h : 4 ≤ n.toNat ∧ n.toNat ≤ 16) : Inv (engine n []) where
  config := .inr ⟨rfl, h⟩
  form := rfl
  clean _ _ _ := BitVec.zero_and
  beyond _ _ _ := rfl
  layout := defaultFieldShift_legal

/-- The engine of V-RS-10 and of the last words of V-RS-4. -/
def sample : State := engine 4 [0xA04FF024, 0, 0x003E0000]

theorem inv_sample : Inv sample :=
  Inv.of_checks (by decide) (by decide) (by decide +kernel) (by decide +kernel) (by decide)

/-- The invariants do not speak of the port. -/
theorem inv_serving {s : State} (h : Inv s) (cw : Word) (pay : List Byte) :
    Inv (serving s cw pay) := ⟨h.config, h.form, h.clean, h.beyond, h.layout⟩

theorem inv_reset : Inv State.reset :=
  ⟨.inl ⟨rfl, rfl⟩, rfl, nofun, nofun, by decide⟩

theorem witness_DecodeOfEncodeIsTheCommand :
    (Instr.set 31 65535).wf = true ∧ (Instr.set 0 0).wf = true := by decide

theorem witness_EncodeOfDecodeIsTheWord : decode 0x301FFFFF = .ok (.set 31 65535) := by decide

theorem witness_DecoderAcceptsExactlyTheTable :
    ((0x3, 0xFFE00000, 0x30000000) ∈ opcodeRows ∧
      (0x301FFFFF : Word) &&& 0xFFE00000 = 0x30000000) ∧
    ((0xF, 0xF0000000, 0xF0000000) ∈ opcodeRows ∧
      (0xFFFFFFFF : Word) &&& 0xF0000000 = 0xF0000000) ∧
    ∀ row ∈ opcodeRows, (0x20000001 : Word) &&& row.2.1 ≠ row.2.2 := by decide

theorem witness_FramingFindsTheEndOfATransaction :
    (Instr.load 65535).wf = true ∧
      (⟨0x70000004, [1, 2, 3, 4]⟩ : Txn).pay.length = plenWord 0x70000004 ∧
      0 < (⟨0x70000004, [1, 2, 3, 4]⟩ : Txn).bytes.length ∧
      7 < (⟨0x70000004, [1, 2, 3, 4]⟩ : Txn).bytes.length ∧
      (⟨0x00000000, []⟩ : Txn).pay.length = plenWord 0x00000000 := by decide

theorem witness_AssembledLinesAreLegalTransactions :
    (asmLineFits (.set 65535 31) = true ∧ lineCommand (.set 65535 31) = some (.set 31 65535)) ∧
      (asmLineFits (.add [0, 2 ^ 32 - 1]) = true ∧
        lineCommand (.add [0, 2 ^ 32 - 1]) = some (.add 8)) ∧
      (asmLineFits (.txn 0xFFFFFFFF [0, 255]) = true ∧
        AsmLine.txn 0xFFFFFFFF [0, 255] = .txn 0xFFFFFFFF [0, 255]) := by decide

theorem witness_StepExecutesTheDecodedCommand :
    (serving sample 0x301FFFFF []).requests = .txn ⟨0x301FFFFF, []⟩ :: [] ∧
      decode 0x301FFFFF = .ok (.set 31 65535) ∧
      (serving sample 0x20000001 []).requests = .txn ⟨0x20000001, []⟩ :: [] ∧
      decode 0x20000001 = .error .reservedField := by
  exact ⟨rfl, by decide, rfl, by decide⟩

theorem witness_PlacedWordIsExecutedNext :
    (Instr.updmax 31 65535).wf = true ∧ Instr.hashrank.wf = true := by decide

theorem witness_IdleEngineWaits : sample.requests = [] := rfl

theorem witness_EveryTransactionIsAnsweredOnce :
    (serving sample 0xA0000000 []).requests = .txn ⟨0xA0000000, []⟩ :: [] := rfl

/-- Check `n` is the first that fails. -/
def failsFirst (n : Nat) (x : Txn) (s : State) : Prop :=
  checkFails n x s ∧ ∀ m, m < n → ¬checkFails m x s

theorem witness_FirstFailingCheckIsReported_1 :
    failsFirst 1 ⟨0xE0200000, [0]⟩ (serving sample 0xE0200000 [0]) := by
  refine ⟨by simp only [checkFails]; decide, fun m hm => ?_⟩
  interval_cases m
  exact id

theorem witness_FirstFailingCheckIsReported_2 :
    failsFirst 2 ⟨0x20000001, []⟩ (serving State.reset 0x20000001 []) := by
  refine ⟨by simp only [checkFails]; decide, fun m hm => ?_⟩
  interval_cases m <;> simp only [checkFails] <;> decide

theorem witness_FirstFailingCheckIsReported_3 :
    failsFirst 3 ⟨0x9000000D, List.replicate 12 0⟩
      (serving sample 0x9000000D (List.replicate 12 0)) := by
  refine ⟨by simp only [checkFails]; decide, fun m hm => ?_⟩
  interval_cases m <;> simp only [checkFails] <;> decide

theorem witness_FirstFailingCheckIsReported_4 :
    failsFirst 4 ⟨0x30010010, []⟩ (serving State.reset 0x30010010 []) := by
  refine ⟨by simp only [checkFails]; decide, fun m hm => ?_⟩
  interval_cases m <;> simp only [checkFails] <;> decide

theorem witness_FirstFailingCheckIsReported_5 :
    failsFirst 5 ⟨0x10110000, []⟩ (serving State.reset 0x10110000 []) := by
  refine ⟨by simp only [checkFails]; decide, fun m hm => ?_⟩
  interval_cases m <;> simp only [checkFails] <;> decide

theorem witness_FirstFailingCheckIsReported_6 :
    failsFirst 6 ⟨0x30010010, []⟩ (serving sample 0x30010010 []) := by
  refine ⟨by simp only [checkFails]; decide, fun m hm => ?_⟩
  interval_cases m <;> simp only [checkFails] <;> decide

theorem witness_FirstFailingCheckIsReported_7 :
    failsFirst 7 ⟨0x80000000, []⟩ (serving sample 0x80000000 []) := by
  refine ⟨by simp only [checkFails]; decide, fun m hm => ?_⟩
  interval_cases m <;> simp only [checkFails] <;> decide

/-- V-ERR-26: the bit lies in the last word. -/
theorem witness_FirstFailingCheckIsReported_8 :
    failsFirst 8 ⟨0x8000000C, [0, 0, 0, 0, 0, 0, 0, 0, 4, 0, 0, 0]⟩
      (serving sample 0x8000000C [0, 0, 0, 0, 0, 0, 0, 0, 4, 0, 0, 0]) := by
  refine ⟨⟨by decide, 2, by decide, by decide⟩, fun m hm => ?_⟩
  interval_cases m <;> simp only [checkFails] <;> decide

theorem witness_FirstFailingCheckIsReported_none :
    ∀ n, ¬checkFails n ⟨0x301F000F, []⟩ (serving sample 0x301F000F []) := by
  intro n
  by_cases h : n < 9
  · interval_cases n
    · exact id
    all_goals simp only [checkFails]; decide
  · obtain ⟨k, rfl⟩ : ∃ k, n = k + 9 := ⟨n - 9, by omega⟩
    exact id

/-- A failing CONFIG (V-ERR-18). -/
theorem witness_FailedCommandHasNoEffect :
    step (serving sample 0x10110000 []) = .next (after (serving sample 0x10110000 [])) ∧
      (after (serving sample 0x10110000 [])).responses =
        (serving sample 0x10110000 []).responses ++ [⟨5, []⟩] ∧
      statusECode 5 ≠ 0 :=
  ⟨step_after _, by decide +kernel, by decide⟩

/-- A GET beyond COUNT, and one at LOG2M = 16, where there is none. -/
theorem witness_OnlyListedErrorsAreRaised :
    (step (serving sample 0x40000010 []) = .next (after (serving sample 0x40000010 [])) ∧
      (after (serving sample 0x40000010 [])).responses =
        (serving sample 0x40000010 []).responses ++ [⟨6, []⟩]) ∧
    (step (serving (engine 16 []) 0x4000FFFF []) =
        .next (after (serving (engine 16 []) 0x4000FFFF [])) ∧
      (after (serving (engine 16 []) 0x4000FFFF [])).responses =
        (serving (engine 16 []) 0x4000FFFF []).responses ++ [⟨0, [0, 0, 0, 0]⟩] ∧
      (serving (engine 16 []) 0x4000FFFF []).log2m = 16) :=
  ⟨⟨step_after _, by decide +kernel⟩, step_after _, by decide +kernel, rfl⟩

/-- An UPDMAX with UPDATED = 1, and an ESTIMATE with EPATH = 1. -/
theorem witness_StatusAndResultHaveTheirLayout :
    (step (serving sample 0x501F0001 []) = .next (after (serving sample 0x501F0001 [])) ∧
      (after (serving sample 0x501F0001 [])).responses =
        (serving sample 0x501F0001 []).responses ++ [⟨0x10, []⟩] ∧ statusUpdated 0x10 ≠ 0) ∧
    (step (serving (engine 4 []) 0xB0000000 []) =
        .next (after (serving (engine 4 []) 0xB0000000 [])) ∧
      (after (serving (engine 4 []) 0xB0000000 [])).responses =
        (serving (engine 4 []) 0xB0000000 []).responses ++ [⟨0x20, [0, 0, 0, 0, 0, 0, 0, 0]⟩] ∧
      statusEPath 0x20 ≠ 0) :=
  ⟨⟨step_after _, by decide +kernel, by decide⟩, step_after _, by decide +kernel, by decide⟩

theorem witness_EveryStepKeepsTheInvariants :
    Inv (serving sample 0x301F000F []) ∧
      step (serving sample 0x301F000F []) = .next (after (serving sample 0x301F000F [])) :=
  ⟨inv_serving inv_sample _ _, step_after _⟩

/-- A CONFIG changes CONFIGURED, and a reset does. -/
theorem witness_OnlyConfigAndResetChangeTheConfiguration :
    (step (serving State.reset 0x10100000 []) =
        .next (after (serving State.reset 0x10100000 [])) ∧
      (after (serving State.reset 0x10100000 [])).configured ≠
        (serving State.reset 0x10100000 []).configured) ∧
    (step (sample.withRequests [.reset none]) =
        .next (after (sample.withRequests [.reset none])) ∧
      (after (sample.withRequests [.reset none])).configured ≠
        (sample.withRequests [.reset none]).configured) :=
  ⟨⟨step_after _, by decide +kernel⟩, step_after _, by
    rw [after, step_reset (c := none) (rest := []) rfl]
    decide⟩

theorem witness_ResetInputUnconfigures :
    (sample.withRequests [.reset (some ⟨0x80000004, [1, 2]⟩), .reset none]).requests =
      .reset (some ⟨0x80000004, [1, 2]⟩) :: [.reset none] := rfl

/-- An engine that is not configured, and becomes so by the CONFIG on its port. -/
theorem witness_UnconfiguredArrayIsUnobservable :
    (serving State.reset 0x10040000 []).configured = false ∧
      (runFor 1 (serving State.reset 0x10040000 [])).configured = true := by decide +kernel

theorem witness_NopChangesNothing : (serving sample 0 []).pay = [] := rfl

/-- Both ends of [4,16], and the operands on either side. -/
theorem witness_ConfigSetsUpAnEmptyArray :
    sample.pay = [] ∧ (4 ≤ (4 : RegVal).toNat ∧ (4 : RegVal).toNat ≤ 16) ∧
      (4 ≤ (16 : RegVal).toNat ∧ (16 : RegVal).toNat ≤ 16) ∧
      ¬(4 ≤ (3 : RegVal).toNat ∧ (3 : RegVal).toNat ≤ 16) ∧
      ¬(4 ≤ (17 : RegVal).toNat ∧ (17 : RegVal).toNat ≤ 16) := by decide

theorem witness_QcfgReturnsTheConfiguration :
    (Inv State.reset ∧ State.reset.pay = []) ∧ (Inv (engine 16 []) ∧ (engine 16 []).pay = []) :=
  ⟨⟨inv_reset, rfl⟩, inv_empty (n := 16) (by decide), rfl⟩

/-- A hash whose bits below the bucket are all 0, and one where they are not. -/
theorem witness_HashrankReturnsBucketAndRank :
    (Inv (serving sample 0x60000000 (be32 0xF0000000)) ∧
      (serving sample 0x60000000 (be32 0xF0000000)).configured = true ∧
      (serving sample 0x60000000 (be32 0xF0000000)).pay = be32 0xF0000000 ∧
      (0xF0000000 : Word).toNat % 2 ^ (32 - sample.log2m.toNat) = 0) ∧
    (Inv (serving sample 0x60000000 (be32 0x00000001)) ∧
      (serving sample 0x60000000 (be32 0x00000001)).pay = be32 0x00000001 ∧
      (0x00000001 : Word).toNat % 2 ^ (32 - sample.log2m.toNat) ≠ 0) :=
  ⟨⟨inv_serving inv_sample _ _, rfl, rfl, by decide⟩, inv_serving inv_sample _ _, rfl, by decide⟩

theorem witness_RankRange : (4 ≤ 4 ∧ 4 ≤ 16) ∧ 4 ≤ 16 ∧ 16 ≤ 16 := by decide

/-- A batch of two hashes of one bucket, which leaves word 2 alone; and the empty batch. -/
theorem witness_AddRaisesTheBuckets :
    (Inv (serving sample 0x70000008 ([0x12345678#32, 0x1FFFFFFF#32].flatMap be32)) ∧
      sample.configured = true ∧
      (serving sample 0x70000008 ([0x12345678#32, 0x1FFFFFFF#32].flatMap be32)).pay =
        [0x12345678#32, 0x1FFFFFFF#32].flatMap be32 ∧
      ∀ h ∈ [0x12345678#32, 0x1FFFFFFF#32], 2 ≠ bucket sample.log2m.toNat h / 6) ∧
    (serving sample 0x70000000 []).pay = [].flatMap be32 :=
  ⟨⟨inv_serving inv_sample _ _, rfl, by simp only [State.pay, serving, State.withRequests],
    List.forall_mem_cons.2 ⟨by decide +kernel, List.forall_mem_cons.2 ⟨by decide +kernel, nofun⟩⟩⟩,
    rfl⟩

/-- The same two hashes in another order, split and repeated. -/
theorem witness_AddDependsOnTheSetOfHashesOnly :
    Inv sample ∧ sample.configured = true ∧
      (∀ hs ∈ [[1#32, 2#32]], 4 * hs.length < 65536) ∧
      (∀ gs ∈ [[2#32], [1#32, 2#32, 1#32], []], 4 * gs.length < 65536) ∧
      ∀ h, h ∈ [[1#32, 2#32]].flatten ↔ h ∈ [[2#32], [1#32, 2#32, 1#32], []].flatten :=
  ⟨inv_sample, rfl, by decide, by decide, by intro h; simp; tauto⟩

theorem witness_ClearZeroesTheRegisters :
    Inv sample ∧ sample.pay = [] ∧ sample.configured = true := ⟨inv_sample, rfl, rfl⟩

/-- The first register and the last, at LOG2M = 4 and at LOG2M = 16. -/
theorem witness_SetWritesOneRegister :
    (Inv sample ∧ sample.pay = [] ∧ sample.configured = true ∧ 0 < sample.count ∧
      15 < sample.count) ∧
    (Inv (engine 16 []) ∧ (engine 16 []).pay = [] ∧ (engine 16 []).configured = true ∧
      65535 < (engine 16 []).count) :=
  ⟨⟨inv_sample, rfl, rfl, by decide, by decide⟩, inv_empty (n := 16) (by decide), rfl, rfl, by decide +kernel⟩

theorem witness_GetReturnsTheRegister :
    sample.pay = [] ∧ sample.configured = true ∧ 0 < sample.count ∧ 15 < sample.count := by
  decide

/-- x[2] = 31: a value above it is not one of the register's, and 31 itself is not above it; x[1] = 0. -/
theorem witness_UpdmaxRaisesOneRegister :
    Inv sample ∧ sample.pay = [] ∧ sample.configured = true ∧ 2 < sample.count ∧
      ¬(sample.reg 2).toNat < (31 : RegVal).toNat ∧ (sample.reg 1).toNat < (1 : RegVal).toNat :=
  ⟨inv_sample, rfl, rfl, by decide, by decide, by decide⟩

/-- The blob of the regression scenario on the port of an engine. -/
def blobServing (cw : Word) : State :=
  serving sample cw ([0xF858028C#32, 0#32, 0x003E0000#32].flatMap be32)

theorem validBlob_of_check {s : State} {ws : List Word} (h : ws.length = s.size)
    (c : (List.range s.size).all (fun w => ws.getD w 0 &&& s.illegalMask w == 0) = true) :
    ValidBlob s ws :=
  ⟨h, fun w hw => beq_iff_eq.1 (List.all_eq_true.1 c w (List.mem_range.2 hw))⟩

theorem witness_LoadReplacesTheArray :
    Inv (blobServing 0x8000000C) ∧ (blobServing 0x8000000C).configured = true ∧
      (blobServing 0x8000000C).pay.length = 4 * (blobServing 0x8000000C).size ∧
      ValidBlob (blobServing 0x8000000C) (blobServing 0x8000000C).payWords :=
  ⟨inv_serving inv_sample _ _, rfl, by decide, validBlob_of_check (by decide) (by decide +kernel)⟩

theorem witness_MergeTakesTheMaximumOfEachRegister :
    Inv (blobServing 0x9000000C) ∧ (blobServing 0x9000000C).configured = true ∧
      (blobServing 0x9000000C).pay.length = 4 * (blobServing 0x9000000C).size ∧
      ValidBlob (blobServing 0x9000000C) (blobServing 0x9000000C).payWords :=
  ⟨inv_serving inv_sample _ _, rfl, by decide, validBlob_of_check (by decide) (by decide +kernel)⟩

theorem witness_MergeIsAJoin :
    Inv sample ∧ sample.configured = true ∧ ValidBlob sample [0xA04FF024, 0, 0] ∧
      ValidBlob sample [0xF858028C, 4, 0x003E0000] ∧ ValidBlob sample [0, 0, 0] :=
  ⟨inv_sample, rfl, validBlob_of_check (by decide) (by decide +kernel),
    validBlob_of_check (by decide) (by decide +kernel),
    validBlob_of_check (by decide) (by decide +kernel)⟩

theorem witness_SerReturnsTheBlob : sample.pay = [] ∧ sample.configured = true := by decide

theorem witness_SerAndLoadAreInverse :
    (Inv sample ∧ sample.configured = true ∧ sample.pay = [] ∧
      exec .ser sample = .next (afterExec .ser sample) ∧
      SameEngine sample (sample.withRequests [.txn ⟨0x8000000C,
        ((afterExec .ser sample).responses.getLast?.map Response.result).getD []⟩]) ∧
      (sample.withRequests [.txn ⟨0x8000000C,
        ((afterExec .ser sample).responses.getLast?.map Response.result).getD []⟩]).pay =
          ((afterExec .ser sample).responses.getLast?.map Response.result).getD []) ∧
    ValidBlob sample [0xF858028C, 4, 0x003E0000] :=
  ⟨⟨inv_sample, rfl, rfl, exec_after _ _, ⟨rfl, rfl, rfl, rfl, rfl⟩, rfl⟩,
    validBlob_of_check (by decide) (by decide +kernel)⟩

theorem witness_BytesneededReturnsTheBlobSize : State.reset.pay = [] := rfl

/-- Neighbours at both ends of the range, and a blob of LOG2M = 5 sent to an engine at 4. -/
theorem witness_SizeSeparatesConfigurations :
    (4 ≤ 4 ∧ 4 < 5 ∧ 5 ≤ 16) ∧ (4 ≤ 15 ∧ 15 < 16 ∧ 16 ≤ 16) ∧
      (Inv (serving sample 0x90000018 (List.replicate 24 0)) ∧
        (serving sample 0x90000018 (List.replicate 24 0)).configured = true ∧
        5 ≠ (serving sample 0x90000018 (List.replicate 24 0)).log2m.toNat ∧
        (serving sample 0x90000018 (List.replicate 24 0)).pay.length = 4 * sizeWords 5) :=
  ⟨by decide, by decide, inv_serving inv_sample _ _, rfl, by decide, by decide⟩

/-- A word before the last, and the last, at an even and at an odd LOG2M (V-RS-2). -/
theorem witness_DefaultLayoutHasTheTabledMasks :
    (4 ≤ 4 ∧ 4 ≤ 16 ∧ 1 < sizeWords 4 ∧ 1 + 1 < sizeWords 4) ∧
      (2 < sizeWords 4 ∧ ¬2 + 1 < sizeWords 4 ∧ 4 % 2 = 0) ∧
      (5 ≤ 16 ∧ 5 < sizeWords 5 ∧ ¬5 + 1 < sizeWords 5 ∧ ¬5 % 2 = 0) := by decide

theorem witness_OnlyOverwritesLowerARegister :
    Inv (blobServing 0x9000000C) ∧ (blobServing 0x9000000C).configured = true ∧
      0 < (blobServing 0x9000000C).count ∧ 15 < (blobServing 0x9000000C).count ∧
      exec (.updmax 31 0) sample = .next (afterExec (.updmax 31 0) sample) ∧
      exec (.add 12) (blobServing 0x7000000C) =
        .next (afterExec (.add 12) (blobServing 0x7000000C)) ∧
      exec (.merge 12) (blobServing 0x9000000C) =
        .next (afterExec (.merge 12) (blobServing 0x9000000C)) :=
  ⟨inv_serving inv_sample _ _, rfl, by decide, by decide, exec_after _ _, exec_after _ _,
    exec_after _ _⟩

theorem witness_ReadingCommandsCanBeRepeated :
    exec .ser sample = .next (afterExec .ser sample) ∧
      Answered sample (afterExec .ser sample) 0
        [0xA0, 0x4F, 0xF0, 0x24, 0, 0, 0, 0, 0x00, 0x3E, 0, 0] ∧
      SameEngine (afterExec .ser sample) (afterExec .ser sample) ∧
      (afterExec .ser sample).pay = sample.pay :=
  ⟨exec_after _ _, by unfold Answered; decide +kernel, ⟨rfl, rfl, rfl, rfl, rfl⟩,
    by decide +kernel⟩

theorem witness_WritingCommandsAreIdempotent :
    Inv (blobServing 0x9000000C) ∧
      exec (.merge 12) (blobServing 0x9000000C) =
        .next (afterExec (.merge 12) (blobServing 0x9000000C)) ∧
      SameEngine (afterExec (.merge 12) (blobServing 0x9000000C))
        ((afterExec (.merge 12) (blobServing 0x9000000C)).withRequests
          (blobServing 0x9000000C).requests) ∧
      ((afterExec (.merge 12) (blobServing 0x9000000C)).withRequests
        (blobServing 0x9000000C).requests).pay = (blobServing 0x9000000C).pay :=
  ⟨inv_serving inv_sample _ _, exec_after _ _, sameEngine_withRequests _ _,
    by simp only [State.pay, State.withRequests]⟩

/-- An engine on each of the three branches, V-EST-1, V-EST-11 and V-EST-5; the next theorem adds the
invariants. -/
theorem witness_EstimateFollowsItsPseudocode :
    ((engine 4 []).pay = [] ∧ (engine 4 []).configured = true ∧
      (engine 4 []).estimate = (.linear, 0)) ∧
    ((engine 4 [0xFFFFFFFC, 0xFFFFFFFC, 0x003FFFFC]).pay = [] ∧
      (engine 4 [0xFFFFFFFC, 0xFFFFFFFC, 0x003FFFFC]).estimate = (.raw, 23124103922)) ∧
    ((engine 4 [0x08421084, 0x08421084, 0x00021084]).pay = [] ∧
      (engine 4 [0x08421084, 0x08421084, 0x00021084]).estimate = (.fallback, 22)) := by
  decide +kernel

theorem witness_EstimateFollowsItsPseudocode_inv :
    Inv sample ∧ sample.pay = [] ∧ sample.configured = true := ⟨inv_sample, rfl, rfl⟩

theorem witness_EmptyArrayEstimatesZero :
    (Inv (engine 4 []) ∧ (engine 4 []).pay = [] ∧ (engine 4 []).configured = true ∧
      ∀ p, p < (engine 4 []).count → (engine 4 []).reg p = 0) ∧
    (Inv (engine 5 []) ∧ ∀ p, p < (engine 5 []).count → (engine 5 []).reg p = 0) :=
  ⟨⟨inv_empty (n := 4) (by decide), rfl, rfl, by decide +kernel⟩, inv_empty (n := 5) (by decide), by decide +kernel⟩

theorem witness_EstimateIsBelowTwoToThe47 :
    Inv (engine 16 []) ∧ (engine 16 []).configured = true := ⟨inv_empty (n := 16) (by decide), rfl⟩

/-- fl64(1/3) and its neighbour; and fl64(1 + 2^-53), a tie. -/
theorem witness_Fl64RoundsToNearestTiesToEven :
    (0 < 3 ∧ (fl64 1 3).toNat < b64Inf ∧ (fl64 1 3 + 1).toNat < b64Inf) ∧
      (fl64 (2 ^ 53 + 1) (2 ^ 53)).toNat < b64Inf ∧
      (0x3FF0000000000001#64).toNat < b64Inf ∧
      0x3FF0000000000001#64 ≠ fl64 (2 ^ 53 + 1) (2 ^ 53) := by decide +kernel

/-- q = 2.0 and q = 1.0, settled by the enclosure; both ends of the range of zeros. -/
theorem witness_DefaultLogarithmIsNearest :
    (lnSettled 0x4000000000000000#64 = true ∧ (0x3FE62E42FEFA39EF#64).toNat < b64Inf) ∧
      lnSettled 0x3FF0000000000000#64 = true ∧ (1 ≤ 1 ∧ 1 ≤ 16) ∧ 1 ≤ 16 ∧ 16 ≤ 16 := by
  decide +kernel

theorem witness_AddmembersBuildsTheSketch :
    Inv sample ∧ sample.configured = true ∧ ∀ h ∈ [0, 2 ^ 32 - 1], h < 2 ^ 32 :=
  ⟨inv_sample, rfl, by decide⟩

theorem witness_BmergeReturnsTheMaximum :
    Inv sample ∧ sample.configured = true ∧ ValidBlob sample [0xA04FF024, 0, 0] ∧
      ValidBlob sample [0xF858028C, 4, 0x003E0000] :=
  ⟨inv_sample, rfl, validBlob_of_check (by decide) (by decide +kernel),
    validBlob_of_check (by decide) (by decide +kernel)⟩

theorem witness_EstcardReturnsTheEstimateOfTheBlob :
    Inv sample ∧ sample.configured = true ∧ ValidBlob sample [0x0004001C, 0x00001000, 0x00080000] :=
  ⟨inv_sample, rfl, validBlob_of_check (by decide) (by decide +kernel)⟩

/-- Two hosts with one ADD each, granted in both orders. -/
theorem witness_AddsCommuteUnderEveryGrantOrder :
    (Inv sample ∧ sample.configured = true ∧
      ∀ host ∈ [[[1#32]], [[2#32]]], ∀ hs ∈ host, 4 * hs.length < 65536) ∧
    GrantOrder ([[[1#32]], [[2#32]]].map fun host => host.map addTxn)
      [addTxn [1#32], addTxn [2#32]] ∧
    GrantOrder ([[[1#32]], [[2#32]]].map fun host => host.map addTxn)
      [addTxn [2#32], addTxn [1#32]] :=
  ⟨⟨inv_sample, rfl, by decide⟩,
    .grant [] [[addTxn [2#32]]] _ [] _
      (.grant [[]] [] _ [] _ (.done _ (by simp))),
    .grant [[addTxn [1#32]]] [] _ [] _
      (.grant [] [[]] _ [] _ (.done _ (by simp)))⟩

/-- An ESTIMATE, whose response has 12 bytes. -/
theorem witness_ResponseBytesFollowTheStatusWord :
    (serving (engine 4 []) 0xB0000000 []).requests = .txn ⟨0xB0000000, []⟩ :: [] ∧
      step (serving (engine 4 []) 0xB0000000 []) =
        .next (after (serving (engine 4 []) 0xB0000000 [])) ∧
      (after (serving (engine 4 []) 0xB0000000 [])).responses =
        (serving (engine 4 []) 0xB0000000 []).responses ++ [⟨0x20, [0, 0, 0, 0, 0, 0, 0, 0]⟩] ∧
      0 < (⟨0x20, [0, 0, 0, 0, 0, 0, 0, 0]⟩ : Response).bytes.length ∧
      11 < (⟨0x20, [0, 0, 0, 0, 0, 0, 0, 0]⟩ : Response).bytes.length :=
  ⟨rfl, step_after _, by decide +kernel, by decide, by decide⟩

end Sys2Proof.Tests
end

/-! SUPPORT. The family 00_scope.md: `fl64` rounds to the nearest binary64 value (R11), a failed
command has no effect (R13, R111), and ESTIMATE follows its pseudocode (R92 to R99). -/

namespace Sys2Proof.Machine

/-! ### Rounding to binary64 (R11) -/

/-- No integer is nearer to `n / d` than the one `roundHalfEven` picks, and that one is even when
another is as near. -/
theorem roundHalfEven_nearest (n : Nat) {d : Nat} (hd : 0 < d) (k : Nat) :
    |(roundHalfEven n d * d : ℤ) - n| ≤ |(k * d : ℤ) - n| ∧
      (|(roundHalfEven n d * d : ℤ) - n| = |(k * d : ℤ) - n| → k ≠ roundHalfEven n d →
        roundHalfEven n d % 2 = 0) := by
  obtain ⟨low, high, tie⟩ := roundHalfEven_spec n hd
  generalize roundHalfEven n d = r at *
  simp only [add_mul, mul_assoc, one_mul] at low high tie
  simp only [← Nat.cast_mul, Int.abs_eq_natAbs]
  rcases lt_trichotomy k r with h | rfl | h
  · have : (k + 1) * d ≤ r * d := Nat.mul_le_mul_right d h
    rw [add_mul, one_mul] at this
    omega
  · exact ⟨le_rfl, fun _ h => (h rfl).elim⟩
  · have : (r + 1) * d ≤ k * d := Nat.mul_le_mul_right d h
    rw [add_mul, one_mul] at this
    omega

/-- A finite pattern with sign 0 as an exponent and a significand, which has its top bit when the
exponent is not the subnormals'. -/
theorem b64Scaled_split {b : B64} (hb : b.toNat < b64Inf) :
    ∃ e m, 1 ≤ e ∧ m < 2 ^ 53 ∧ (1 < e → 2 ^ 52 ≤ m) ∧ b.toNat = 2 ^ 52 * (e - 1) + m ∧
      b64Scaled b = 2 ^ e * m := by
  have hf : b64Frac b < 2 ^ 52 := slice_lt _ _ _
  have hN : b.toNat = 2 ^ 52 * b64Exp b + b64Frac b := by
    simp only [b64Exp, b64Frac, slice, b64Inf] at *
    omega
  by_cases h : b64Exp b = 0
  · exact ⟨1, b64Frac b, le_rfl, by omega, by omega, by omega, by rw [b64Scaled, if_pos h, pow_one]⟩
  · exact ⟨b64Exp b, 2 ^ 52 + b64Frac b, by omega, by omega, by omega, by omega,
      by rw [b64Scaled, if_neg h]⟩

/-- A significand in a lower binade gives a value below the bottom of a higher one. -/
theorem lower_binade_lt {e E m : Nat} (he : e < E) (hm : m < 2 ^ 53) :
    2 ^ e * m < 2 ^ E * 2 ^ 52 :=
  calc 2 ^ e * m < 2 ^ e * 2 ^ 53 := by gcongr
    _ = 2 ^ (e + 1) * 2 ^ 52 := by ring
    _ ≤ 2 ^ E * 2 ^ 52 := by gcongr <;> omega

/-- Finite patterns with sign 0 stand in the order of their values. -/
theorem b64Scaled_strictMono {a b : B64} (hb : b.toNat < b64Inf) (h : a.toNat < b.toNat) :
    b64Scaled a < b64Scaled b := by
  obtain ⟨e, m, he, hm, hem, ha, va⟩ := b64Scaled_split (h.trans hb)
  obtain ⟨f, k, hf, hk, hfk, hb, vb⟩ := b64Scaled_split hb
  rw [va, vb]
  rcases lt_trichotomy e f with l | rfl | l
  · exact (lower_binade_lt l hm).trans_le (Nat.mul_le_mul_left _ (hfk (by omega)))
  · exact Nat.mul_lt_mul_of_pos_left (by omega) (by positivity)
  · have := hem (by omega)
    omega

/-- Different finite patterns with sign 0 have different values. -/
theorem b64Scaled_injective {a b : B64} (ha : a.toNat < b64Inf) (hb : b.toNat < b64Inf)
    (h : b64Scaled a = b64Scaled b) : a = b := by
  rcases lt_trichotomy a.toNat b.toNat with l | e | l
  · exact absurd h (b64Scaled_strictMono hb l).ne
  · exact BitVec.eq_of_toNat_eq e
  · exact absurd h (b64Scaled_strictMono ha l).ne'

/-- R11 with the denominators cleared: no finite value is nearer to `n / d` than `fl64 n d`, whose
pattern is even when another is as near. A value of the operand's binade or above is a whole number
of its units, of which `roundHalfEven` picks the nearest; a value of a lower binade is farther off
than the binade's bottom. -/
theorem fl64_nearest_scaled {n d : Nat} {b : B64} (hd : 0 < d) (hf : (fl64 n d).toNat < b64Inf)
    (hb : b.toNat < b64Inf) :
    |((b64Scaled (fl64 n d) * d : Nat) : ℤ) - (b64Unit * n : Nat)| ≤
        |((b64Scaled b * d : Nat) : ℤ) - (b64Unit * n : Nat)| ∧
      (|((b64Scaled (fl64 n d) * d : Nat) : ℤ) - (b64Unit * n : Nat)| =
          |((b64Scaled b * d : Nat) : ℤ) - (b64Unit * n : Nat)| →
        b ≠ fl64 n d → (fl64 n d).toNat % 2 = 0) := by
  obtain ⟨pattern, value⟩ := fl64_finite hd hf
  obtain ⟨e, m, he, hm, -, -, vb⟩ := b64Scaled_split hb
  have near := roundHalfEven_nearest (b64Unit * n) (d := 2 ^ binadeOf n d * d) (by positivity)
  have even : roundedSig n d % 2 = 0 → (fl64 n d).toNat % 2 = 0 := by omega
  have hv : b64Scaled (fl64 n d) * d = roundedSig n d * (2 ^ binadeOf n d * d) := by
    rw [value]
    ring
  simp only [← Nat.cast_mul] at near
  rw [hv]
  rcases Nat.lt_or_ge e (binadeOf n d) with lower | upper
  · have hn := (binadeOf_spec n hd).2 (by omega)
    have hB : b64Scaled b * d < 2 ^ 52 * (2 ^ binadeOf n d * d) := by
      rw [vb, ← mul_assoc, mul_comm (2 ^ 52)]
      exact Nat.mul_lt_mul_of_pos_right (lower_binade_lt lower hm) hd
    have bottom := (near (2 ^ 52)).1
    rw [← roundedSig] at bottom
    simp only [Int.abs_eq_natAbs] at bottom ⊢
    omega
  · have hk : b64Scaled b * d = 2 ^ (e - binadeOf n d) * m * (2 ^ binadeOf n d * d) := by
      rw [vb, ← pow_sub_mul_pow 2 upper]
      ring
    obtain ⟨le, tie⟩ := near (2 ^ (e - binadeOf n d) * m)
    rw [hk]
    refine ⟨le, fun h hne => even (tie h fun same => hne (b64Scaled_injective hb hf ?_))⟩
    rw [← roundedSig] at same
    exact Nat.eq_of_mul_eq_mul_right hd (by rw [hk, hv, same])

/-- The distance of a value from a quotient, over their common denominator. -/
theorem abs_div_sub_div (v : Nat) {u d : Nat} (n : Nat) (hu : 0 < u) (hd : 0 < d) :
    |(v : ℚ) / u - (n : ℚ) / d| = (|((v * d : Nat) : ℤ) - (u * n : Nat)| : ℤ) / ((u : ℚ) * d) := by
  have hu' : (0 : ℚ) < u := by exact_mod_cast hu
  have hd' : (0 : ℚ) < d := by exact_mod_cast hd
  rw [div_sub_div _ _ hu'.ne' hd'.ne', abs_div, abs_of_pos (mul_pos hu' hd')]
  push_cast
  rfl

/-- The common denominator of all finite values is positive. -/
theorem b64Unit_pos : 0 < b64Unit := by
  unfold b64Unit
  positivity

/-- Settles O51: distances from n / d are compared over the common denominator of all values. -/
theorem fl64RoundsToNearestTiesToEven : Obligations.Fl64RoundsToNearestTiesToEven := by
  intro n d b hd hf hb
  have hc : (0 : ℚ) < (b64Unit : ℚ) * d := by
    exact_mod_cast Nat.mul_pos b64Unit_pos hd
  obtain ⟨le, tie⟩ := fl64_nearest_scaled hd hf hb
  simp only [abs_div_sub_div _ n b64Unit_pos hd, div_le_div_iff_of_pos_right hc,
    div_left_inj' hc.ne', Int.cast_le, Int.cast_inj]
  exact ⟨le, tie⟩

/-! ### Exact values (R91, R92) -/

/-- `roundHalfEven` keeps a whole number. -/
theorem roundHalfEven_mul_of_dvd {n d : Nat} (hd : 0 < d) (h : d ∣ n) :
    roundHalfEven n d * d = n := by
  obtain ⟨k, rfl⟩ := h
  have near := (roundHalfEven_nearest (d * k) hd k).1
  simp only [← Nat.cast_mul, Int.abs_eq_natAbs, mul_comm k d] at near
  omega

/-- The unit of the binade of `n / 2^k` is at most `2^-k` when `n` has at most 53 bits. -/
theorem binadeOf_two_pow_le {n k : Nat} (hn : n < 2 ^ 53) (hk : k < 1075) :
    binadeOf n (2 ^ k) + k ≤ 1075 := by
  by_contra h
  have bottom := (binadeOf_spec n (d := 2 ^ k) (by positivity)).2 (by omega)
  have : 2 ^ 52 * 2 ^ 1076 ≤ 2 ^ 52 * (2 ^ binadeOf n (2 ^ k) * 2 ^ k) := by
    rw [← pow_add _ _ k]
    gcongr <;> omega
  have : b64Unit * n < 2 ^ 1075 * 2 ^ 53 := by
    rw [b64Unit]
    gcongr
  have : 2 ^ 52 * 2 ^ 1076 = 2 ^ 1075 * 2 ^ 53 := by
    rw [← pow_add, ← pow_add]
  omega

/-- `fl64` is finite for an operand whose binade is not near the top. -/
theorem fl64_lt_inf {n d : Nat} (hd : 0 < d) (h : binadeOf n d ≤ 2045) :
    (fl64 n d).toNat < b64Inf := by
  have := (roundedSig_range n hd).1
  rw [fl64, BitVec.toNat_ofNat, ← roundedSig]
  refine lt_of_le_of_lt (Nat.mod_le _ _) (lt_of_le_of_lt (Nat.min_le_right _ _) ?_)
  rw [b64Inf]
  omega

/-- A quotient by a power of two with at most 53 significant bits is a finite value, and `fl64` keeps
it: the unit of its binade divides it. -/
theorem fl64_two_pow {n k : Nat} (hn : n < 2 ^ 53) (hk : k < 1075) :
    b64Scaled (fl64 n (2 ^ k)) * 2 ^ k = b64Unit * n := by
  have hE := binadeOf_two_pow_le hn hk
  have hd : 0 < 2 ^ k := by positivity
  obtain ⟨-, value⟩ := fl64_finite hd (fl64_lt_inf (n := n) hd (by omega))
  have unit : 2 ^ binadeOf n (2 ^ k) * 2 ^ k ∣ b64Unit * n := by
    rw [← pow_add]
    exact Dvd.dvd.mul_right (pow_dvd_pow 2 hE) n
  rw [value, mul_right_comm, mul_comm, roundedSig, roundHalfEven_mul_of_dvd (by positivity) unit]

/-- Such a quotient is exact in binary64. -/
theorem b64Value_fl64_two_pow {n k : Nat} (hn : n < 2 ^ 53) (hk : k < 1075) :
    b64Value (fl64 n (2 ^ k)) = (n : ℚ) / 2 ^ k := by
  have hu : (b64Unit : ℚ) ≠ 0 := by exact_mod_cast b64Unit_pos.ne'
  rw [b64Value, div_eq_div_iff hu (by positivity), mul_comm (n : ℚ)]
  exact_mod_cast fl64_two_pow hn hk

/-! ### A failed command (R13, R111) -/

/-- A command that passes its checks is answered with ECODE 0 (R59, R107). -/
theorem effectOf_responses {i : Instr} {s : State} (h : firstError i s = none) :
    ∃ updated path result,
      (effectOf i s).responses = s.responses ++ [⟨statusWord 0 updated path, result⟩] := by
  cases i
  case illegalE => cases h
  case illegalF => cases h
  all_goals exact ⟨_, _, _, rfl⟩

/-- A transaction that is answered with ECODE different from 0 was answered by one of the checks, and
has left the port with nothing else done (R111). -/
theorem step_failed {s t : State} {x : Txn} {rest : List Request} {r : Response}
    (hs : s.requests = .txn x :: rest) (hstep : step s = .next t)
    (hr : t.responses = s.responses ++ [r]) (hc : statusECode r.status ≠ 0) :
    ∃ e, t = s.respond (errorStatus e) [] := by
  rcases step_cases hstep with ⟨he, -⟩ | ⟨c, rest', he, -⟩ | ⟨y, rest', -, ⟨-, -, ht⟩ | ⟨i, -, hi⟩⟩
  · rw [hs] at he
    cases he
  · rw [hs] at he
    cases he
  · exact ⟨_, ht⟩
  · rcases exec_cases hi with ⟨e, -, ht⟩ | ⟨pass, rfl⟩
    · exact ⟨e, ht⟩
    · obtain ⟨updated, path, result, ho⟩ := effectOf_responses pass
      rw [ho, List.append_cancel_left_eq, List.singleton_inj] at hr
      exact absurd (by rw [← hr]; exact statusECode_statusWord (by decide) _ _) hc

/-- Settles O13: such a response is an error response. -/
theorem failedCommandHasNoEffect : Obligations.FailedCommandHasNoEffect := by
  intro s t x rest r hs hstep hr hc
  obtain ⟨e, rfl⟩ := step_failed hs hstep hr hc
  rw [State.respond_responses, List.append_cancel_left_eq, List.singleton_inj] at hr
  subst hr
  exact ⟨sameEngine_respond _ _ _, by rw [statusECode_errorStatus, errorStatus_eq], rfl⟩

/-! ### ESTIMATE (R92 to R99) -/

/-- `roundHalfUp` is ⌊x + 1/2⌋ of the exact value (R11). -/
theorem roundHalfUp_eq_floor (x : B64) : roundHalfUp x = ⌊b64Value x + 1 / 2⌋₊ := by
  have hu : (b64Unit : ℚ) ≠ 0 := by exact_mod_cast b64Unit_pos.ne'
  have : b64Value x + 1 / 2 =
      ((b64Unit + 2 * b64Scaled x : Nat) : ℚ) / ((2 * b64Unit : Nat) : ℚ) := by
    rw [b64Value]
    push_cast
    field_simp
    ring
  rw [this, Nat.floor_div_eq_div, roundHalfUp]

/-- The comparison of two values is of their exact values (R95). -/
theorem b64Le_iff (a b : B64) : b64Le a b = true ↔ b64Value a ≤ b64Value b := by
  have hu : (0 : ℚ) < b64Unit := by exact_mod_cast b64Unit_pos
  rw [b64Le, decide_eq_true_eq, b64Value, b64Value, div_le_div_iff_of_pos_right hu, Nat.cast_le]

/-- THRESH is exactly 2.5 · COUNT, at every LOG2M of 5 bits (R91). -/
theorem b64Value_thresh {n : Nat} (hn : n < 32) :
    b64Value (thresh n) = 5 / 2 * (countOf n : ℚ) := by
  have : countOf n ≤ 2 ^ 31 := Nat.pow_le_pow_right (by decide) (by omega)
  have := b64Value_fl64_two_pow (n := 5 * countOf n) (k := 1) (by omega) (by omega)
  rw [pow_one] at this
  rw [thresh, this]
  push_cast
  ring

/-- Branch selection by the exact values (R95). -/
theorem estimatePath_eq {n : Nat} (hn : n < 32) (zeros : Nat) (raw : B64) :
    estimatePath n zeros raw =
      if b64Value raw ≤ 5 / 2 * (countOf n : ℚ) then (if 0 < zeros then .linear else .fallback)
      else .raw := by
  simp only [estimatePath, b64Le_iff, b64Value_thresh hn]

/-- The branch and the estimate by the exact values (R95 to R98). -/
theorem estimateOf_eq (c : LnChoice) {n : Nat} (hn : n < 32) (sum zeros : Nat) :
    estimateOf c n sum zeros =
      if b64Value (rawEstimate n sum) ≤ 5 / 2 * (countOf n : ℚ) then
        if 0 < zeros then
          (.linear, ⌊b64Value (fl64Mul (b64OfNat (countOf n))
            (ln64 c (fl64 (countOf n) zeros))) + 1 / 2⌋₊)
        else (.fallback, ⌊b64Value (rawEstimate n sum) + 1 / 2⌋₊)
      else (.raw, ⌊b64Value (rawEstimate n sum) + 1 / 2⌋₊) := by
  have path := estimatePath_eq hn zeros (rawEstimate n sum)
  simp only [← roundHalfUp_eq_floor]
  split_ifs at path ⊢
  · exact Prod.ext path (estimateOf_linear path)
  · exact Prod.ext path (estimateOf_raw (by simp [path]))
  · exact Prod.ext path (estimateOf_raw (by simp [path]))

/-- The estimate of an array is that of its S and its zeros (R92, R93). -/
theorem State.estimate_eq (s : State) :
    s.estimate = estimateOf s.params.ln s.log2m.toNat
      (∑ p ∈ Finset.range s.count, 2 ^ (31 - (s.reg p).toNat))
      ((Finset.range s.count).filter fun p => s.reg p = 0).card := by
  rw [State.estimate, registerSumInt_eq, zerosCount_eq, State.count]

/-- S is below 2^48: at most 2^31 for each of at most 65536 registers (R92). -/
theorem sum_two_pow_lt {count : Nat} (hc : count ≤ 65536) (x : Nat → RegVal) :
    ∑ p ∈ Finset.range count, 2 ^ (31 - (x p).toNat) < 2 ^ 48 := by
  have : ∑ p ∈ Finset.range count, 2 ^ (31 - (x p).toNat) ≤ count * 2 ^ 31 := by
    simpa using Finset.sum_le_card_nsmul (Finset.range count) _ (2 ^ 31) fun p _ =>
      Nat.pow_le_pow_right (n := 2) (by decide) (Nat.sub_le 31 _)
  omega

/-- Settles O46: `estimateOf_eq` for the sum and the zeros of the array; S·2^−31 and COUNT have fewer
than 53 bits, so they are exact. -/
theorem estimateFollowsItsPseudocode : Obligations.EstimateFollowsItsPseudocode := by
  intro s hp hc
  refine ⟨_, s.estimate.2, epathNumber s.estimate.1,
    exec_pass ((firstError_estimate s).2 ⟨hp, hc⟩), sameEngine_respond _ _ _, ?_, ?_⟩
  · rw [← epathStatus_eq]
    exact answered_respond _ _ _
  rintro sum zeros raw rfl rfl rfl
  refine ⟨fun inv => ⟨?_, ?_⟩, ?_⟩
  · have := sum_two_pow_lt inv.count_le s.reg
    exact b64Value_fl64_two_pow (by omega) (by omega)
  · have := inv.count_le
    simpa [b64OfNat] using b64Value_fl64_two_pow (n := s.count) (k := 0) (by omega) (by omega)
  · rw [State.estimate_eq, estimateOf_eq _ s.log2m.isLt, rawEstimate, ← State.count]
    split_ifs <;> exact ⟨rfl, rfl⟩

end Sys2Proof.Machine

/-! SUPPORT. The family 10_state.md: a step executes the command at the head of the port (R15, R45), the
invariants hold at reset and every step keeps them (R23 to R25, R30), what changes CFG and what it reads
as (R21, R29), the array of an unconfigured engine cannot be observed (R29), requests execute in port
order (R126), and CLEAR, SET and ADD (R18, R71 to R77). -/

namespace Sys2Proof.Machine

/-! ### The array replaced, and the invariants (R23 to R25, R30) -/

/-- No bit of a word at or beyond SIZE holds a register (R39). -/
theorem State.illegalMask_beyond (s : State) {w : Nat} (hw : s.size ≤ w) :
    s.illegalMask w = BitVec.allOnes 32 := by
  rw [State.illegalMask, Machine.illegalMask, State.count, usedMask_beyond _ hw]
  rfl

/-- An array may be replaced by one in the form that has no bit outside a register: the words from SIZE
on hold no register, so they are 0. -/
theorem Inv.withRa {s : State} (h : Inv s) {m : Memory} (form : m.wf = true)
    (clean : ∀ w, m.read w &&& s.illegalMask w = 0) : Inv (s.withRa m) where
  config := h.config
  form := form
  clean _ w _ := clean w
  beyond _ w hw := by
    have zero := clean w
    rwa [s.illegalMask_beyond hw, BitVec.and_allOnes] at zero
  layout := h.layout

/-- CLEAR's array (R76). -/
theorem Inv.withRa_clearBelow {s : State} (h : Inv s) (c : s.configured = true) (n : Nat) :
    Inv (s.withRa (s.ra.clearBelow n)) := by
  refine h.withRa (Memory.wf_clearBelow h.form _) fun w => ?_
  rw [Memory.read_clearBelow h.form]
  split
  · exact BitVec.zero_and
  · exact h.clean_all c w

/-- SET's array (R77). -/
theorem Inv.withRa_writeReg {s : State} (h : Inv s) (c : s.configured = true) {p : Nat}
    (hp : p < s.count) (v : RegVal) : Inv (s.withRa (writeReg s.params.fieldShift s.ra p v)) :=
  h.withRa (wf_writeReg _ h.form (h.wordOf_lt hp).2 v)
    fun w => clean_writeReg h.form hp v (h.clean_all c w)

/-- The array after one raise, UPDMAX's (R79). -/
theorem Inv.withRa_raiseReg {s : State} (h : Inv s) (c : s.configured = true) {p : Nat}
    (hp : p < s.count) (v : RegVal) :
    Inv (s.withRa (raiseReg s.params.fieldShift s.ra p v).1) :=
  h.withRa (wf_raiseReg _ h.form (h.wordOf_lt hp).2 v)
    fun w => clean_raiseReg h.form hp v (h.clean_all c w)

/-- Registers below COUNT lie within the array (R16, R17). -/
theorem Inv.words_lt {s : State} (h : Inv s) {ps : List (Nat × RegVal)}
    (hp : ∀ x ∈ ps, x.1 < s.count) : ∀ x ∈ ps, wordOf x.1 < numWordsMax :=
  fun x hx => (h.wordOf_lt (hp x hx)).2

/-- The array after a list of raises, ADD's and MERGE's (R71, R82). -/
theorem Inv.withRa_raiseAll {s : State} (h : Inv s) (c : s.configured = true)
    {ps : List (Nat × RegVal)} (hp : ∀ x ∈ ps, x.1 < s.count) :
    Inv (s.withRa (raiseAll s.params.fieldShift ps s.ra).1) :=
  h.withRa (wf_raiseAll _ h.form (h.words_lt hp))
    fun w => clean_raiseAll h.form (h.words_lt hp) hp (h.clean_all c w)

/-- LOAD's array (R75, R81). -/
theorem Inv.withRa_store {s : State} (h : Inv s) (c : s.configured = true) {ws : List Word}
    (len : ws.length = s.size) (valid : blobValid s.params.fieldShift s.count ws = true) :
    Inv (s.withRa (s.ra.store ws)) := by
  refine h.withRa (Memory.wf_store h.form (len ▸ h.size_le)) fun w => ?_
  rw [Memory.read_store h.form]
  split
  · exact (blobValid_iff _ _ _).1 valid w ‹_›
  · exact h.clean_all c w

/-- CONFIG's state: every word is 0 (R105). -/
theorem Inv.withConfig {s : State} (h : Inv s) {v : RegVal} (hv : 4 ≤ v.toNat ∧ v.toNat ≤ 16) :
    Inv ((s.withConfig v).withRa []) where
  config := .inr ⟨rfl, hv⟩
  form := Memory.wf_nil
  clean _ _ _ := BitVec.zero_and
  beyond _ _ _ := rfl
  layout := h.layout

/-- The buckets of a batch name registers below COUNT (R67). -/
theorem Inv.batchPairs_lt {s : State} (h : Inv s) (hs : List Word) :
    ∀ x ∈ batchPairs s.log2m.toNat hs, x.1 < s.count :=
  fun _ => mem_batchPairs h.log2m_le

/-- The effect of a command whose checks have passed keeps the invariants. -/
theorem Inv.effectOf {s : State} (h : Inv s) {i : Instr} (pass : firstError i s = none) :
    Inv (effectOf i s) := by
  cases i with
  | config v => exact (h.withConfig ((firstError_config v s).1 pass).2).respond _ _
  | clear => exact (h.withRa_clearBelow ((firstError_clear s).1 pass).2 _).respond _ _
  | set v p =>
    obtain ⟨-, c, hp⟩ := (firstError_set v p s).1 pass
    exact (h.withRa_writeReg c hp v).respond _ _
  | updmax v p =>
    obtain ⟨-, c, hp⟩ := (firstError_updmax v p s).1 pass
    exact (h.withRa_raiseReg c hp v).respond _ _
  | add p =>
    obtain ⟨-, -, c⟩ := (firstError_add p s).1 pass
    exact (h.withRa_raiseAll c (h.batchPairs_lt _)).respond _ _
  | load p =>
    obtain ⟨len, c, size, valid⟩ := (firstError_load p s).1 pass
    have words : s.payWords.length = s.size := by
      rw [State.payWords, beWords_length]
      omega
    exact (h.withRa_store c words valid).respond _ _
  | merge p =>
    obtain ⟨-, c, -, -⟩ := (firstError_merge p s).1 pass
    exact (h.withRa_raiseAll c fun _ => mem_blobRegs).respond _ _
  | illegalE r => exact h
  | illegalF r => exact h
  | nop | get _ | hashrank | ser | estimate | bytesneeded _ | qcfg => exact h.respond _ _

/-- Every command keeps the invariants. -/
theorem Inv.exec {s t : State} {i : Instr} (h : Inv s) (ht : exec i s = .next t) : Inv t := by
  rcases exec_cases ht with ⟨e, -, rfl⟩ | ⟨pass, rfl⟩
  · exact h.respond _ _
  · exact h.effectOf pass

/-- The reset input leaves the engine unconfigured, with an array in the form (R120). -/
theorem Inv.takeReset {s t : State} (h : Inv s) (ht : takeReset s = .next t) : Inv t := by
  cases ht
  exact ⟨.inl ⟨rfl, rfl⟩, wf_freeArray _, nofun, nofun, h.layout⟩

/-- Settles O17, along everything a step can do. -/
theorem everyStepKeepsTheInvariants : Obligations.EveryStepKeepsTheInvariants := by
  intro s t h hstep
  rcases step_cases hstep with ⟨-, rfl⟩ | ⟨-, -, -, ht⟩ | ⟨-, -, -, ⟨-, -, rfl⟩ | ⟨i, -, ht⟩⟩
  · exact h
  · exact h.takeReset ht
  · exact h.respond _ _
  · exact h.exec ht

/-- Settles O16: unconfigured, an empty array, and the default layout, which is legal. -/
theorem resetMeetsTheInvariants : Obligations.ResetMeetsTheInvariants :=
  ⟨.inl ⟨rfl, rfl⟩, Memory.wf_nil, nofun, nofun, defaultFieldShift_legal⟩

/-! ### The step and the configuration (R15, R21, R29, R105, R120) -/

/-- Settles O8: RESERVED_FIELD is status 2. -/
theorem stepExecutesTheDecodedCommand : Obligations.StepExecutesTheDecodedCommand :=
  fun _ _ _ hs => ⟨fun _ d => step_command hs d, fun _ d => step_reject hs d⟩

/-- Settles O19, by evaluation of the one state it speaks of. -/
theorem resetLeavesTheEngineUnconfigured : Obligations.ResetLeavesTheEngineUnconfigured :=
  ⟨rfl, rfl, rfl⟩

/-- Settles O20: the step is `takeReset`. -/
theorem resetInputUnconfigures : Obligations.ResetInputUnconfigures := by
  intro s cut rest hs
  exact ⟨_, step_reset hs, rfl, rfl, by rw [hs]; rfl, rfl, rfl⟩

/-- No command but CONFIG changes CONFIGURED or LOG2M. -/
theorem effectOf_config {i : Instr} (s : State) (hi : ∀ v, i ≠ .config v) :
    (effectOf i s).configured = s.configured ∧ (effectOf i s).log2m = s.log2m := by
  cases i with
  | config v => exact absurd rfl (hi v)
  | _ => exact ⟨rfl, rfl⟩

/-- A command that changes CONFIGURED or LOG2M is a CONFIG with a legal operand (R105). -/
theorem exec_changes_config {i : Instr} {s t : State} (ht : exec i s = .next t)
    (change : t.configured ≠ s.configured ∨ t.log2m ≠ s.log2m) :
    ∃ v, i = .config v ∧ 4 ≤ v.toNat ∧ v.toNat ≤ 16 ∧ t.configured = true ∧ t.log2m = v := by
  rcases exec_cases ht with ⟨e, -, rfl⟩ | ⟨pass, rfl⟩
  · simp at change
  · by_cases hi : ∃ v, i = .config v
    · obtain ⟨v, rfl⟩ := hi
      obtain ⟨-, low, high⟩ := (firstError_config v s).1 pass
      exact ⟨v, rfl, low, high, rfl, rfl⟩
    · obtain ⟨c, l⟩ := effectOf_config s fun v e => hi ⟨v, e⟩
      exact absurd change (by simp [c, l])

/-- Settles O18, along everything a step can do. -/
theorem onlyConfigAndResetChangeTheConfiguration :
    Obligations.OnlyConfigAndResetChangeTheConfiguration := by
  intro s t hstep change
  rcases step_cases hstep with ⟨-, rfl⟩ | ⟨c, rest, hs, -⟩ |
    ⟨x, rest, hs, ⟨-, -, rfl⟩ | ⟨i, d, ht⟩⟩
  · simp at change
  · exact .inl ⟨c, rest, hs⟩
  · simp at change
  · obtain ⟨v, rfl, legal⟩ := exec_changes_config ht change
    exact .inr ⟨x, rest, v, hs, d, legal⟩

/-- SIZE fits its 16 bits of CFG (R21). -/
theorem Inv.size_lt {s : State} (h : Inv s) : s.size < 2 ^ 16 :=
  lt_of_le_of_lt h.size_le (by decide)

/-- Fields at bits 31, 20:16 and 15:0 do not overlap: their OR is their sum (R21). -/
theorem or_fields_toNat {c n z : Nat} (hc : c < 2) (hn : n < 2 ^ 5) (hz : z < 2 ^ 16) :
    (BitVec.ofNat 32 c <<< 31 ||| BitVec.ofNat 32 n <<< 16 ||| BitVec.ofNat 32 z).toNat =
      2 ^ 31 * c + 2 ^ 16 * n + z := by
  have e1 : (BitVec.ofNat 32 c <<< 31).toNat = 2 ^ 31 * c := by
    rw [BitVec.toNat_shiftLeft, BitVec.toNat_ofNat, Nat.shiftLeft_eq]
    omega
  have e2 : (BitVec.ofNat 32 n <<< 16).toNat = 2 ^ 16 * n := by
    rw [BitVec.toNat_shiftLeft, BitVec.toNat_ofNat, Nat.shiftLeft_eq]
    omega
  have e3 : (BitVec.ofNat 32 z).toNat = z := Nat.mod_eq_of_lt (by omega)
  have mid : 2 ^ 16 * n < 2 ^ 31 := by omega
  have sum : 2 ^ 31 * c + 2 ^ 16 * n = 2 ^ 16 * (2 ^ 15 * c + n) := by ring
  rw [BitVec.toNat_or, BitVec.toNat_or, e1, e2, e3, ← Nat.two_pow_add_eq_or_of_lt mid, sum,
    ← Nat.two_pow_add_eq_or_of_lt hz]

/-- CFG as a number (R21). -/
theorem Inv.cfgWord_toNat {s : State} (h : Inv s) :
    (cfgWord s).toNat =
      2 ^ 31 * (if s.configured then 1 else 0) + 2 ^ 16 * s.log2m.toNat +
        if s.configured then s.size else 0 := by
  have hs := h.size_lt
  rw [← or_fields_toNat (by split <;> omega) s.log2m.isLt (by split <;> omega), cfgWord,
    BitVec.ofNat_toNat]
  split <;> rfl

/-- Settles O24: the fields of CFG are read off the number it is. -/
theorem qcfgReturnsTheConfiguration : Obligations.QcfgReturnsTheConfiguration := by
  intro s h pay
  have word := h.cfgWord_toNat
  have hl := s.log2m.isLt
  have hs := h.size_lt
  refine ⟨_, cfgWord s, exec_pass ((firstError_qcfg s).2 pay), sameEngine_respond _ _ _,
    answered_respond _ _ _, ?_⟩
  rw [word, ← sizeWords_eq, ← State.size]
  simp only [slice]
  split <;> omega

/-! ### The array of an unconfigured engine (R29, R109, R120) -/

/-- The checks do not look at the array (R110). -/
theorem firstError_withRa (i : Instr) (s : State) (m : Memory) :
    firstError i (s.withRa m) = firstError i s := rfl

/-- Of an unconfigured engine a command neither reads the array nor writes it, but for a CONFIG, which
writes every word (R105, R109). -/
theorem effectOf_withRa {i : Instr} {s : State} (m : Memory) (hc : s.configured = false)
    (pass : firstError i s = none) :
    effectOf i (s.withRa m) = effectOf i s ∨
      (effectOf i s).configured = false ∧ effectOf i (s.withRa m) = (effectOf i s).withRa m := by
  obtain ⟨-, -, needs, -⟩ := (firstError_eq_none i s).1 pass
  rw [hc] at needs
  cases i with
  | config v => exact .inl rfl
  | nop | bytesneeded _ | qcfg | illegalE _ | illegalF _ => exact .inr ⟨hc, rfl⟩
  | _ => exact absurd (needs rfl) (by decide)

/-- One step of two engines that are unconfigured and differ in the array only: they become equal, or
stay so. -/
theorem step_withRa {s t : State} (m : Memory) (hc : s.configured = false)
    (hstep : step s = .next t) :
    step (s.withRa m) = .next t ∨
      t.configured = false ∧ step (s.withRa m) = .next (t.withRa m) := by
  rcases step_cases hstep with ⟨hs, rfl⟩ | ⟨c, rest, hs, ht⟩ |
    ⟨x, rest, hs, ⟨r, d, rfl⟩ | ⟨i, d, ht⟩⟩
  · exact .inr ⟨hc, step_idle hs⟩
  · cases ht
    exact .inl (step_reset hs)
  · exact .inr ⟨hc, step_reject hs d⟩
  · rw [step_command (s := s.withRa m) hs d]
    rcases exec_cases ht with ⟨e, fail, rfl⟩ | ⟨pass, rfl⟩
    · exact .inr ⟨hc, exec_fail fail⟩
    · rw [exec_pass (s := s.withRa m) pass]
      rcases effectOf_withRa m hc pass with e | ⟨c, e⟩
      · exact .inl (by rw [e])
      · exact .inr ⟨c, by rw [e]⟩

/-- Settles O21, by induction on the number of steps. -/
theorem unconfiguredArrayIsUnobservable : Obligations.UnconfiguredArrayIsUnobservable := by
  intro s m k hc
  induction k generalizing s with
  | zero => exact ⟨rfl, rfl, fun h => absurd (hc.symm.trans h) (by decide)⟩
  | succ k ih =>
    obtain ⟨t, ht⟩ := step_next s
    rw [runFor_succ k ht]
    rcases step_withRa m hc ht with e | ⟨c, e⟩
    · rw [runFor_succ k e]
      exact ⟨rfl, rfl, fun _ => rfl⟩
    · rw [runFor_succ k e]
      exact ih t c

/-! ### Requests in port order (R15, R45, R126) -/

/-- An effect does not look at the requests behind the transaction in service. -/
theorem effectOf_withRequests {i : Instr} {s : State} {r : Request} {xs : List Request}
    (pass : firstError i (s.withRequests (r :: xs)) = none) (ys : List Request) :
    effectOf i (s.withRequests (r :: ys)) =
      (effectOf i (s.withRequests (r :: xs))).withRequests ys := by
  cases i with
  | illegalE _ => cases pass
  | illegalF _ => cases pass
  | _ => cases r <;> rfl

/-- A step does not look at the requests behind the head of the port. -/
theorem step_withRequests {s t : State} {r : Request} {xs : List Request}
    (hstep : step (s.withRequests (r :: xs)) = .next t) (ys : List Request) :
    step (s.withRequests (r :: ys)) = .next (t.withRequests ys) := by
  cases r with
  | reset c =>
    cases hstep
    rfl
  | txn x =>
    cases d : decode x.cw with
    | error e =>
      rw [step_reject rfl d] at hstep
      cases hstep
      exact step_reject rfl d
    | ok i =>
      rw [step_command rfl d] at hstep ⊢
      rcases exec_cases hstep with ⟨e, fail, rfl⟩ | ⟨pass, rfl⟩
      · exact exec_fail fail
      · rw [exec_pass (s := s.withRequests (.txn x :: ys)) pass, effectOf_withRequests pass ys]

/-- A run over two lists is a run over the second from where the run over the first ends. -/
theorem runAll_append (s : State) (xs ys : List Request) :
    runAll (s.withRequests (xs ++ ys)) =
      runAll ((runAll (s.withRequests xs)).withRequests ys) := by
  induction xs generalizing s with
  | nil => rfl
  | cons x xs ih =>
    obtain ⟨t, ht⟩ := step_next (s.withRequests (x :: xs))
    have tail : t.withRequests xs = t := by
      rw [← show t.requests = xs from (step_frame ht).1]
      rfl
    calc runAll (s.withRequests (x :: xs ++ ys))
        = runAll (t.withRequests (xs ++ ys)) := runAll_step rfl (step_withRequests ht _)
      _ = runAll ((runAll (t.withRequests xs)).withRequests ys) := ih t
      _ = runAll ((runAll (s.withRequests (x :: xs))).withRequests ys) := by
        rw [tail, runAll_step rfl ht]

/-- A step withdraws no response. -/
theorem step_responses_prefix {s t : State} (hstep : step s = .next t) :
    s.responses <+: t.responses := by
  rcases step_cases hstep with ⟨-, rfl⟩ | ⟨-, -, -, ht⟩ | ⟨-, -, -, ⟨-, -, rfl⟩ | ⟨i, -, ht⟩⟩
  · exact List.prefix_rfl
  · cases ht
    exact List.prefix_rfl
  · exact List.prefix_append _ _
  · rcases exec_cases ht with ⟨e, -, rfl⟩ | ⟨pass, rfl⟩
    · exact List.prefix_append _ _
    · obtain ⟨_, _, _, e⟩ := effectOf_responses pass
      rw [e]
      exact List.prefix_append _ _

/-- A run withdraws no response. -/
theorem runFor_responses_prefix (k : Nat) (s : State) :
    s.responses <+: (runFor k s).responses := by
  induction k generalizing s with
  | zero => exact List.prefix_rfl
  | succ k ih =>
    obtain ⟨t, ht⟩ := step_next s
    rw [runFor_succ k ht]
    exact (step_responses_prefix ht).trans (ih t)

/-- Settles O57: the run over both lists goes on from the run over the first. -/
theorem requestsExecuteInPortOrder : Obligations.RequestsExecuteInPortOrder := by
  intro s xs ys
  rw [runAll_append]
  exact ⟨rfl, runFor_responses_prefix ys.length ((runAll (s.withRequests xs)).withRequests ys)⟩

/-! ### CLEAR, SET and ADD (R18, R71, R72, R74, R76, R77) -/

/-- The bits that hold no register are 0 before and after, when the invariants hold of both arrays. -/
theorem Inv.illegal_unchanged {s : State} {m : Memory} (h : Inv s) (k : Inv (s.withRa m))
    (c : s.configured = true) (w : Nat) :
    m.read w &&& s.illegalMask w = s.ra.read w &&& s.illegalMask w :=
  (k.clean_all c w).trans (h.clean_all c w).symm

/-- A register of a word that is 0 is 0 (R73). -/
theorem readReg_of_read_eq_zero {fs : FieldShift} {m : Memory} {p : Nat}
    (h : m.read (wordOf p) = 0) : readReg fs m p = 0 := by
  simp [readReg, getf, h]

/-- Settles O30: the cleared words are those below SIZE, which hold every register. -/
theorem clearZeroesTheRegisters : Obligations.ClearZeroesTheRegisters := by
  intro s h pay c
  have read := Memory.read_clearBelow h.form s.size
  refine ⟨_, exec_pass ((firstError_clear s).2 ⟨pay, c⟩), ⟨rfl, rfl, rfl, rfl⟩,
    answered_respond _ _ _, fun w hw => ?_, fun w hw => ?_, fun p hp => ?_⟩
  · exact (read w).trans (if_pos hw)
  · exact (read w).trans (if_neg (Nat.not_lt.2 hw))
  · exact readReg_of_read_eq_zero ((read _).trans (if_pos (h.wordOf_lt hp).1))

/-- Settles O31: one register is written, and the bits outside registers are 0 before and after. -/
theorem setWritesOneRegister : Obligations.SetWritesOneRegister := by
  intro s v p h pay c hp
  have reg := readReg_writeReg h.layout h.form p v
  refine ⟨_, exec_pass ((firstError_set v p s).2 ⟨pay, c, hp⟩), ⟨rfl, rfl, rfl, rfl⟩,
    answered_respond _ _ _, (reg p).trans (if_pos rfl), fun q hq => (reg q).trans (if_neg hq),
    fun w hw => ?_, h.illegal_unchanged (h.withRa_writeReg c hp v) c⟩
  exact (read_writeReg _ h.form p v w).trans (if_neg hw)

/-- A batch gives a value to registers below COUNT only (R67, R71). -/
theorem Inv.lt_count_of_greatestFor {s : State} (h : Inv s) (c : s.configured = true)
    {hs : List Word} {q : Nat} (hq : 0 < greatestFor q (batchPairs s.log2m.toNat hs)) :
    q < s.count := by
  obtain ⟨low, high⟩ := h.log2m_range c
  rcases greatestFor_batch_mem low high hs q with e | ⟨x, -, rfl, -⟩
  · omega
  · exact bucket_lt (by omega) x

/-- The registers after a batch: the greater of the prior value and the greatest rank (R72). -/
theorem Inv.readReg_batch {s : State} (h : Inv s) (hs : List Word) (q : Nat) :
    (readReg s.params.fieldShift
        (raiseAll s.params.fieldShift (batchPairs s.log2m.toNat hs) s.ra).1 q).toNat =
      max (s.reg q).toNat (greatestFor q (batchPairs s.log2m.toNat hs)) :=
  readReg_raiseAll h.layout h.form (h.words_lt (h.batchPairs_lt hs)) q

/-- UPDATED of a batch says that a register below COUNT increased (R71). -/
theorem Inv.batch_flag {s : State} (h : Inv s) (c : s.configured = true) (hs : List Word) :
    (raiseAll s.params.fieldShift (batchPairs s.log2m.toNat hs) s.ra).2 = true ↔
      ∃ q, q < s.count ∧ (s.reg q).toNat <
        (readReg s.params.fieldShift
          (raiseAll s.params.fieldShift (batchPairs s.log2m.toNat hs) s.ra).1 q).toNat := by
  simp only [h.readReg_batch, lt_max_iff, lt_irrefl, false_or]
  rw [raiseAll_flag h.layout h.form (h.words_lt (h.batchPairs_lt hs))]
  constructor
  · rintro ⟨q, rise⟩
    exact ⟨q, h.lt_count_of_greatestFor c (Nat.zero_lt_of_lt rise), rise⟩
  · rintro ⟨q, -, rise⟩
    exact ⟨q, rise⟩

/-- Settles O28: each register becomes the greater of its prior value and the greatest rank of its
bucket. -/
theorem addRaisesTheBuckets : Obligations.AddRaisesTheBuckets := by
  intro s hs h c pay
  obtain ⟨low, high⟩ := h.log2m_range c
  have words : s.payWords = hs := by rw [State.payWords, pay, beWords_flatMap_be32]
  have pass : firstError (.add (4 * hs.length)) s = none :=
    (firstError_add _ s).2 ⟨by rw [pay, flatMap_be32_length], Nat.mul_mod_right _ _, c⟩
  have next := exec_pass pass
  rw [effectOf, words] at next
  have reg := h.readReg_batch hs
  refine ⟨_, _, next, ⟨rfl, rfl, rfl, rfl⟩, ?_, fun q hq => ⟨?_, ?_, ?_⟩, h.batch_flag c hs,
    fun w hw => ?_, h.illegal_unchanged (h.withRa_raiseAll c (h.batchPairs_lt hs)) c⟩
  · rw [← updatedStatus_eq]
    exact answered_respond _ _ _
  · exact (le_max_left _ _).trans (reg q).ge
  · rintro x hx rfl
    exact (le_greatestFor_batch low high hx).trans ((le_max_right _ _).trans (reg _).ge)
  · rcases le_or_gt (greatestFor q (batchPairs s.log2m.toNat hs)) (s.reg q).toNat with le | gt
    · exact .inl (BitVec.eq_of_toNat_eq ((reg q).trans (max_eq_left le)))
    · have value := (reg q).trans (max_eq_right gt.le)
      rcases greatestFor_batch_mem low high hs q with zero | ⟨x, hx, bucket, rank⟩
      · omega
      · exact .inr ⟨x, hx, bucket, rank.trans value.symm⟩
  · refine read_raiseAll_other _ h.form (h.words_lt (h.batchPairs_lt hs)) fun x hx => ?_
    obtain ⟨y, hy, rfl⟩ := List.mem_map.1 hx
    exact hw y hy

end Sys2Proof.Machine

/-! SUPPORT. The family 20_memory.md: each transaction is answered once (R47, R51, R125), a response as
bytes (R34, R57, R60), the masks of the default layout (R38, R39), LOAD and SER (R33, R81, R85), what a
repeated command does (R43), and ADDs of several hosts (R50, R72, R117). -/

namespace Sys2Proof.Machine

/-! ### One response for each transaction (R47, R51, R125) -/

/-- A command is answered by one response. -/
theorem exec_responses {i : Instr} {s t : State} (ht : exec i s = .next t) :
    ∃ r, t.responses = s.responses ++ [r] := by
  rcases exec_cases ht with ⟨e, -, rfl⟩ | ⟨pass, rfl⟩
  · exact ⟨_, rfl⟩
  · obtain ⟨_, _, _, answer⟩ := effectOf_responses pass
    exact ⟨_, answer⟩

/-- Settles O11: a step answers, and what a command leaves on the port is `exec_frame`. -/
theorem everyTransactionIsAnsweredOnce : Obligations.EveryTransactionIsAnsweredOnce := by
  refine ⟨fun s => ?_, fun s x rest hs => ?_⟩
  · obtain ⟨t, ht⟩ := step_next s
    exact ⟨t, ht, (step_frame ht).2⟩
  · cases d : decode x.cw with
    | error e => exact ⟨_, _, step_reject hs d, by simp [hs], rfl, rfl⟩
    | ok i =>
      obtain ⟨t, ht⟩ := exec_next i s
      obtain ⟨requests, -, draws⟩ := exec_frame ht
      obtain ⟨r, responses⟩ := exec_responses ht
      exact ⟨t, r, (step_command hs d).trans ht, by rw [requests, hs, List.tail_cons], responses,
        draws⟩

/-! ### A response as bytes (R34, R51, R57, R60) -/

/-- The bytes of a word as numbers (R34). -/
theorem be32_map_toNat (v : Word) : (be32 v).map BitVec.toNat = valueBytes v.toNat := by
  have := v.isLt
  simp only [be32, valueBytes, List.map_cons, List.map_nil, BitVec.extractLsb'_toNat,
    Nat.shiftRight_eq_div_pow, List.cons.injEq, and_true]
  norm_num
  omega

/-- The command that a word decodes to has the word's OP (R55). -/
theorem opcode_of_decode {cw : Word} {i : Instr} (d : decode cw = .ok i) :
    opcode i = opField cw := by
  have lt := opField_lt cw
  unfold decode at d
  split at d
  · cases d
    generalize opField cw = op at lt
    interval_cases op <;> rfl
  · cases d

/-- A failed command has no result (R60, R111). -/
theorem resultLength_errorStatus (op size : Nat) (e : ECode) :
    resultLength op size (errorStatus e) = 0 := by
  have := (ecodeNumber_range e).1
  exact if_pos (by rw [statusECode_errorStatus]; omega)

/-- Of a command that succeeds UPDATED and EPATH do not change the length of the result (R60). -/
theorem resultLength_statusWord (op size : Nat) (updated : Bool) (path : EPath) :
    resultLength op size (statusWord 0 updated path) = resultLength op size 0 := by
  unfold resultLength
  rw [statusECode_statusWord (by decide)]
  rfl

/-- A command that succeeds has the result length of its OP (R60). -/
theorem effectOf_resultLength {i : Instr} {s : State} (pass : firstError i s = none) :
    ∃ r, (effectOf i s).responses = s.responses ++ [r] ∧
      resultLength (opcode i) s.size r.status = r.result.length := by
  cases i
  case illegalE => cases pass
  case illegalF => cases pass
  case ser => exact ⟨_, rfl, (resultLength_statusWord _ _ _ _).trans (blobBytes_length _ _).symm⟩
  all_goals exact ⟨_, rfl, resultLength_statusWord _ _ _ _⟩

/-- The response to a transaction has the result length that the host finds from OP, SIZE and the status
word (R57, R60). -/
theorem step_resultLength {s t : State} {x : Txn} {rest : List Request} {r : Response}
    (hs : s.requests = .txn x :: rest) (hstep : step s = .next t)
    (hr : t.responses = s.responses ++ [r]) :
    resultLength (opField x.cw) s.size r.status = r.result.length := by
  suffices h : ∃ a, t.responses = s.responses ++ [a] ∧
      resultLength (opField x.cw) s.size a.status = a.result.length by
    obtain ⟨a, ha, length⟩ := h
    rw [hr, List.append_cancel_left_eq, List.singleton_inj] at ha
    rwa [ha]
  cases d : decode x.cw with
  | error e =>
    rw [step_reject hs d] at hstep
    cases hstep
    exact ⟨_, rfl, resultLength_errorStatus _ _ _⟩
  | ok i =>
    rw [step_command hs d] at hstep
    rcases exec_cases hstep with ⟨e, -, rfl⟩ | ⟨pass, rfl⟩
    · exact ⟨_, rfl, resultLength_errorStatus _ _ _⟩
    · exact opcode_of_decode d ▸ effectOf_resultLength pass

/-- A response whose result has the length of R60 is framed at its end, and not before it (R57). -/
theorem frameResponse_bytes {op size : Nat} {r : Response}
    (length : resultLength op size r.status = r.result.length) :
    (∀ more, frameResponse op size (r.bytes ++ more) = some (r, more)) ∧
      ∀ n, n < r.bytes.length → frameResponse op size (r.bytes.take n) = none := by
  constructor
  · intro more
    rw [Response.bytes, List.append_assoc, frameResponse_be32, length, if_pos (by simp)]
    simp
  · intro n hn
    rw [Response.bytes_length] at hn
    by_cases short : n < 4
    · exact frameResponse_short _ _ (by rw [List.length_take]; omega)
    · have : (be32 r.status).take n = be32 r.status :=
        List.take_of_length_le (by rw [be32_length]; omega)
      rw [Response.bytes, List.take_append, this, frameResponse_be32, length, be32_length,
        if_neg (by rw [List.length_take]; omega)]

/-- Settles O60: the result has the length that the host finds. -/
theorem responseBytesFollowTheStatusWord : Obligations.ResponseBytesFollowTheStatusWord :=
  fun _ _ _ _ r hs hstep hr =>
    ⟨by rw [r.bytes_take, be32_map_toNat], r.bytes_drop,
      frameResponse_bytes (step_resultLength hs hstep hr)⟩

/-! ### The masks of the default layout (R25, R35, R38, R39) -/

/-- `2^n mod 6` alternates between 4 and 2. -/
theorem two_pow_mod_six {n : Nat} (hn : 1 ≤ n) : 2 ^ n % 6 = if n % 2 = 0 then 4 else 2 := by
  induction n, hn using Nat.le_induction with
  | base => rfl
  | succ n _ ih =>
    rw [pow_succ]
    split at ih <;> split <;> omega

/-- The used slots of a word are its first `c`, where `c` of its registers are below COUNT (R39). -/
theorem usedMask_eq (fs : FieldShift) {count w c : Nat} (hc : c = min 6 (count - 6 * w)) :
    usedMask fs count w = maskOf fs (List.range c) := by
  have initial : ∀ c ≤ 6, (List.range 6).filter (fun k => decide (k < c)) = List.range c := by
    decide
  rw [usedMask, ← initial c (by omega)]
  refine congrArg (maskOf fs) (List.filter_congr fun k hk => ?_)
  rw [slots, List.mem_range] at hk
  rw [slots, decide_eq_decide]
  omega

/-- Settles O42: a word below the last holds six registers, and the last one 2^LOG2M mod 6 of them. -/
theorem defaultLayoutHasTheTabledMasks : Obligations.DefaultLayoutHasTheTabledMasks := by
  refine ⟨by decide, by decide, fun n w hn _ hw => ?_⟩
  have last := two_pow_mod_six (n := n) (by omega)
  have size := sizeWords_eq n
  rw [illegalMask, countOf]
  split
  · rw [usedMask_eq _ (c := 6) (by omega)]
    decide
  · split
    · rw [if_pos ‹_›] at last
      rw [usedMask_eq _ (c := 4) (by omega)]
      decide
    · rw [if_neg ‹_›] at last
      rw [usedMask_eq _ (c := 2) (by omega)]
      decide

/-! ### LOAD and SER (R33, R81, R85) -/

/-- Word `w` of a byte list is its bytes 4w to 4w + 3, most significant first (R12, R33). -/
theorem beWords_getD (bs : List Byte) {w : Nat} (hw : 4 * w + 4 ≤ bs.length) :
    (beWords bs).getD w 0 =
      bs.getD (4 * w) 0 ++ bs.getD (4 * w + 1) 0 ++ bs.getD (4 * w + 2) 0 ++
        bs.getD (4 * w + 3) 0 := by
  induction bs using beWords.induct generalizing w with
  | case1 a b c d rest ih =>
    cases w with
    | zero => rfl
    | succ w => exact ih (by simp only [List.length_cons] at hw; omega)
  | case2 bs short =>
    rcases bs with _ | ⟨a, _ | ⟨b, _ | ⟨c, _ | ⟨d, rest⟩⟩⟩⟩
    case cons.cons.cons.cons => exact absurd rfl (short a b c d rest)
    all_goals simp at hw

/-- Settles O34: what is read after words are stored, the words being the payload's. -/
theorem loadReplacesTheArray : Obligations.LoadReplacesTheArray := by
  intro s h c len valid
  obtain ⟨words, clean⟩ := valid
  have pass : firstError (.load (4 * s.size)) s = none :=
    (firstError_load _ s).2 ⟨len, c, rfl, (blobValid_iff _ _ _).2 (words ▸ clean)⟩
  have read := Memory.read_store h.form s.payWords
  refine ⟨_, exec_pass pass, ⟨rfl, rfl, rfl, rfl⟩, answered_respond _ _ _, fun w hw => ?_,
    fun w hw => (read w).trans (if_neg (by omega))⟩
  exact ((read w).trans (if_pos (by omega))).trans (beWords_getD _ (by omega))

/-- Settles O38: the bytes of the array read back as its words. -/
theorem serReturnsTheBlob : Obligations.SerReturnsTheBlob := by
  intro s pay c
  refine ⟨_, _, exec_pass ((firstError_ser s).2 ⟨pay, c⟩), sameEngine_respond _ _ _,
    answered_respond _ _ _, blobBytes_length _ _, fun w hw => ?_⟩
  rw [← beWords_getD _ (by rw [blobBytes_length]; omega), beWords_blobBytes]
  simp [hw]

/-! ### A command issued again (R43) -/

/-- A response is the one that was sent. -/
theorem Answered.respond_inj {s : State} {st st' : Word} {rs rs' : List Byte}
    (h : Answered s (s.respond st rs) st' rs') : st = st' ∧ rs = rs' := by
  simpa using h.2

/-- A failing check is answered alike wherever the checks read the same (R110, R111). -/
theorem exec_fail_congr {i : Instr} {s u : State} {e : ECode} (fail : firstError i s = some e)
    (same : SameEngine s u) (pay : u.pay = s.pay) :
    exec i u = .next (u.respond (errorStatus e) []) :=
  exec_fail ((firstError_congr same pay).trans fail)

/-- A state with the engine of another is the other with its own port. -/
theorem SameEngine.eq_port {s u : State} (h : SameEngine s u) :
    u = { s with requests := u.requests, responses := u.responses } := by
  obtain ⟨h1, h2, h3, h4, h5⟩ := h
  rw [← h1, ← h2, ← h3, ← h4, ← h5]

/-- The commands that read and write nothing (R43). -/
def Reading (i : Instr) : Prop :=
  (∃ p, i = .get p) ∨ i = .ser ∨ i = .estimate ∨ i = .hashrank ∨ (∃ v, i = .bytesneeded v) ∨
    i = .qcfg ∨ i = .nop

/-- A reading command only answers, and what it answers depends on the engine and the payload alone. -/
theorem effectOf_reading {i : Instr} (s : State) (reading : Reading i) :
    ∃ st rs, effectOf i s = s.respond st rs ∧
      ∀ u, SameEngine s u → u.pay = s.pay → effectOf i u = u.respond st rs := by
  rcases reading with ⟨p, rfl⟩ | rfl | rfl | rfl | ⟨v, rfl⟩ | rfl | rfl
  case inr.inr.inr.inl => -- HASHRANK alone reads the payload
    refine ⟨_, _, rfl, fun u ⟨_, log2m, _⟩ pay => ?_⟩
    rw [effectOf, State.payHash, State.payWords, pay, log2m]
    rfl
  all_goals
    refine ⟨_, _, rfl, fun u same _ => ?_⟩
    rw [same.eq_port]
    rfl

/-- A reading command, failing or not, only answers, and alike wherever engine and payload are the
same. -/
theorem exec_reading {i : Instr} (s : State) (reading : Reading i) :
    ∃ st rs, exec i s = .next (s.respond st rs) ∧
      ∀ u, SameEngine s u → u.pay = s.pay → exec i u = .next (u.respond st rs) := by
  cases h : firstError i s with
  | some e => exact ⟨_, _, exec_fail h, fun u => exec_fail_congr h⟩
  | none =>
    obtain ⟨st, rs, answer, again⟩ := effectOf_reading s reading
    refine ⟨st, rs, answer ▸ exec_pass h, fun u same pay => ?_⟩
    rw [exec_pass ((firstError_congr same pay).trans h), again u same pay]

/-- Settles O44: both issues of the command are answers of one engine to one payload. -/
theorem readingCommandsCanBeRepeated : Obligations.ReadingCommandsCanBeRepeated := by
  intro i s t u st rs reading ht answered same pay
  obtain ⟨st', rs', answer, again⟩ := exec_reading s reading
  rw [answer] at ht
  cases ht
  obtain ⟨rfl, rfl⟩ := answered.respond_inj
  have su := (sameEngine_respond s st' rs').trans same
  exact ⟨sameEngine_respond _ _ _, _, again u su pay, su.trans (sameEngine_respond _ _ _),
    answered_respond _ _ _⟩

/-- A word written with what it holds leaves the array. -/
theorem Memory.write_read {m : Memory} (hm : m.wf = true) {w : Nat} (hw : w < numWordsMax) :
    m.write w (m.read w) = m := by
  refine Memory.ext (Memory.wf_write hm hw _) hm fun x => ?_
  rw [Memory.read_write hm]
  split
  · rw [‹x = w›]
  · rfl

/-- A register written with what it holds leaves the array (R74, R77). -/
theorem writeReg_readReg (fs : FieldShift) {m : Memory} (hm : m.wf = true) {p : Nat}
    (hp : wordOf p < numWordsMax) : writeReg fs m p (readReg fs m p) = m := by
  rw [writeReg, readReg, setf_getf, Memory.write_read hm hp]

/-- Clearing twice is clearing (R76). -/
theorem Memory.clearBelow_clearBelow (m : Memory) (n : Nat) :
    (m.clearBelow n).clearBelow n = m.clearBelow n := by
  simp [Memory.clearBelow]

/-- Storing words twice is storing them (R81). -/
theorem Memory.store_store (m : Memory) (ws : List Word) : (m.store ws).store ws = m.store ws := by
  have cells : (wordCells 0 ws).clearBelow ws.length = [] :=
    List.filter_eq_nil_iff.2 fun c hc => by
      have := (mem_wordCells hc).2.1
      simp only [decide_eq_true_eq]
      omega
  have rest := Memory.clearBelow_clearBelow m ws.length
  simp only [Memory.store, Memory.clearBelow, List.filter_append] at cells rest ⊢
  rw [cells, rest, List.nil_append]

/-- Writing a register twice is writing it (R77). -/
theorem writeReg_writeReg {fs : FieldShift} (hl : fs.legal = true) {m : Memory}
    (hm : m.wf = true) {p : Nat} (hp : wordOf p < numWordsMax) (v : RegVal) :
    writeReg fs (writeReg fs m p v) p v = writeReg fs m p v := by
  have held := readReg_writeReg hl hm p v p
  rw [if_pos rfl] at held
  simpa [held] using writeReg_readReg fs (wf_writeReg fs hm hp v) hp

/-- Raising the same registers again raises none (R72, R84). -/
theorem raiseAll_raiseAll {fs : FieldShift} (hl : fs.legal = true) {ps : List (Nat × RegVal)}
    {m : Memory} (hm : m.wf = true) (hp : ∀ c ∈ ps, wordOf c.1 < numWordsMax) :
    raiseAll fs ps (raiseAll fs ps m).1 = ((raiseAll fs ps m).1, false) := by
  have still : (raiseAll fs ps (raiseAll fs ps m).1).2 = false := by
    rw [← Bool.not_eq_true, raiseAll_flag hl (wf_raiseAll fs hm hp) hp]
    rintro ⟨q, rise⟩
    rw [readReg_raiseAll hl hm hp] at rise
    omega
  exact Prod.ext (raiseAll_unchanged _ _ _ still) still

/-- The response of a command that writes the array with what it holds. -/
theorem respond_withRa_same {u : State} {m : Memory} (h : m = u.ra) (st : Word) :
    (u.withRa m).respond st [] = u.respond st [] := by
  rw [h]
  rfl

/-- The response of a command that raises what has been raised: UPDATED = 0. -/
theorem Inv.respond_raiseAll_again {s u : State} (h : Inv s) {ps : List (Nat × RegVal)}
    (hp : ∀ x ∈ ps, x.1 < s.count) (ra : u.ra = (raiseAll s.params.fieldShift ps s.ra).1) :
    (u.withRa (raiseAll s.params.fieldShift ps u.ra).1).respond
        (updatedStatus (raiseAll s.params.fieldShift ps u.ra).2) [] = u.respond okStatus [] := by
  have again : raiseAll s.params.fieldShift ps u.ra = (u.ra, false) := by
    rw [ra]
    exact raiseAll_raiseAll h.layout h.form (h.words_lt hp)
  rw [again]
  rfl

/-- CONFIG leaves an engine that has its LOG2M and an empty array. -/
theorem withConfig_withRa_same {u : State} {v : RegVal} (configured : u.configured = true)
    (log2m : u.log2m = v) (ra : u.ra = []) : (u.withConfig v).withRa [] = u := by
  rw [← log2m, ← ra, State.withConfig, State.withRa, ← configured]

/-- A command that passed its checks passes them where it has had its effect (R43, R110). -/
theorem firstError_again {i : Instr} {s u : State} (pass : firstError i s = none)
    (same : SameEngine (effectOf i s) u) (pay : u.pay = s.pay) : firstError i u = none := by
  by_cases hi : ∃ v, i = .config v
  · obtain ⟨v, rfl⟩ := hi
    obtain ⟨empty, legal⟩ := (firstError_config v s).1 pass
    exact (firstError_config v u).2 ⟨pay.trans empty, legal⟩
  · obtain ⟨configured, log2m⟩ := effectOf_config s fun v e => hi ⟨v, e⟩
    obtain ⟨-, params, draws⟩ := exec_frame (exec_pass pass)
    have array : SameEngine (s.withRa (effectOf i s).ra) (effectOf i s) :=
      ⟨configured, log2m, rfl, params, draws⟩
    exact (firstError_congr (array.trans same) pay).trans pass

/-- The effect of a writing command where the command has had its effect: nothing is left to do. -/
theorem effectOf_again {i : Instr} {s u : State} (h : Inv s)
    (writing : (∃ v p, i = .set v p) ∨ i = .clear ∨ (∃ v, i = .config v) ∨ (∃ p, i = .load p) ∨
      (∃ p, i = .merge p) ∨ ∃ p, i = .add p)
    (pass : firstError i s = none) (same : SameEngine (effectOf i s) u) (pay : u.pay = s.pay) :
    effectOf i u = u.respond okStatus [] := by
  have words : u.payWords = s.payWords := by rw [State.payWords, State.payWords, pay]
  obtain ⟨configured, log2m, ra, params, -⟩ := same
  rcases writing with ⟨v, p, rfl⟩ | rfl | ⟨v, rfl⟩ | ⟨p, rfl⟩ | ⟨p, rfl⟩ | ⟨p, rfl⟩
  · obtain ⟨-, -, hp⟩ := (firstError_set v p s).1 pass
    refine respond_withRa_same ?_ _
    rw [params, ra]
    exact writeReg_writeReg h.layout h.form (h.wordOf_lt hp).2 v
  · refine respond_withRa_same ?_ _
    rw [State.size, log2m, ra]
    exact Memory.clearBelow_clearBelow _ _
  · exact congrArg (·.respond okStatus []) (withConfig_withRa_same configured log2m ra)
  · refine respond_withRa_same ?_ _
    rw [words, ra]
    exact Memory.store_store _ _
  · rw [effectOf, words, params, State.count, log2m]
    exact h.respond_raiseAll_again (fun _ => mem_blobRegs) ra
  · rw [effectOf, words, params, log2m]
    exact h.respond_raiseAll_again (h.batchPairs_lt _) ra

/-- Settles O45: a command that failed fails again, and one that had its effect has nothing left to
do. -/
theorem writingCommandsAreIdempotent : Obligations.WritingCommandsAreIdempotent := by
  intro i s t u h writing ht same pay
  rcases exec_cases ht with ⟨e, fail, rfl⟩ | ⟨pass, rfl⟩
  · exact ⟨_, _, exec_fail_congr fail ((sameEngine_respond _ _ _).trans same) pay,
      same.trans (sameEngine_respond _ _ _), answered_respond _ _ _,
      statusUpdated_statusWord (by have := ecodeNumber_range e; omega) _ _⟩
  · have next := exec_pass (firstError_again pass same pay)
    rw [effectOf_again h writing pass same pay] at next
    exact ⟨_, _, next, same.trans (sameEngine_respond _ _ _), answered_respond _ _ _,
      statusUpdated_statusWord (by decide) _ _⟩

/-! ### ADDs of several hosts (R50, R72, R117) -/

/-- An order of grants is a permutation of what the hosts send (R50). -/
theorem GrantOrder.perm {hosts : List (List Txn)} {xs : List Txn} (h : GrantOrder hosts xs) :
    xs.Perm hosts.flatten := by
  induction h with
  | done hosts idle => rw [List.flatten_eq_nil_iff.2 idle]
  | grant before later t rest granted _ ih =>
    simp only [List.flatten_append, List.flatten_cons, List.cons_append] at ih ⊢
    exact (ih.cons t).trans List.perm_middle.symm

/-- A permutation of images is the image of a permutation. -/
theorem exists_map_eq_of_perm_map {α β : Type} {f : α → β} {xs : List β} {as : List α}
    (h : xs.Perm (as.map f)) : ∃ bs : List α, bs.Perm as ∧ xs = bs.map f := by
  have image : List.Forall₂ (fun x a => x = f a) (as.map f) as :=
    List.forall₂_map_left_iff.2 (List.forall₂_same.2 fun _ _ => rfl)
  obtain ⟨bs, eq, perm⟩ := List.perm_comp_forall₂ h image
  refine ⟨bs, perm, ?_⟩
  rwa [← List.forall₂_eq_eq_eq, List.forall₂_map_right_iff]

/-- The word of an ADD decodes to it (R52, R55). -/
theorem decode_encode_add {p : Nat} (hp : p < 65536) :
    decode (encode (.add p)) = .ok (.add p) := by
  obtain ⟨rsv, v, pf⟩ := fields_of_fieldBits (i := .add p) (v := 0) rfl hp
  simp [decode, opField_encode, opcode, opFormat, fieldsLegal, opInstr, rsv, v, pf]

/-- An ADD at the head of the port of a configured engine raises the registers of its hashes (R71). -/
theorem step_addTxn {s : State} {hs : List Word} {rest : List Request}
    (requests : s.requests = .txn (addTxn hs) :: rest) (c : s.configured = true)
    (fits : 4 * hs.length < 65536) :
    step s = .next ((s.withRa
        (raiseAll s.params.fieldShift (batchPairs s.log2m.toNat hs) s.ra).1).respond
      (updatedStatus
        (raiseAll s.params.fieldShift (batchPairs s.log2m.toNat hs) s.ra).2) []) := by
  have pay : s.pay = hs.flatMap be32 := State.pay_of_requests requests
  have words : s.payWords = hs := by rw [State.payWords, pay, beWords_flatMap_be32]
  have pass : firstError (.add (4 * hs.length)) s = none :=
    (firstError_add _ s).2 ⟨by rw [pay, flatMap_be32_length], Nat.mul_mod_right _ _, c⟩
  rw [step_command requests (decode_encode_add fits), exec_pass pass, effectOf, words]

/-- The array after a transaction and others is the array after the others, from where it ends. -/
theorem arrayAfter_cons {s t : State} {x : Txn} {xs : List Txn}
    (hstep : step (s.withRequests (.txn x :: xs.map .txn)) = .next t) :
    arrayAfter s (x :: xs) = arrayAfter t xs := by
  have tail : t.withRequests (xs.map .txn) = t := by
    rw [← show t.requests = xs.map .txn from (step_frame hstep).1]
    rfl
  rw [arrayAfter, arrayAfter, List.map_cons, runAll_step rfl hstep, tail]

/-- ADDs one after another raise the registers of all their hashes (R72). -/
theorem arrayAfter_addTxns {s : State} (c : s.configured = true) {hss : List (List Word)}
    (fits : ∀ hs ∈ hss, 4 * hs.length < 65536) :
    arrayAfter s (hss.map addTxn) =
      (raiseAll s.params.fieldShift (batchPairs s.log2m.toNat hss.flatten) s.ra).1 := by
  induction hss generalizing s with
  | nil => rfl
  | cons hs hss ih =>
    rw [List.forall_mem_cons] at fits
    rw [List.flatten_cons, batchPairs_append, raiseAll_append]
    exact (arrayAfter_cons (step_addTxn rfl c fits.1)).trans (ih c fits.2)

/-- Lists of raises that give each register the same greatest value leave the same array (R72). -/
theorem Inv.raiseAll_congr {s : State} (h : Inv s) (c : s.configured = true)
    {ps qs : List (Nat × RegVal)} (hp : ∀ x ∈ ps, x.1 < s.count) (hq : ∀ x ∈ qs, x.1 < s.count)
    (same : ∀ q, greatestFor q ps = greatestFor q qs) :
    (raiseAll s.params.fieldShift ps s.ra).1 = (raiseAll s.params.fieldShift qs s.ra).1 := by
  have kp := h.withRa_raiseAll c hp
  have kq := h.withRa_raiseAll c hq
  refine Memory.ext_of_regs kp.form kq.form (kp.clean_all c) (kq.clean_all c) fun p _ =>
    BitVec.eq_of_toNat_eq ?_
  rw [State.withRa_params, readReg_raiseAll h.layout h.form (h.words_lt hp),
    readReg_raiseAll h.layout h.form (h.words_lt hq), same]

/-- Under every order of grants the array is that of one batch, a permutation of all the hashes. -/
theorem arrayAfter_grantOrder {s : State} (c : s.configured = true)
    {hosts : List (List (List Word))} {xs : List Txn}
    (fits : ∀ host ∈ hosts, ∀ hs ∈ host, 4 * hs.length < 65536)
    (grant : GrantOrder (hosts.map fun host => host.map addTxn) xs) :
    ∃ hs : List Word, hs.Perm hosts.flatten.flatten ∧
      arrayAfter s xs =
        (raiseAll s.params.fieldShift (batchPairs s.log2m.toNat hs) s.ra).1 := by
  obtain ⟨hss, perm, rfl⟩ := exists_map_eq_of_perm_map (List.map_flatten ▸ grant.perm)
  refine ⟨hss.flatten, perm.flatten, arrayAfter_addTxns c fun hs hm => ?_⟩
  obtain ⟨host, hh, hm⟩ := List.mem_flatten.1 (perm.mem_iff.1 hm)
  exact fits host hh hs hm

/-- Settles O58: two orders of grants add the same hashes in two orders. -/
theorem addsCommuteUnderEveryGrantOrder : Obligations.AddsCommuteUnderEveryGrantOrder := by
  intro s hosts xs ys h c fits grantX grantY
  obtain ⟨hs, permX, arrayX⟩ := arrayAfter_grantOrder c fits grantX
  obtain ⟨gs, permY, arrayY⟩ := arrayAfter_grantOrder c fits grantY
  rw [arrayX, arrayY]
  exact h.raiseAll_congr c (h.batchPairs_lt _) (h.batchPairs_lt _)
    (greatestFor_perm ((permX.trans permY.symm).map _))

end Sys2Proof.Machine

/-! SUPPORT. The family 30_encoding.md: the decoder and the encoder are inverse and agree with the
opcode table (R52 to R55, R61), a transaction is framed by its command word (R57), lines of the
assembler (R62), the status word and the result (R59, R60), and the sequences of a host (R63 to R66,
R124). -/

namespace Sys2Proof.Machine

/-! ### Decode and encode (R52, R53, R55, R61) -/

/-- Every command whose operands fit its fields is read back from its word: the fields that
its format does not use are 0. -/
theorem decode_encode {i : Instr} (wf : i.wf = true) : decode (encode i) = .ok i := by
  have fields := fun v p => fields_of_fieldBits (i := i) (v := v) (p := p)
  have rest := restField_encode i
  rw [decode, opField_encode]
  cases i with
  | nop | clear | hashrank | ser | estimate | qcfg =>
    obtain ⟨rsv, v, p⟩ := fields 0 0 rfl (by decide)
    simp [opcode, opFormat, fieldsLegal, opInstr, rsv, v, p]
  | config v | bytesneeded v =>
    obtain ⟨rsv, v, p⟩ := fields v 0 rfl (by decide)
    simp [opcode, opFormat, fieldsLegal, opInstr, rsv, v, p]
  | get p | add p | load p | merge p =>
    obtain ⟨rsv, v, p⟩ := fields 0 p rfl (of_decide_eq_true wf)
    simp [opcode, opFormat, fieldsLegal, opInstr, rsv, v, p]
  | set v p | updmax v p =>
    obtain ⟨rsv, v, p⟩ := fields v p rfl (of_decide_eq_true wf)
    simp [opcode, opFormat, fieldsLegal, opInstr, rsv, v, p]
  | illegalE r | illegalF r => simp [opcode, opFormat, fieldsLegal, opInstr, rest, operandBits]

/-- Settles O1: the bytes of a command's word read back as the word. -/
theorem decodeOfEncodeIsTheCommand : Obligations.DecodeOfEncodeIsTheCommand := fun i rest wf =>
  ⟨decode_encode wf, by rw [encodeBytes, decodeBytes_be32, decode_encode wf]⟩

/-- What a word decodes to, and that its fields are legal. -/
theorem decode_ok {cw : Word} {i : Instr} (d : decode cw = .ok i) :
    fieldsLegal (opFormat (opField cw)) cw = true ∧ i = opInstr (opField cw) cw := by
  unfold decode at d
  split at d
  · cases d
    exact ⟨‹_›, rfl⟩
  · cases d

/-- A decoded command has operands of its fields (R52). -/
theorem opInstr_wf (op : Nat) (cw : Word) : (opInstr op cw).wf = true := by
  have := pField_lt cw
  unfold opInstr
  split <;> simp [Instr.wf, this]

/-- The bits below OP of a word whose RSV is 0 are its V and P (R52). -/
theorem restField_of_rsvField {cw : Word} (rsv : rsvField cw = 0) :
    restField cw = fieldBits (vField cw) (pField cw) := by
  apply BitVec.eq_of_toNat_eq
  have := congrArg BitVec.toNat ((word_of_rest cw).trans (word_of_fields rsv).symm)
  simpa only [append_toNat, Nat.add_left_cancel_iff] using this

/-- The bits below OP of a word whose fields are legal are those of its command: a field that the
format does not use is 0 in both (R53). -/
theorem operandBits_opInstr {op : Nat} {cw : Word} (lt : op < 16)
    (legal : fieldsLegal (opFormat op) cw = true) :
    operandBits (opInstr op cw) = restField cw := by
  have rest : rsvField cw = 0 → _ := restField_of_rsvField
  interval_cases op <;>
    simp_all [opFormat, fieldsLegal, opInstr, operandBits]

/-- Settles O2: a word is its OP and the bits below, and the command has both. -/
theorem encodeOfDecodeIsTheWord : Obligations.EncodeOfDecodeIsTheWord := by
  intro cw i d
  have op := opcode_of_decode d
  obtain ⟨legal, rfl⟩ := decode_ok d
  refine ⟨opInstr_wf _ _, ?_⟩
  rw [encode, op, operandBits_opInstr (opField_lt cw) legal, word_of_rest]

/-! ### The opcode table (R61) -/

/-- A bit field of an AND is the AND of the bit fields (R8). -/
theorem slice_and (a b hi lo : Nat) : slice (a &&& b) hi lo = slice a hi lo &&& slice b hi lo := by
  rw [slice, Nat.and_div_two_pow, Nat.and_mod_two_pow, slice, slice]

theorem opField_and (cw m : Word) : opField (cw &&& m) = opField cw &&& opField m := by
  rw [opField, BitVec.toNat_and, slice_and, opField, opField]

theorem rsvField_and (cw m : Word) : rsvField (cw &&& m) = rsvField cw &&& rsvField m := by
  rw [rsvField, BitVec.toNat_and, slice_and, rsvField, rsvField]

theorem vField_and (cw m : Word) : vField (cw &&& m) = vField cw &&& vField m := by
  rw [vField, BitVec.toNat_and, slice_and, vField, vField, BitVec.ofNat_and]

theorem pField_and (cw m : Word) : pField (cw &&& m) = pField cw &&& pField m := by
  rw [pField, BitVec.toNat_and, slice_and, pField, pField]

/-- A word as a number is its four fields (R52). -/
theorem word_toNat_fields (cw : Word) :
    cw.toNat =
      opField cw * 2 ^ 28 + rsvField cw * 2 ^ 21 + (vField cw).toNat * 2 ^ 16 + pField cw := by
  have := cw.isLt
  simp only [opField, rsvField, vField, pField, slice, BitVec.toNat_ofNat]
  norm_num at this ⊢
  omega

/-- Two words are equal when their four fields are (R52). -/
theorem word_eq_iff_fields {x y : Word} :
    x = y ↔ opField x = opField y ∧ rsvField x = rsvField y ∧ vField x = vField y ∧
      pField x = pField y := by
  constructor
  · rintro rfl
    exact ⟨rfl, rfl, rfl, rfl⟩
  · rintro ⟨op, rsv, v, p⟩
    apply BitVec.eq_of_toNat_eq
    rw [word_toNat_fields x, word_toNat_fields y, op, rsv, v, p]

/-- The mask of a format's row in spec/opcode_table.json: OP, and the fields that are to be 0. -/
def formatMask : Format → Word
  | .Z => 0xFFFFFFFF
  | .V => 0xFFE0FFFF
  | .P => 0xFFFF0000
  | .PV => 0xFFE00000
  | .L => 0xFFFF0000
  | .illegal => 0xF0000000

/-- The table has one row for each OP, with the mask of its format and OP alone to match. -/
theorem opcodeRows_eq :
    opcodeRows = (List.range 16).map fun op =>
      (op, formatMask (opFormat op), BitVec.ofNat 32 (op * 2 ^ 28)) := by
  decide

/-- A row's mask keeps OP, and the fields that its format does not use. -/
theorem formatMask_fields (f : Format) :
    opField (formatMask f) = 15 ∧
      rsvField (formatMask f) = (if f = .illegal then 0 else 127) ∧
      vField (formatMask f) = (if f = .Z ∨ f = .P ∨ f = .L then 31#5 else 0#5) ∧
      pField (formatMask f) = if f = .Z ∨ f = .V then 65535 else 0 := by
  cases f <;> decide

/-- The fields of a row's match: OP alone. -/
theorem rowMatch_fields {op : Nat} (lt : op < 16) :
    opField (BitVec.ofNat 32 (op * 2 ^ 28)) = op ∧ rsvField (BitVec.ofNat 32 (op * 2 ^ 28)) = 0 ∧
      vField (BitVec.ofNat 32 (op * 2 ^ 28)) = 0#5 ∧ pField (BitVec.ofNat 32 (op * 2 ^ 28)) = 0 := by
  interval_cases op <;> decide

/-- A word matches a row when it has the OP of the row and the fields that the format does not use are
0 (R53, R55). -/
theorem and_formatMask_eq_iff (f : Format) {op : Nat} (lt : op < 16) (cw : Word) :
    cw &&& formatMask f = BitVec.ofNat 32 (op * 2 ^ 28) ↔
      opField cw = op ∧ fieldsLegal f cw = true := by
  obtain ⟨op1, rsv1, v1, p1⟩ := formatMask_fields f
  obtain ⟨op2, rsv2, v2, p2⟩ := rowMatch_fields lt
  have opMask : opField cw &&& 15 = opField cw :=
    (Nat.and_two_pow_sub_one_eq_mod _ 4).trans (Nat.mod_eq_of_lt (opField_lt cw))
  have rsvMask : rsvField cw &&& 127 = rsvField cw :=
    (Nat.and_two_pow_sub_one_eq_mod _ 7).trans (Nat.mod_eq_of_lt (slice_lt _ 27 21))
  have vMask : vField cw &&& 31#5 = vField cw := BitVec.and_allOnes
  have pMask : pField cw &&& 65535 = pField cw :=
    (Nat.and_two_pow_sub_one_eq_mod _ 16).trans (Nat.mod_eq_of_lt (pField_lt cw))
  rw [word_eq_iff_fields, opField_and, rsvField_and, vField_and, pField_and, op1, rsv1, v1, p1,
    op2, rsv2, v2, p2, opMask]
  cases f <;> simp [fieldsLegal, rsvMask, vMask, pMask, and_assoc]

/-- Settles O3: a word matches the row of its OP when its fields are legal, and no other row. -/
theorem decoderAcceptsExactlyTheTable : Obligations.DecoderAcceptsExactlyTheTable := by
  intro cw
  simp only [opcodeRows_eq, List.forall_mem_map, List.mem_range]
  constructor
  · intro op lt hit
    obtain ⟨rfl, legal⟩ := (and_formatMask_eq_iff _ lt cw).1 hit
    have d : decode cw = .ok (opInstr (opField cw) cw) := if_pos legal
    exact ⟨_, d, opcode_of_decode d⟩
  · intro miss
    exact if_neg fun legal =>
      miss _ (opField_lt cw) ((and_formatMask_eq_iff _ (opField_lt cw) cw).2 ⟨rfl, legal⟩)

/-! ### Framing (R34, R56, R57) -/

/-- The payload length read from a command's word is the command's (R56). -/
theorem plenWord_encode {i : Instr} (wf : i.wf = true) : plenWord (encode i) = plen i := by
  rw [plenWord, opField_encode]
  cases i with
  | add p | load p | merge p =>
    exact (fields_of_fieldBits (v := 0) rfl (of_decide_eq_true wf)).2.2
  | _ => rfl

/-- The framing of bytes that begin with a command word (R57). -/
theorem frame_be32 (cw : Word) (more : List Byte) :
    frame (be32 cw ++ more) =
      if plenWord cw ≤ more.length then
        some (⟨cw, more.take (plenWord cw)⟩, more.drop (plenWord cw))
      else none := by
  simp only [be32, List.cons_append, List.nil_append, frame, beWord_bytes]

/-- Fewer than the 4 bytes of a command word are no transaction (R57). -/
theorem frame_short {bs : List Byte} (h : bs.length < 4) : frame bs = none := by
  rcases bs with _ | ⟨a, _ | ⟨b, _ | ⟨c, _ | ⟨d, rest⟩⟩⟩⟩
  case cons.cons.cons.cons =>
    simp only [List.length_cons] at h
    omega
  all_goals rfl

/-- Settles O5: a run of the bytes that has the command word has fewer payload bytes than the word
asks for. -/
theorem framingFindsTheEndOfATransaction : Obligations.FramingFindsTheEndOfATransaction := by
  refine ⟨fun i => plenWord_encode, fun t rest length => ⟨?_, fun n hn => ?_⟩⟩
  · rw [Txn.bytes, List.append_assoc, frame_be32, ← length, if_pos (by simp)]
    simp
  · rw [Txn.bytes, List.length_append, be32_length] at hn
    by_cases short : n < 4
    · exact frame_short (by rw [List.length_take]; omega)
    · have word : (be32 t.cw).take n = be32 t.cw :=
        List.take_of_length_le (by rw [be32_length]; omega)
      rw [Txn.bytes, List.take_append, word, frame_be32, be32_length,
        if_neg (by rw [List.length_take]; omega)]

/-! ### Lines of the assembler (R56, R62) -/

/-- A line that names a command assembles to its word. -/
theorem assemble_cw {l : AsmLine} {i : Instr} (h : lineCommand l = some i) :
    (assemble l).cw = encode i := by
  cases l <;> cases h <;> rfl

/-- The numbers of the bytes of 32-bit values (R34, R62). -/
theorem wordPayload_map_toNat {ws : List Nat} (fit : ∀ w ∈ ws, w < 2 ^ 32) :
    (wordPayload ws).map BitVec.toNat = ws.flatMap valueBytes := by
  rw [wordPayload, List.map_flatMap]
  refine List.flatMap_congr fun w hw => ?_
  rw [be32_map_toNat, BitVec.toNat_ofNat, Nat.mod_eq_of_lt (fit w hw)]

/-- The numbers of raw bytes (R62). -/
theorem bytePayload_map_toNat {bs : List Nat} (fit : ∀ b ∈ bs, b < 256) :
    (bytePayload bs).map BitVec.toNat = bs := by
  rw [bytePayload, List.map_map]
  refine (List.map_congr_left fun b hb => ?_).trans (List.map_id bs)
  exact (BitVec.toNat_ofNat _ _).trans (Nat.mod_eq_of_lt (fit b hb))

theorem wordPayload_length (ws : List Nat) : (wordPayload ws).length = 4 * ws.length := by
  simp [wordPayload, List.length_flatMap, Nat.mul_comm]

theorem bytePayload_length (bs : List Nat) : (bytePayload bs).length = bs.length :=
  List.length_map _

/-- A line that fits names a well-formed command (R52). -/
theorem lineCommand_wf {l : AsmLine} {i : Instr} (fits : asmLineFits l = true)
    (h : lineCommand l = some i) : i.wf = true := by
  cases l with
  | txn cw bs => cases h
  | get p => cases h; exact fits
  | set p v | updmax p v => cases h; exact decide_eq_true (of_decide_eq_true fits).1
  | add _ | load _ | loadBytes _ | merge _ | mergeBytes _ =>
    cases h
    exact (Bool.and_eq_true_iff.1 fits).1
  | _ => cases h; rfl

/-- The payload of a line that fits is what the line names (R62). -/
theorem assemble_pay_map_toNat {l : AsmLine} (fits : asmLineFits l = true) :
    (assemble l).pay.map BitVec.toNat = linePayload l := by
  cases l with
  | hashrank h => exact wordPayload_map_toNat (ws := [h]) (by simpa [asmLineFits] using fits)
  | add ws | load ws | merge ws =>
    exact wordPayload_map_toNat (by simpa using (Bool.and_eq_true_iff.1 fits).2)
  | loadBytes bs | mergeBytes bs | txn cw bs =>
    exact bytePayload_map_toNat (by simpa using (Bool.and_eq_true_iff.1 fits).2)
  | _ => rfl

/-- A line names no illegal opcode, and gives the payload length that its command asks for (R56). -/
theorem assemble_pay_length {l : AsmLine} {i : Instr} (h : lineCommand l = some i) :
    illegalOp i = false ∧ (assemble l).pay.length = plen i ∧ raggedBatch i = false := by
  cases l with
  | txn cw bs => cases h
  | hashrank _ | load _ | merge _ => cases h; exact ⟨rfl, wordPayload_length _, rfl⟩
  | add hs => cases h; exact ⟨rfl, wordPayload_length _, by simp [raggedBatch]⟩
  | loadBytes _ | mergeBytes _ => cases h; exact ⟨rfl, bytePayload_length _, rfl⟩
  | _ => cases h; exact ⟨rfl, rfl, rfl⟩

/-- Settles O7: the word is the encoding of the command that the line names. -/
theorem assembledLinesAreLegalTransactions : Obligations.AssembledLinesAreLegalTransactions := by
  refine fun l fits => ⟨assemble_pay_map_toNat fits, fun i h => ?_, ?_⟩
  · have wf := lineCommand_wf fits h
    exact ⟨assemble_cw h ▸ decode_encode wf, wf, assemble_pay_length h⟩
  · rintro cw bs rfl
    simp only [asmLineFits, Bool.and_eq_true, decide_eq_true_eq] at fits
    exact (BitVec.toNat_ofNat _ _).trans (Nat.mod_eq_of_lt fits.1.1)

/-! ### The status word and the result (R59, R60) -/

/-- A command that succeeds has a status word with ECODE 0, UPDATED set by UPDMAX, ADD and MERGE alone,
and EPATH by ESTIMATE, which always names a branch (R59). -/
theorem effectOf_status {i : Instr} {s : State} (pass : firstError i s = none) :
    ∃ updated path result,
      (effectOf i s).responses = s.responses ++ [⟨statusWord 0 updated path, result⟩] ∧
      (updated = true → opcode i ∈ [0x5, 0x7, 0x9]) ∧ (path ≠ .none ↔ opcode i = 0xB) := by
  cases i with
  | illegalE r | illegalF r => cases pass
  | estimate =>
    exact ⟨false, _, _, rfl, nofun, iff_of_true (estimatePath_ne_none _ _ _) rfl⟩
  | updmax v p | add p | merge p =>
    exact ⟨_, .none, _, rfl, fun _ => by simp [opcode], by simp [opcode]⟩
  | _ => exact ⟨false, .none, _, rfl, nofun, by simp [opcode]⟩

/-- The response to a transaction: an error and nothing else, or a success with the status word of its
OP (R59, R107, R111). -/
theorem step_status {s t : State} {x : Txn} {rest : List Request} {r : Response}
    (hs : s.requests = .txn x :: rest) (hstep : step s = .next t)
    (hr : t.responses = s.responses ++ [r]) :
    (∃ e, r.status = errorStatus e) ∨
      ∃ updated path, r.status = statusWord 0 updated path ∧
        (updated = true → opField x.cw ∈ [0x5, 0x7, 0x9]) ∧
        (path ≠ .none ↔ opField x.cw = 0xB) := by
  cases d : decode x.cw with
  | error e =>
    rw [step_reject hs d] at hstep
    cases hstep
    exact .inl ⟨_, (Answered.respond_inj ⟨rfl, hr⟩).1.symm⟩
  | ok i =>
    rw [step_command hs d] at hstep
    rcases exec_cases hstep with ⟨e, -, rfl⟩ | ⟨pass, rfl⟩
    · exact .inl ⟨_, (Answered.respond_inj ⟨rfl, hr⟩).1.symm⟩
    · obtain ⟨updated, path, result, answer, u, p⟩ := effectOf_status pass
      rw [answer, List.append_cancel_left_eq, List.singleton_inj] at hr
      rw [opcode_of_decode d] at u p
      exact .inr ⟨updated, path, hr ▸ rfl, u, p⟩

/-- The result lengths of R60 by the lists of the OPs. -/
theorem resultLength_eq {op : Nat} (lt : op < 16) (size : Nat) (status : Word) :
    resultLength op size status =
      if statusECode status ≠ 0 then 0
      else if op ∈ [0x4, 0x6, 0xC, 0xD] then 4
      else if op = 0xB then 8
      else if op = 0xA then 4 * size
      else 0 := by
  unfold resultLength
  split
  · rfl
  · interval_cases op <;> rfl

theorem epathNumber_ne_zero (p : EPath) : epathNumber p ≠ 0 ↔ p ≠ .none := by
  cases p <;> decide

/-- Settles O15: the status word is that of an error or of a success, and the result has the length
that the host finds. -/
theorem statusAndResultHaveTheirLayout : Obligations.StatusAndResultHaveTheirLayout := by
  intro s t x rest r hs hstep hr
  have length := step_resultLength hs hstep hr
  rw [← length, resultLength_eq (opField_lt _)]
  rcases step_status hs hstep hr with ⟨e, status⟩ | ⟨updated, path, status, u, p⟩
  · have range := ecodeNumber_range e
    have lt : ecodeNumber e < 16 := by omega
    rw [status, errorStatus, statusECode_statusWord lt, statusUpdated_statusWord lt,
      statusEPath_statusWord lt, statusWord_toNat lt]
    refine ⟨?_, range.2, nofun, ?_, rfl⟩
    · simp [epathNumber]
      omega
    · simp [epathNumber]
      omega
  · have lt := epathNumber_lt path
    rw [status, statusECode_statusWord (by decide), statusUpdated_statusWord (by decide),
      statusEPath_statusWord (by decide), statusWord_toNat (by decide), epathNumber_ne_zero, p]
    refine ⟨?_, by decide, fun set => ⟨rfl, u ?_⟩, by simp, rfl⟩
    · split <;> omega
    · simpa using set

/-! ### Words and lines of text evaluated, illegal opcodes, a placed word (R52 to R55, R58, R62) -/

/-- Settles O4, by evaluation of the decoder. -/
theorem specWordsDecode : Obligations.SpecWordsDecode := by
  unfold Obligations.SpecWordsDecode
  decide

/-- Settles O6, by evaluation of the reader and the assembler. -/
theorem assemblerLinesGiveTheirTransactions : Obligations.AssemblerLinesGiveTheirTransactions := by
  unfold Obligations.AssemblerLinesGiveTheirTransactions
  decide +kernel

/-- Settles O25: the first check fails, whatever the payload. -/
theorem illegalOpcodesAreAnswered : Obligations.IllegalOpcodesAreAnswered := fun s rest =>
  ⟨⟨_, exec_fail (firstError_illegalE rest s), sameEngine_respond _ _ _, answered_respond _ _ _⟩,
    _, exec_fail (firstError_illegalF rest s), sameEngine_respond _ _ _, answered_respond _ _ _⟩

/-- A word is its own table word. -/
theorem tableWord_toNat (cw : Word) : tableWord 32 cw.toNat = cw := by
  rw [tableWord, Nat.min_self, Nat.mod_eq_of_lt cw.isLt, BitVec.ofNat_toNat, BitVec.setWidth_eq]

/-- Settles O9: the placed word is the command's own word. -/
theorem placedWordIsExecutedNext : Obligations.PlacedWordIsExecutedNext := by
  intro s i wf
  have word := tableWord_toNat (encode i)
  refine ⟨step_command rfl (i := i) ?_, ?_, ?_⟩
  · rw [word, decode_encode wf]
  · rw [State.pay_of_requests rfl, List.length_replicate, word, plenWord_encode wf]
  · rw [decodeTableWord, word, ← List.append_nil (be32 _), decodeBytes_be32, decode_encode wf]

/-! ### A host's sequences (R63 to R66, R124) -/

/-- A run keeps the invariants. -/
theorem Inv.runFor {s : State} (h : Inv s) (k : Nat) : Inv (runFor k s) := by
  induction k generalizing s with
  | zero => exact h
  | succ k ih =>
    obtain ⟨t, ht⟩ := step_next s
    rw [runFor_succ k ht]
    exact ih (everyStepKeepsTheInvariants s t h ht)

/-- A run over requests put on the port keeps the invariants. -/
theorem Inv.runAll_withRequests {s : State} (h : Inv s) (rs : List Request) :
    Inv (runAll (s.withRequests rs)) :=
  (h.withRequests rs).runFor _

theorem SameButArray.trans {s t u : State} (h : SameButArray s t) (k : SameButArray t u) :
    SameButArray s u := by
  obtain ⟨h1, h2, h3, h4⟩ := h
  obtain ⟨k1, k2, k3, k4⟩ := k
  exact ⟨k1.trans h1, k2.trans h2, k3.trans h3, k4.trans h4⟩

/-- A state with the configuration and the parameters of another is the other with its own array and
port. -/
theorem SameButArray.eq_array {s t : State} (h : SameButArray s t) :
    t = { s with ra := t.ra, requests := t.requests, responses := t.responses } := by
  obtain ⟨h1, h2, h3, h4⟩ := h
  rw [← h1, ← h2, ← h3, ← h4]

/-- Validity of a blob and its registers depend on the configuration and the layout only. -/
theorem SameButArray.blob {s t : State} (h : SameButArray s t) :
    t.count = s.count ∧ t.blobReg = s.blobReg ∧ ∀ ws, ValidBlob t ws ↔ ValidBlob s ws := by
  rw [h.eq_array]
  exact ⟨rfl, rfl, fun _ => Iff.rfl⟩

/-- A command alone on the port, with a payload of words, has its effect when its checks pass. -/
theorem runAll_wordsTxn {s : State} {i : Instr} {ws : List Word} (wf : i.wf = true)
    (pass : firstError i (s.withRequests [.txn (wordsTxn i ws)]) = none) :
    runAll (s.withRequests [.txn (wordsTxn i ws)]) =
      effectOf i (s.withRequests [.txn (wordsTxn i ws)]) := by
  have next := (step_command (s := s.withRequests [.txn (wordsTxn i ws)]) rfl
    (decode_encode wf)).trans (exec_pass pass)
  rw [runAll_step rfl next, runAll_nil (step_frame next).1]

/-! ### CLEAR, LOAD, MERGE, SER and ESTIMATE alone on the port (R76, R81, R82, R85, R99) -/

/-- CLEAR leaves every register 0 (R76). -/
theorem runAll_clear {s t : State} (h : Inv s) (c : s.configured = true)
    (run : runAll (s.withRequests [Request.txn (wordsTxn .clear [])]) = t) :
    SameButArray s t ∧ ∀ q, q < s.count → t.reg q = 0 := by
  rw [runAll_wordsTxn rfl ((firstError_clear _).2 ⟨rfl, c⟩)] at run
  subst run
  exact ⟨⟨rfl, rfl, rfl, rfl⟩, fun q hq => readReg_of_read_eq_zero
    ((Memory.read_clearBelow h.form s.size _).trans (if_pos (h.wordOf_lt hq).1))⟩

/-- The length of a valid blob fits P (R40). -/
theorem Inv.blob_fits {s : State} (h : Inv s) {ws : List Word} (valid : ValidBlob s ws) :
    4 * ws.length < 65536 := by
  have le := h.size_le
  have len := valid.1
  rw [numWordsMax] at le
  omega

/-- The words of a transaction of words. -/
theorem payWords_wordsTxn (s : State) (i : Instr) (ws : List Word) :
    (s.withRequests [.txn (wordsTxn i ws)]).payWords = ws :=
  beWords_flatMap_be32 ws

/-- A valid blob passes the check of R75. -/
theorem ValidBlob.blobValid {s : State} {ws : List Word} (valid : ValidBlob s ws) :
    blobValid s.params.fieldShift s.count ws = true :=
  (blobValid_iff _ _ _).2 (valid.1 ▸ valid.2)

/-- A valid blob on the port of a configured engine passes the checks of LOAD and MERGE (R110). -/
theorem ValidBlob.checks {s : State} {ws : List Word} (valid : ValidBlob s ws)
    (c : s.configured = true) (i : Instr) :
    (s.withRequests [.txn (wordsTxn i ws)]).pay.length = 4 * ws.length ∧
      s.configured = true ∧ 4 * ws.length = 4 * s.size ∧
      Machine.blobValid s.params.fieldShift s.count
        (s.withRequests [.txn (wordsTxn i ws)]).payWords = true :=
  ⟨flatMap_be32_length ws, c, congrArg (4 * ·) valid.1,
    by rw [payWords_wordsTxn]; exact valid.blobValid⟩

/-- LOAD of a valid blob stores it, and is answered 0 (R81). -/
theorem runAll_load {s t : State} (h : Inv s) (c : s.configured = true) {ws : List Word}
    (valid : ValidBlob s ws) (run : runAll (s.withRequests [Request.txn (loadTxn ws)]) = t) :
    SameButArray s t ∧ t.ra = s.ra.store ws ∧ t.responses = s.responses ++ [⟨0#32, []⟩] := by
  have wf : (Instr.load (4 * ws.length)).wf = true := decide_eq_true (h.blob_fits valid)
  rw [loadTxn, runAll_wordsTxn wf ((firstError_load _ _).2 (valid.checks c _)), effectOf,
    payWords_wordsTxn] at run
  subst run
  exact ⟨⟨rfl, rfl, rfl, rfl⟩, rfl, rfl⟩

/-- MERGE of a valid blob makes each register the greater of its own value and the blob's (R82). -/
theorem runAll_merge {s t : State} (h : Inv s) (c : s.configured = true) {ws : List Word}
    (valid : ValidBlob s ws) (run : runAll (s.withRequests [Request.txn (mergeTxn ws)]) = t) :
    SameButArray s t ∧
      ∀ q, q < s.count → (t.reg q).toNat = max (s.reg q).toNat (s.blobReg ws q).toNat := by
  have wf : (Instr.merge (4 * ws.length)).wf = true := decide_eq_true (h.blob_fits valid)
  rw [mergeTxn, runAll_wordsTxn wf ((firstError_merge _ _).2 (valid.checks c _)), effectOf,
    payWords_wordsTxn] at run
  subst run
  refine ⟨⟨rfl, rfl, rfl, rfl⟩, fun q hq => ?_⟩
  refine (readReg_raiseAll h.layout h.form (h.words_lt fun _ => mem_blobRegs) q).trans ?_
  rw [greatestFor_blobRegs, if_pos hq]
  rfl

/-- The words of the array of a configuration, in order: the blob that SER returns (R33, R85). -/
def State.blob (s : State) : List Word := (List.range s.size).map s.ra.read

theorem State.blobBytes_eq (s : State) : blobBytes s.ra s.size = s.blob.flatMap be32 := by
  rw [State.blob, List.flatMap_map, blobBytes]

theorem State.blob_getD (s : State) {w : Nat} (hw : w < s.size) :
    s.blob.getD w 0 = s.ra.read w := by
  simp [State.blob, hw]

/-- The registers of the array's blob are the registers (R86). -/
theorem State.blobReg_blob (s : State) {q : Nat} (hq : q < s.count) :
    s.blobReg s.blob q = s.reg q := by
  rw [State.blobReg, Machine.blobReg, s.blob_getD (wordOf_lt_sizeWords hq)]
  rfl

/-- The array of a configured engine is a valid blob (R24, R25, R75). -/
theorem Inv.validBlob {s : State} (h : Inv s) (c : s.configured = true) : ValidBlob s s.blob :=
  ⟨by simp [State.blob], fun w hw => by rw [s.blob_getD hw]; exact h.clean c w hw⟩

/-- SER returns, last, the array's blob (R85). -/
theorem runAll_ser {s : State} (c : s.configured = true) :
    (runAll (s.withRequests (requestsOf [.ser]))).responses.getLast? =
      some ⟨0#32, s.blob.flatMap be32⟩ := by
  have run : runAll (s.withRequests (requestsOf [.ser])) = _ :=
    runAll_wordsTxn (ws := []) rfl ((firstError_ser _).2 ⟨rfl, c⟩)
  rw [run, ← s.blobBytes_eq]
  exact List.getLast?_concat

/-- A sequence that keeps the configuration and ends in SER returns, last, a valid blob with the
registers that the sequence leaves (R85). -/
theorem runAll_append_ser {s t : State} {xs : List Request} (h : Inv s)
    (c : s.configured = true) (run : runAll (s.withRequests xs) = t) (same : SameButArray s t) :
    ∃ blob, ValidBlob s blob ∧
      (runAll (s.withRequests (xs ++ requestsOf [.ser]))).responses.getLast? =
        some ⟨0#32, blob.flatMap be32⟩ ∧
      ∀ q, q < s.count → s.blobReg blob q = t.reg q := by
  have inv : Inv t := run ▸ h.runAll_withRequests xs
  have configured : t.configured = true := same.1.trans c
  obtain ⟨count, blobReg, validBlob⟩ := same.blob
  refine ⟨t.blob, (validBlob _).1 (inv.validBlob configured), ?_, fun q hq => ?_⟩
  · rw [runAll_append, run, runAll_ser configured]
  · rw [← blobReg, t.blobReg_blob (count ▸ hq)]

/-- ESTIMATE returns the branch and the estimate of the array (R99). -/
theorem runAll_estimate {s : State} (c : s.configured = true) :
    (runAll (s.withRequests (requestsOf [.estimate]))).responses =
      s.responses ++
        [⟨epathStatus s.estimate.1, be64 (BitVec.ofNat 64 s.estimate.2)⟩] :=
  congrArg State.responses (runAll_wordsTxn (i := .estimate) (ws := []) rfl
    ((firstError_estimate _).2 ⟨rfl, c⟩))

/-! ### BMERGE and ESTCARD (R65, R66) -/

/-- Raw bytes given by their numbers (R62). -/
theorem bytePayload_toNat (bs : List Byte) : bytePayload (bs.map BitVec.toNat) = bs := by
  simp [bytePayload, Function.comp_def]

theorem assemble_loadBytes (ws : List Word) :
    assemble (.loadBytes ((ws.flatMap be32).map BitVec.toNat)) = loadTxn ws := by
  rw [assemble, bytePayload_toNat, List.length_map, flatMap_be32_length]
  rfl

theorem assemble_mergeBytes (ws : List Word) :
    assemble (.mergeBytes ((ws.flatMap be32).map BitVec.toNat)) = mergeTxn ws := by
  rw [assemble, bytePayload_toNat, List.length_map, flatMap_be32_length]
  rfl

/-- Settles O55: LOAD gives the registers of the first blob, and MERGE raises them to the second's. -/
theorem bmergeReturnsTheMaximum : Obligations.BmergeReturnsTheMaximum := by
  refine ⟨fun _ => rfl, fun s a b h c validA validB => ?_⟩
  obtain ⟨t, load⟩ : ∃ t, runAll (s.withRequests [Request.txn (loadTxn a)]) = t := ⟨_, rfl⟩
  obtain ⟨u, merge⟩ : ∃ u, runAll (t.withRequests [Request.txn (mergeTxn b)]) = u := ⟨_, rfl⟩
  have inv : Inv t := load ▸ h.runAll_withRequests _
  obtain ⟨sameT, array, -⟩ := runAll_load h c validA load
  obtain ⟨count, blobReg, validBlob⟩ := sameT.blob
  obtain ⟨sameU, greater⟩ := runAll_merge inv (sameT.1.trans c) ((validBlob b).2 validB) merge
  have run :
      runAll (s.withRequests ([Request.txn (loadTxn a)] ++ [Request.txn (mergeTxn b)])) = u := by
    rw [runAll_append, load, merge]
  obtain ⟨blob, valid, last, reg⟩ := runAll_append_ser h c run (sameT.trans sameU)
  have requests : requestsOf (bMerge (some ((a.flatMap be32).map BitVec.toNat))
      ((b.flatMap be32).map BitVec.toNat)) =
        [Request.txn (loadTxn a)] ++ [Request.txn (mergeTxn b)] ++ requestsOf [.ser] := by
    rw [← assemble_loadBytes, ← assemble_mergeBytes]
    rfl
  refine ⟨blob, valid, by rw [requests, last], fun q hq => ?_⟩
  have held : t.reg q = s.blobReg a q := by
    rw [State.reg, array, readReg_store _ h.form (validA.1 ▸ (h.wordOf_lt hq).1), ← blobReg]
    rfl
  rw [reg q hq, greater q (count ▸ hq), held, blobReg]

/-- Settles O56: the LOAD leaves the array that holds the blob, whose estimate is returned. -/
theorem estcardReturnsTheEstimateOfTheBlob : Obligations.EstcardReturnsTheEstimateOfTheBlob := by
  refine ⟨rfl, fun s blob h c valid => ?_⟩
  obtain ⟨t, load⟩ : ∃ t, runAll (s.withRequests [Request.txn (loadTxn blob)]) = t := ⟨_, rfl⟩
  obtain ⟨same, array, responses⟩ := runAll_load h c valid load
  have requests : requestsOf (estCard (some ((blob.flatMap be32).map BitVec.toNat))) =
      [Request.txn (loadTxn blob)] ++ requestsOf [.estimate] := by
    rw [← assemble_loadBytes]
    rfl
  have estimate : t.estimate = (s.withRa (s.ra.store blob)).estimate := by
    rw [same.eq_array, array]
    rfl
  rw [requests, runAll_append, load, runAll_estimate (same.1.trans c), responses, estimate,
    List.append_assoc]
  rfl

/-! ### ADDMEMBERS (R63, R124) -/

/-- The batches are the hashes, cut (R63). -/
theorem batches_flatten (fuel : Nat) (hs : List Nat) : (batches fuel hs).flatten = hs := by
  induction fuel generalizing hs with
  | zero => simp [batches]
  | succ fuel ih =>
    rw [batches]
    split
    · simp
    · rw [List.flatten_cons, ih, List.take_append_drop]

/-- Each batch fits an ADD (R63, R71). -/
theorem batches_length {fuel : Nat} {hs : List Nat} (enough : hs.length ≤ fuel) :
    ∀ b ∈ batches fuel hs, b.length ≤ maxBatch := by
  induction fuel generalizing hs with
  | zero => simp_all [batches]
  | succ fuel ih =>
    rw [batches]
    split
    · simpa
    · rw [List.forall_mem_cons]
      refine ⟨List.length_take_le _ _, ih ?_⟩
      rw [List.length_drop]
      simp only [maxBatch] at *
      omega

/-- ADD lines as transactions of words (R62). -/
theorem requestsOf_add (bs : List (List Nat)) :
    requestsOf (bs.map .add) = ((bs.map (List.map (BitVec.ofNat 32))).map addTxn).map .txn := by
  rw [requestsOf, List.map_map, List.map_map, List.map_map]
  refine List.map_congr_left fun b _ => ?_
  simp [assemble, wordPayload, addTxn, wordsTxn, List.flatMap_map]

/-- An ADD keeps all but the array (R71). -/
theorem runAll_addTxn {s : State} (c : s.configured = true) {hs : List Word}
    (fits : 4 * hs.length < 65536) :
    SameButArray s (runAll (s.withRequests [Request.txn (addTxn hs)])) := by
  have next := step_addTxn (s := s.withRequests [Request.txn (addTxn hs)]) rfl c fits
  rw [runAll_step rfl next, runAll_nil rfl]
  exact ⟨rfl, rfl, rfl, rfl⟩

/-- ADDs one after another keep all but the array. -/
theorem runAll_addTxns {s : State} (c : s.configured = true) {hss : List (List Word)}
    (fits : ∀ hs ∈ hss, 4 * hs.length < 65536) :
    SameButArray s (runAll (s.withRequests ((hss.map addTxn).map .txn))) := by
  induction hss generalizing s with
  | nil => exact ⟨rfl, rfl, rfl, rfl⟩
  | cons hs hss ih =>
    rw [List.forall_mem_cons] at fits
    have first := runAll_addTxn c fits.1
    have run := runAll_append s [Request.txn (addTxn hs)] ((hss.map addTxn).map .txn)
    exact run ▸ first.trans (ih (first.1.trans c) fits.2)

/-- The ADDs of a list of hashes, however cut, make each register the greater of its own value and the
greatest rank of its bucket (R63, R72). -/
theorem runAll_batches {s t : State} (h : Inv s) (c : s.configured = true) {hs : List Nat}
    (run : runAll (s.withRequests (requestsOf ((batches hs.length hs).map .add))) = t) :
    SameButArray s t ∧ ∀ q, (t.reg q).toNat = max (s.reg q).toNat
      (greatestFor q (batchPairs s.log2m.toNat (hs.map (BitVec.ofNat 32)))) := by
  have fits : ∀ b ∈ (batches hs.length hs).map (List.map (BitVec.ofNat 32)),
      4 * b.length < 65536 := by
    rw [List.forall_mem_map]
    intro b hb
    have := batches_length le_rfl b hb
    rw [maxBatch] at this
    rw [List.length_map]
    omega
  rw [requestsOf_add] at run
  have same := run ▸ runAll_addTxns c fits
  have array := arrayAfter_addTxns c fits
  rw [arrayAfter, run, ← List.map_flatten, batches_flatten] at array
  refine ⟨same, fun q => ?_⟩
  rw [State.reg, array, same.2.2.1]
  exact h.readReg_batch _ q

/-- Settles O54: CLEAR leaves the registers 0, and the ADDs raise them to the greatest ranks. -/
theorem addmembersBuildsTheSketch : Obligations.AddmembersBuildsTheSketch := by
  intro s hs h c _
  obtain ⟨low, high⟩ := h.log2m_range c
  let adds := requestsOf ((batches hs.length hs).map .add)
  obtain ⟨t, clear⟩ : ∃ t, runAll (s.withRequests [Request.txn (wordsTxn .clear [])]) = t :=
    ⟨_, rfl⟩
  obtain ⟨u, add⟩ : ∃ u, runAll (t.withRequests adds) = u := ⟨_, rfl⟩
  have inv : Inv t := clear ▸ h.runAll_withRequests _
  obtain ⟨sameT, zero⟩ := runAll_clear h c clear
  obtain ⟨sameU, raised⟩ := runAll_batches inv (sameT.1.trans c) add
  have run : runAll (s.withRequests ([Request.txn (wordsTxn .clear [])] ++ adds)) = u := by
    rw [runAll_append, clear, add]
  obtain ⟨blob, valid, last, reg⟩ := runAll_append_ser h c run (sameT.trans sameU)
  have requests : requestsOf (addMembers hs) =
      [Request.txn (wordsTxn .clear [])] ++ adds ++ requestsOf [.ser] := List.map_append
  refine ⟨blob, valid, by rw [requests, last], fun q hq => ?_⟩
  have greatest : (s.blobReg blob q).toNat =
      greatestFor q (batchPairs s.log2m.toNat (hs.map (BitVec.ofNat 32))) := by
    rw [reg q hq, raised q, zero q hq, sameT.2.1]
    exact Nat.zero_max _
  constructor
  · rintro x hx rfl
    rw [greatest]
    exact le_greatestFor_batch low high (List.mem_map_of_mem hx)
  · rcases greatestFor_batch_mem low high (hs.map (BitVec.ofNat 32)) q with
      none | ⟨_, mem, bucket, rank⟩
    · exact .inl (BitVec.eq_of_toNat_eq (greatest.trans none))
    · obtain ⟨x, hx, rfl⟩ := List.mem_map.1 mem
      exact .inr ⟨x, hx, bucket, rank.trans greatest.symm⟩

/-- Settles O59, by a run of one order of grants: the host of 0xDEADBEEF runs whole between the CLEAR
and the ADD of the other. -/
theorem interleavedSequencesShareTheArray : Obligations.InterleavedSequencesShareTheArray := by
  refine ⟨[.clear, .clear, .add [0xDEADBEEF], .ser, .add [0x12345678], .ser].map assemble, ?_,
    _, ?_, rfl⟩
  · exact .grant [] _ _ _ _ (.grant [_] [] _ _ _ (.grant [_] [] _ _ _ (.grant [_] [] _ _ _
      (.grant [] _ _ _ _ (.grant [] _ _ _ _ (.done _ (by simp)))))))
  · decide +kernel

end Sys2Proof.Machine

/-! SUPPORT. The family 40_hash_rank.md: the range of the rank (R69), HASHRANK (R67, R68, R70), and ADDs,
which depend on the set of the hashes only (R71, R72). -/

namespace Sys2Proof.Machine

/-! ### The range of the rank (R67 to R69) -/

/-- The rank is 1 when the first bit below the bucket is 1: the bits below are then at least its weight
(R69). -/
theorem rank_eq_one_iff {n : Nat} (h1 : 1 ≤ n) (h2 : n ≤ 31) (h : Word) :
    rank n h = 1 ↔ 2 ^ (31 - n) ≤ h.toNat % 2 ^ (32 - n) := by
  obtain ⟨pos, -, spec⟩ := rank_spec h1 h2 h
  have weight : 0 < 2 ^ (31 - n) := by positivity
  split at spec
  · omega
  · obtain ⟨-, low, high⟩ := spec
    constructor
    · intro one
      rwa [one, show 32 - n - 1 = 31 - n by omega] at low
    · intro first
      have : 31 - n < 33 - n - rank n h :=
        (Nat.pow_lt_pow_iff_right (a := 2) (by decide)).1 (first.trans_lt high)
      omega

/-- The rank is greatest when the bits below the bucket are all 0 (R69). -/
theorem rank_eq_greatest_iff {n : Nat} (h1 : 1 ≤ n) (h2 : n ≤ 31) (h : Word) :
    rank n h = 33 - n ↔ h.toNat % 2 ^ (32 - n) = 0 := by
  obtain ⟨-, -, spec⟩ := rank_spec h1 h2 h
  split at spec <;> omega

/-- The first bit below the bucket, against the number that the bits below are (R8). -/
theorem slice_firstBit {n : Nat} (hn : n ≤ 31) (v : Nat) :
    slice v (31 - n) (31 - n) = 1 ↔ 2 ^ (31 - n) ≤ v % 2 ^ (32 - n) := by
  have width : 31 - n + 1 - (31 - n) = 1 := by omega
  have double : 2 ^ (32 - n) = 2 * 2 ^ (31 - n) := by rw [← pow_succ']; congr 1; omega
  have bit : slice v (31 - n) (31 - n) = v % 2 ^ (32 - n) / 2 ^ (31 - n) := by
    rw [slice, width, double, Nat.mod_mul_left_div_self, pow_one]
  have lt : slice v (31 - n) (31 - n) < 2 := by simpa [width] using slice_lt v (31 - n) (31 - n)
  rw [← Nat.one_le_div_iff (by positivity), ← bit]
  omega

/-- The bits below the bucket, as a number (R8). -/
theorem slice_belowBucket {n : Nat} (hn : n ≤ 31) (v : Nat) :
    slice v (31 - n) 0 = v % 2 ^ (32 - n) := by
  rw [slice, pow_zero, Nat.div_one]
  congr 2
  omega

/-- Settles O27: the bounds are those of the rank, and both conditions are about the number that the bits
below the bucket are. -/
theorem rankRange : Obligations.RankRange := by
  intro n h low high
  obtain ⟨pos, le, -⟩ := rank_spec (n := n) (by omega) (by omega) h
  refine ⟨pos, le, by omega, ?_, ?_, bucket_lt (by omega) h⟩
  · rw [rank_eq_one_iff (by omega) (by omega), slice_firstBit (by omega)]
  · rw [rank_eq_greatest_iff (by omega) (by omega), slice_belowBucket (by omega)]

/-! ### HASHRANK (R70) -/

/-- HASHRANK's result as a number: the rank and the bucket do not overlap (R70). -/
theorem hashRankWord_toNat {n : Nat} (h1 : 4 ≤ n) (h2 : n ≤ 16) (h : Word) :
    (hashRankWord n h).toNat = rank n h * 2 ^ 16 + bucket n h := by
  have hr := rank_le h1 h2 h
  have hb : bucket n h < 2 ^ 16 := (bucket_lt (by omega) h).trans_le (countOf_le h2)
  have fields := or_fields_toNat (c := 0) (by decide) (show rank n h < 2 ^ 5 by omega) hb
  rw [BitVec.zero_shiftLeft, BitVec.zero_or] at fields
  rw [hashRankWord, fields]
  omega

/-- Settles O26: the result is the word of the bucket and the rank, which `rank_spec` bounds. -/
theorem hashrankReturnsBucketAndRank : Obligations.HashrankReturnsBucketAndRank := by
  intro s h inv c pay
  obtain ⟨low, high⟩ := inv.log2m_range c
  have hash : s.payHash = h := by
    rw [State.payHash, State.payWords, pay, ← List.append_nil (be32 h), beWords_be32_append]
    rfl
  have pass : firstError .hashrank s = none :=
    (firstError_hashrank s).2 ⟨by rw [pay, be32_length], c⟩
  have next := exec_pass pass
  rw [effectOf, hash] at next
  refine ⟨_, _, rank s.log2m.toNat h, next, sameEngine_respond _ _ _, answered_respond _ _ _, ?_,
    (rank_le low high h).trans_lt (by decide), ?_⟩
  · rw [hashRankWord_toNat low high, bucket_eq]
  · obtain ⟨pos, -, spec⟩ := rank_spec (n := s.log2m.toNat) (by omega) (by omega) h
    split at spec
    · rwa [if_pos ‹_›]
    · rw [if_neg ‹_›]
      exact ⟨pos, spec⟩

/-! ### ADDs depend on the set of the hashes only (R71, R72) -/

/-- A batch that holds every hash of another gives each register at least as great a rank. -/
theorem greatestFor_batch_mono {n : Nat} (h1 : 4 ≤ n) (h2 : n ≤ 16) {hs gs : List Word}
    (sub : hs ⊆ gs) (q : Nat) :
    greatestFor q (batchPairs n hs) ≤ greatestFor q (batchPairs n gs) := by
  rcases greatestFor_batch_mem h1 h2 hs q with zero | ⟨h, hm, rfl, greatest⟩
  · omega
  · exact greatest ▸ le_greatestFor_batch h1 h2 (sub hm)

/-- The greatest rank that a batch gives a register depends on which hashes it holds only (R72). -/
theorem greatestFor_batch_congr {n : Nat} (h1 : 4 ≤ n) (h2 : n ≤ 16) {hs gs : List Word}
    (same : ∀ h, h ∈ hs ↔ h ∈ gs) (q : Nat) :
    greatestFor q (batchPairs n hs) = greatestFor q (batchPairs n gs) :=
  (greatestFor_batch_mono h1 h2 (fun h => (same h).1) q).antisymm
    (greatestFor_batch_mono h1 h2 (fun h => (same h).2) q)

/-- A value that is the greater of the prior one and the greatest rank of a batch: it is not below the
prior value or a rank, and it is one of them (R72). -/
theorem max_greatestFor_batch {n : Nat} (h1 : 4 ≤ n) (h2 : n ≤ 16) {hs : List Word} {q : Nat}
    {old new : RegVal} (value : new.toNat = max old.toNat (greatestFor q (batchPairs n hs))) :
    old.toNat ≤ new.toNat ∧ (∀ h ∈ hs, bucket n h = q → rank n h ≤ new.toNat) ∧
      (new = old ∨ ∃ h ∈ hs, bucket n h = q ∧ rank n h = new.toNat) := by
  refine ⟨value ▸ le_max_left _ _, ?_, ?_⟩
  · rintro h hm rfl
    exact (le_greatestFor_batch h1 h2 hm).trans (value ▸ le_max_right _ _)
  · rcases le_or_gt (greatestFor q (batchPairs n hs)) old.toNat with le | gt
    · exact .inl (BitVec.eq_of_toNat_eq (value.trans (max_eq_left le)))
    · rw [max_eq_right gt.le] at value
      rcases greatestFor_batch_mem h1 h2 hs q with zero | ⟨h, hm, bucket, rank⟩
      · omega
      · exact .inr ⟨h, hm, bucket, rank.trans value.symm⟩

/-- ADDs of batches are a list of transactions. -/
theorem afterAdds_eq (s : State) (hss : List (List Word)) :
    afterAdds s hss = runAll (s.withRequests ((hss.map addTxn).map .txn)) := by
  rw [List.map_map]
  rfl

/-- ADDs keep everything of the engine but the array, and raise the registers of all their hashes as one
batch would (R71, R72). -/
theorem afterAdds_spec {s : State} (c : s.configured = true) {hss : List (List Word)}
    (fits : ∀ hs ∈ hss, 4 * hs.length < 65536) :
    SameButArray s (afterAdds s hss) ∧ (afterAdds s hss).ra =
      (raiseAll s.params.fieldShift (batchPairs s.log2m.toNat hss.flatten) s.ra).1 := by
  rw [afterAdds_eq]
  exact ⟨runAll_addTxns c fits, arrayAfter_addTxns c fits⟩

/-- Two states that each differ from a third in the array only are the same engine when their arrays
are. -/
theorem SameButArray.sameEngine {s t u : State} (ht : SameButArray s t) (hu : SameButArray s u)
    (ra : u.ra = t.ra) : SameEngine t u := by
  obtain ⟨t1, t2, t3, t4⟩ := ht
  obtain ⟨u1, u2, u3, u4⟩ := hu
  exact ⟨u1.trans t1.symm, u2.trans t2.symm, ra, u3.trans t3.symm, u4.trans t4.symm⟩

/-- Settles O29: ADDs raise as one batch of all their hashes, and two batches of the same hashes give each
register the same greatest rank. -/
theorem addDependsOnTheSetOfHashesOnly : Obligations.AddDependsOnTheSetOfHashesOnly := by
  intro s hss inv c fits
  obtain ⟨low, high⟩ := inv.log2m_range c
  obtain ⟨frame, array⟩ := afterAdds_spec c fits
  refine ⟨fun q _ => max_greatestFor_batch low high ?_, fun gss fits' same => ?_⟩
  · rw [State.reg, array, frame.2.2.1]
    exact inv.readReg_batch _ q
  · obtain ⟨frame', array'⟩ := afterAdds_spec c fits'
    refine frame.sameEngine frame' ?_
    rw [array, array']
    exact inv.raiseAll_congr c (inv.batchPairs_lt _) (inv.batchPairs_lt _)
      (greatestFor_batch_congr low high fun h => (same h).symm)

end Sys2Proof.Machine

/-! SUPPORT. The family 41_register_set.md: GET and UPDMAX (R78, R79), MERGE as a per-register maximum and
a join (R82 to R84), SER and LOAD as inverses (R86), the sizes of blobs (R88, R89), and which commands
lower a register (R87). -/

namespace Sys2Proof.Machine

/-! ### GET and UPDMAX (R78 to R80) -/

/-- A register zero-extended to 32 bits, as bytes (R78). -/
theorem be32_regVal (v : RegVal) : be32 (v.setWidth 32) = [0, 0, 0, BitVec.ofNat 8 v.toNat] := by
  revert v
  decide

/-- Settles O32: the result is the register's bytes. -/
theorem getReturnsTheRegister : Obligations.GetReturnsTheRegister := by
  intro s p pay c hp
  refine ⟨_, exec_pass ((firstError_get p s).2 ⟨pay, c, hp⟩), sameEngine_respond _ _ _, ?_⟩
  rw [← be32_regVal]
  exact answered_respond _ _ _

/-- Settles O33: the one raise writes the greater value, or is no rise and changes nothing. -/
theorem updmaxRaisesOneRegister : Obligations.UpdmaxRaisesOneRegister := by
  intro s v p h pay c hp
  have reg := readReg_raiseReg h.layout h.form p v
  have flag := raiseReg_flag s.params.fieldShift s.ra p v
  refine ⟨_, exec_pass ((firstError_updmax v p s).2 ⟨pay, c, hp⟩), ⟨rfl, rfl, rfl, rfl⟩, ?_,
    fun q hq => BitVec.eq_of_toNat_eq ((reg q).trans (if_neg hq)),
    fun w hw => read_raiseReg_other _ h.form p v hw,
    h.illegal_unchanged (h.withRa_raiseReg c hp v) c⟩
  split
  · rename_i rise
    refine ⟨BitVec.eq_of_toNat_eq ?_, ?_⟩
    · exact (reg p).trans ((if_pos rfl).trans (max_eq_right rise.le))
    · rw [effectOf, flag.2 rise]
      exact answered_respond _ _ _
  · rename_i still
    have unset : (raiseReg s.params.fieldShift s.ra p v).2 = false :=
      Bool.eq_false_iff.2 (mt flag.1 still)
    refine ⟨raiseReg_unchanged _ _ _ _ unset, ?_⟩
    rw [effectOf, unset]
    exact answered_respond _ _ _

/-! ### MERGE (R82 to R84) -/

/-- The registers after the registers of a blob are raised: the greater of the prior value and the
blob's (R82). -/
theorem Inv.readReg_merge {s : State} (h : Inv s) (ws : List Word) {p : Nat} (hp : p < s.count) :
    (readReg s.params.fieldShift
        (raiseAll s.params.fieldShift (blobRegs s.params.fieldShift s.count ws) s.ra).1 p).toNat =
      max (s.reg p).toNat (s.blobReg ws p).toNat := by
  rw [readReg_raiseAll h.layout h.form (h.words_lt fun _ => mem_blobRegs), greatestFor_blobRegs,
    if_pos hp]
  rfl

/-- UPDATED of a merge says that a register of the blob is greater (R82). -/
theorem Inv.merge_flag {s : State} (h : Inv s) (ws : List Word) :
    (raiseAll s.params.fieldShift (blobRegs s.params.fieldShift s.count ws) s.ra).2 = true ↔
      ∃ p, p < s.count ∧ (s.reg p).toNat < (s.blobReg ws p).toNat := by
  rw [raiseAll_flag h.layout h.form (h.words_lt fun _ => mem_blobRegs)]
  refine exists_congr fun p => ?_
  rw [greatestFor_blobRegs]
  split
  · exact (and_iff_right ‹_›).symm
  · exact iff_of_false (Nat.not_lt_zero _) fun below => absurd below.1 ‹_›

/-- Settles O35: the registers of the blob are raised, all of them in words below SIZE. -/
theorem mergeTakesTheMaximumOfEachRegister : Obligations.MergeTakesTheMaximumOfEachRegister := by
  intro s h c len valid
  have pass : firstError (.merge (4 * s.size)) s = none :=
    (firstError_merge _ s).2 ⟨len, c, rfl, valid.blobValid⟩
  refine ⟨_, _, exec_pass pass, ⟨rfl, rfl, rfl, rfl⟩, ?_, fun p => h.readReg_merge s.payWords,
    h.merge_flag s.payWords, fun w hw => ?_,
    h.illegal_unchanged (h.withRa_raiseAll c fun _ => mem_blobRegs) c⟩
  · rw [← updatedStatus_eq]
    exact answered_respond _ _ _
  · refine read_raiseAll_other _ h.form (h.words_lt fun _ => mem_blobRegs) fun x hx => ?_
    have := (h.wordOf_lt (mem_blobRegs hx)).1
    omega

/-- MERGEs one after another keep all but the array, and make each register the greatest of its own
value and the blobs' (R82, R84). -/
theorem runAll_merges {s t : State} (h : Inv s) (c : s.configured = true) {bs : List (List Word)}
    (valid : ∀ b ∈ bs, ValidBlob s b)
    (run : runAll (s.withRequests ((bs.map mergeTxn).map .txn)) = t) :
    SameButArray s t ∧ ∀ q, q < s.count → (t.reg q).toNat =
      max (s.reg q).toNat (bs.toFinset.sup fun b => (s.blobReg b q).toNat) := by
  induction bs generalizing s with
  | nil =>
    subst run
    exact ⟨⟨rfl, rfl, rfl, rfl⟩, fun q _ => (Nat.max_zero _).symm⟩
  | cons b bs ih =>
    obtain ⟨validB, validBs⟩ := List.forall_mem_cons.1 valid
    obtain ⟨u, merge⟩ : ∃ u, runAll (s.withRequests [Request.txn (mergeTxn b)]) = u := ⟨_, rfl⟩
    have rest : runAll (u.withRequests ((bs.map mergeTxn).map .txn)) = t := by
      rw [← merge, ← runAll_append]
      exact run
    obtain ⟨sameU, regU⟩ := runAll_merge h c validB merge
    obtain ⟨count, blobReg, validBlob⟩ := sameU.blob
    obtain ⟨sameT, regT⟩ := ih (merge ▸ h.runAll_withRequests _) (sameU.1.trans c)
      (fun a ha => (validBlob a).2 (validBs a ha)) rest
    refine ⟨sameU.trans sameT, fun q hq => ?_⟩
    rw [regT q (count ▸ hq), regU q hq, blobReg, List.toFinset_cons, Finset.sup_insert]
    exact max_assoc _ _ _

/-- LOAD of a blob and MERGEs of others make each register the greatest of all the blobs' (R81, R82). -/
theorem runAll_load_merges {s t : State} (h : Inv s) (c : s.configured = true) {a : List Word}
    {bs : List (List Word)} (valid : ∀ b ∈ a :: bs, ValidBlob s b)
    (run : runAll (s.withRequests ((loadTxn a :: bs.map mergeTxn).map .txn)) = t) :
    SameButArray s t ∧ ∀ q, q < s.count →
      (t.reg q).toNat = (a :: bs).toFinset.sup fun b => (s.blobReg b q).toNat := by
  obtain ⟨validA, validBs⟩ := List.forall_mem_cons.1 valid
  obtain ⟨u, load⟩ : ∃ u, runAll (s.withRequests [Request.txn (loadTxn a)]) = u := ⟨_, rfl⟩
  have rest : runAll (u.withRequests ((bs.map mergeTxn).map .txn)) = t := by
    rw [← load, ← runAll_append]
    exact run
  obtain ⟨sameU, array, -⟩ := runAll_load h c validA load
  obtain ⟨count, blobReg, validBlob⟩ := sameU.blob
  obtain ⟨sameT, regT⟩ := runAll_merges (load ▸ h.runAll_withRequests _) (sameU.1.trans c)
    (fun b hb => (validBlob b).2 (validBs b hb)) rest
  refine ⟨sameU.trans sameT, fun q hq => ?_⟩
  have held : u.reg q = s.blobReg a q := by
    rw [State.reg, array, readReg_store _ h.form (validA.1 ▸ (h.wordOf_lt hq).1), ← blobReg]
    rfl
  rw [regT q (count ▸ hq), held, blobReg, List.toFinset_cons, Finset.sup_insert]

/-- Two states of one configuration have the same array when they have the same registers. -/
theorem Inv.array_eq_of_reg {s t u : State} (ht : Inv t) (hu : Inv u) (c : s.configured = true)
    (st : SameButArray s t) (su : SameButArray s u)
    (reg : ∀ q, q < s.count → t.reg q = u.reg q) : t.ra = u.ra := by
  obtain ⟨ct, lt, pt, -⟩ := st
  obtain ⟨cu, lu, pu, -⟩ := su
  have cleanT := ht.clean_all (ct.trans c)
  have cleanU := hu.clean_all (cu.trans c)
  simp only [State.illegalMask, State.count, State.reg, lt, lu, pt, pu] at cleanT cleanU reg
  exact Memory.ext_of_regs ht.form hu.form cleanT cleanU reg

/-- The array that LOAD of a blob and MERGEs of others leave depends on which blobs they are only
(R84). -/
theorem arrayAfter_load_merges_congr {s : State} (h : Inv s) (c : s.configured = true)
    {a b : List Word} {as bs : List (List Word)} (valid : ∀ x ∈ a :: as, ValidBlob s x)
    (same : (a :: as).toFinset = (b :: bs).toFinset) :
    arrayAfter s (loadTxn a :: as.map mergeTxn) = arrayAfter s (loadTxn b :: bs.map mergeTxn) := by
  have valid' : ∀ x ∈ b :: bs, ValidBlob s x := fun x hx =>
    valid x (List.mem_toFinset.1 (same ▸ List.mem_toFinset.2 hx))
  obtain ⟨sameA, regA⟩ := runAll_load_merges h c valid rfl
  obtain ⟨sameB, regB⟩ := runAll_load_merges h c valid' rfl
  refine (h.runAll_withRequests _).array_eq_of_reg (h.runAll_withRequests _) c sameA sameB
    fun q hq => BitVec.eq_of_toNat_eq ?_
  rw [regA q hq, regB q hq, same]

/-- Settles O36: in each equation both sides load and merge the same blobs. -/
theorem mergeIsAJoin : Obligations.MergeIsAJoin := by
  intro s a b c h conf validA validB validC
  refine ⟨?_, ?_, ?_⟩
  · exact arrayAfter_load_merges_congr h conf (as := [b]) (bs := [a]) (by simp [validA, validB])
      (List.toFinset_eq_of_perm _ _ (.swap b a []))
  · exact arrayAfter_load_merges_congr h conf (as := [a]) (bs := []) (by simp [validA]) (by simp)
  · exact arrayAfter_load_merges_congr h conf (as := [b, c]) (bs := [c, a])
      (by simp [validA, validB, validC])
      (List.toFinset_eq_of_perm _ _ (List.perm_append_comm (l₁ := [a]) (l₂ := [b, c])))

/-- Settles O37, by a run of the two transactions. -/
theorem mergeIsPerRegisterNotPerWord : Obligations.MergeIsPerRegisterNotPerWord := by
  unfold Obligations.MergeIsPerRegisterNotPerWord
  decide +kernel

/-! ### SER and LOAD are inverse (R86) -/

/-- Storing the array's own blob leaves the array (R86). -/
theorem Inv.store_blob {s : State} (h : Inv s) (c : s.configured = true) :
    s.ra.store s.blob = s.ra := by
  have valid := h.validBlob c
  refine Memory.ext (h.withRa_store c valid.1 valid.blobValid).form h.form fun w => ?_
  rw [Memory.read_store h.form, valid.1]
  split
  · exact s.blob_getD ‹_›
  · rfl

/-- A blob stored reads back as the blob (R86). -/
theorem Memory.map_read_store {m : Memory} (hm : m.wf = true) (ws : List Word) :
    (List.range ws.length).map (m.store ws).read = ws := by
  refine List.ext_getElem (by simp) fun w h1 h2 => ?_
  rw [List.getElem_map, List.getElem_range, Memory.read_store hm, if_pos h2,
    List.getD_eq_getElem _ _ h2]

/-- SER alone on the port is answered with the array's blob (R85). -/
theorem runAll_serTxn {s : State} (c : s.configured = true) :
    (runAll (s.withRequests [Request.txn serTxn])).responses =
      s.responses ++ [⟨0#32, s.blob.flatMap be32⟩] := by
  rw [serTxn, runAll_wordsTxn rfl ((firstError_ser _).2 ⟨rfl, c⟩), ← s.blobBytes_eq]
  rfl

/-- The blob of an array with the same configuration passes the checks of LOAD and is stored (R81). -/
theorem exec_load_blob {s u : State} (h : Inv s) (c : s.configured = true) (same : SameEngine s u)
    (pay : u.pay = s.blob.flatMap be32) :
    exec (.load (4 * s.size)) u = .next (u.respond okStatus []) := by
  obtain ⟨configured, log2m, ra, params, draws⟩ := same
  have words : u.payWords = s.blob := by rw [State.payWords, pay, beWords_flatMap_be32]
  have size : u.size = s.size := by rw [State.size, log2m, State.size]
  have valid : ValidBlob u s.blob :=
    ((SameButArray.blob ⟨configured, log2m, params, draws⟩).2.2 _).2 (h.validBlob c)
  have pass : firstError (.load (4 * s.size)) u = none :=
    (firstError_load _ u).2 ⟨by rw [pay, flatMap_be32_length, (h.validBlob c).1],
      configured.trans c, by rw [size], words ▸ valid.blobValid⟩
  rw [exec_pass pass, effectOf, words, ra, h.store_blob c, respond_withRa_same ra.symm]

/-- Settles O39: what SER returns is the array's blob, and a blob stored is the array's blob. -/
theorem serAndLoadAreInverse : Obligations.SerAndLoadAreInverse := by
  constructor
  · intro s t u h c pay ser same result
    rw [exec_pass ((firstError_ser s).2 ⟨pay, c⟩)] at ser
    cases ser
    refine ⟨_, exec_load_blob h c same ?_, same.2.2.1, answered_respond _ _ _⟩
    rw [result, ← s.blobBytes_eq]
    simp [effectOf]
  · intro s blob h c valid
    obtain ⟨t, load⟩ : ∃ t, runAll (s.withRequests [Request.txn (loadTxn blob)]) = t := ⟨_, rfl⟩
    obtain ⟨same, array, responses⟩ := runAll_load h c valid load
    have held : t.blob = blob := by
      rw [State.blob, array, State.size, same.2.1, ← State.size, ← valid.1,
        Memory.map_read_store h.form]
    have run := runAll_append s [Request.txn (loadTxn blob)] [Request.txn serTxn]
    rw [load] at run
    rw [← List.singleton_append, run, runAll_serTxn (same.1.trans c), responses, held,
      List.append_assoc]
    rfl

/-! ### The sizes of blobs (R88, R89) -/

/-- R88's value fits 32 bits for every operand. -/
theorem bytesNeeded_lt {i : Nat} (hi : i < 32) : bytesNeeded i < 2 ^ 32 := by
  have : 2 ^ i ≤ 2 ^ 31 := Nat.pow_le_pow_right (by decide) (by omega)
  rw [bytesNeeded, ceilDiv, slots]
  omega

/-- Settles O40: the value fits the word. -/
theorem bytesneededReturnsTheBlobSize : Obligations.BytesneededReturnsTheBlobSize := by
  intro s v pay
  refine ⟨_, _, exec_pass ((firstError_bytesneeded v s).2 pay), sameEngine_respond _ _ _,
    answered_respond _ _ _, ?_⟩
  exact (BitVec.toNat_ofNat _ _).trans (Nat.mod_eq_of_lt (bytesNeeded_lt v.isLt))

/-- SIZE rises with LOG2M (R89). -/
theorem sizeWords_lt {m n : Nat} (hm : 4 ≤ m) (h : m < n) : sizeWords m < sizeWords n := by
  have least : 2 ^ 4 ≤ 2 ^ m := Nat.pow_le_pow_right (by decide) hm
  have double : 2 ^ (m + 1) ≤ 2 ^ n := Nat.pow_le_pow_right (by decide) h
  rw [pow_succ] at double
  rw [sizeWords_eq, sizeWords_eq]
  omega

/-- Legal LOG2Ms of one SIZE are equal (R89). -/
theorem eq_of_sizeWords_eq {m n : Nat} (hm : 4 ≤ m) (hn : 4 ≤ n)
    (same : sizeWords m = sizeWords n) : m = n := by
  rcases lt_trichotomy m n with lt | eq | gt
  · exact absurd same (sizeWords_lt hm lt).ne
  · exact eq
  · exact absurd same (sizeWords_lt hn gt).ne'

/-- Of a LOAD or MERGE with the payload its P names, in a configured state, the first check to fail is
SIZE_MISMATCH when P is not the blob size (R110). -/
theorem firstError_sizeMismatch {i : Instr} {s : State} {p : Nat} (hi : i = .load p ∨ i = .merge p)
    (len : s.pay.length = p) (c : s.configured = true) (other : p ≠ 4 * s.size) :
    firstError i s = some .sizeMismatch := by
  rcases hi with rfl | rfl <;>
    simp [firstError, illegalOp, badLength, plen, raggedBatch, needsConfig, badConfig, badPosition,
      positionOperand, badSize, blobOperand, len, c, other]

/-- Settles O41: a payload of another legal LOG2M's blob length is not of this one's. -/
theorem sizeSeparatesConfigurations : Obligations.SizeSeparatesConfigurations := by
  refine ⟨fun m n low lt _ => sizeWords_lt low lt, fun s n h c low _ ne len => ?_⟩
  have other : 4 * sizeWords n ≠ 4 * s.size := fun same =>
    ne (eq_of_sizeWords_eq low (h.log2m_range c).1 (Nat.eq_of_mul_eq_mul_left (by decide) same))
  have mismatch : ∀ i, i = .load (4 * sizeWords n) ∨ i = .merge (4 * sizeWords n) →
      ∃ t, exec i s = .next t ∧ SameEngine s t ∧ Answered s t 7#32 [] := fun i hi =>
    ⟨_, exec_fail (firstError_sizeMismatch hi len c other), sameEngine_respond _ _ _,
      answered_respond _ _ _⟩
  exact ⟨mismatch _ (.inl rfl), mismatch _ (.inr rfl)⟩

/-! ### Which commands lower a register (R26, R87) -/

/-- Raising registers below COUNT lowers none (R79, R87). -/
theorem Inv.le_reg_raiseAll {s : State} (h : Inv s) {ps : List (Nat × RegVal)}
    (hp : ∀ x ∈ ps, x.1 < s.count) (q : Nat) :
    (s.reg q).toNat ≤
      (readReg s.params.fieldShift (raiseAll s.params.fieldShift ps s.ra).1 q).toNat := by
  rw [readReg_raiseAll h.layout h.form (h.words_lt hp)]
  exact le_max_left _ _

/-- UPDMAX, ADD and MERGE lower no register: each raises a list of registers, UPDMAX a list of one
(R87). -/
theorem Inv.le_reg_effectOf {s : State} (h : Inv s) {i : Instr}
    (raising : (∃ v p, i = .updmax v p) ∨ (∃ p, i = .add p) ∨ ∃ p, i = .merge p)
    (pass : firstError i s = none) (q : Nat) :
    (s.reg q).toNat ≤ ((Machine.effectOf i s).reg q).toNat := by
  rcases raising with ⟨v, p, rfl⟩ | ⟨p, rfl⟩ | ⟨p, rfl⟩
  · obtain ⟨-, -, hp⟩ := (firstError_updmax v p s).1 pass
    exact h.le_reg_raiseAll (ps := [(p, v)]) (by simpa using hp) q
  · exact h.le_reg_raiseAll (h.batchPairs_lt _) q
  · exact h.le_reg_raiseAll (fun _ => mem_blobRegs) q

/-- An engine at LOG2M = 4 with register 0 equal to 1 and every other register 0. -/
def oneRegisterSet : State :=
  { State.reset with configured := true, log2m := 4, ra := [(0, 4#32)] }

theorem inv_oneRegisterSet : Inv oneRegisterSet :=
  .of_checks (by decide) (by decide) (by decide) (by decide) defaultFieldShift_legal

/-- Settles O43: what raises lowers nothing; and SET, CLEAR, CONFIG and LOAD each make a register 0 that
was 1. -/
theorem onlyOverwritesLowerARegister : Obligations.OnlyOverwritesLowerARegister := by
  refine ⟨fun s t i q h _ _ raising ht => ?_, oneRegisterSet, inv_oneRegisterSet, rfl,
    ?set, ?clear, ?config, ?load⟩
  case set | clear | config => exact ⟨_, exec_pass (by decide), by decide⟩
  case load =>
    exact ⟨oneRegisterSet.withRequests [.txn (loadTxn [0, 0, 0])], _, sameEngine_withRequests _ _,
      exec_pass (by decide), by decide⟩
  rcases exec_cases ht with ⟨e, -, rfl⟩ | ⟨pass, rfl⟩
  · exact le_rfl
  · exact h.le_reg_effectOf raising pass q

end Sys2Proof.Machine

/-! SUPPORT. The family 42_estimator.md: the table ALPHA_ROM (R90), a sketch on which the estimate falls
(R102), what every LN64 answers (R96) and that the default answers the nearest value (R96, D15), the
estimate of an empty array (R100), and the bound on every estimate (R101). -/

namespace Sys2Proof.Machine

/-! ### Fixed values (R90, R102) -/

/-- Settles O50, by evaluation of the thirteen formulas. -/
theorem alphaRomIsTheFormula : Obligations.AlphaRomIsTheFormula := by
  unfold Obligations.AlphaRomIsTheFormula
  decide +kernel

/-- Registers 0 to 14 with the value `v`, register 15 with the value `u` (V-EST-7, V-EST-8). -/
def fifteenAndLast (v u : RegVal) : List (Nat × RegVal) :=
  (List.range 16).map fun p => (p, if p < 15 then v else u)

/-- An engine at LOG2M = 4 with those registers. -/
def skewedEngine (v u : RegVal) : State :=
  ((State.reset.withConfig 4).withRa []).withRa
    (raiseAll defaultFieldShift (fifteenAndLast v u) []).1

theorem inv_skewedEngine (v u : RegVal) : Inv (skewedEngine v u) :=
  (resetMeetsTheInvariants.withConfig (v := 4) (by decide)).withRa_raiseAll rfl
    fun x hx => by
      obtain ⟨p, hp, rfl⟩ := List.mem_map.1 hx
      exact List.mem_range.1 hp

/-- Settles O49: V-EST-7 and V-EST-8, by evaluation of the four sketches. -/
theorem estimateIsNotMonotone : Obligations.EstimateIsNotMonotone := by
  refine ⟨skewedEngine 2 0, skewedEngine 2 1, skewedEngine 1 0, skewedEngine 1 1,
    inv_skewedEngine _ _, inv_skewedEngine _ _, inv_skewedEngine _ _, inv_skewedEngine _ _, ?_⟩
  decide +kernel

/-! ### Rounding below a bound (R11) -/

/-- No finite value is nearer to a quotient than its rounding (R11). -/
theorem b64Value_fl64_nearest {n d : Nat} {b : B64} (hd : 0 < d) (hf : (fl64 n d).toNat < b64Inf)
    (hb : b.toNat < b64Inf) :
    |b64Value (fl64 n d) - (n : ℚ) / d| ≤ |b64Value b - (n : ℚ) / d| :=
  (fl64RoundsToNearestTiesToEven n d b hd hf hb).1

/-- The binade of a quotient of at most `2^k`. -/
theorem binadeOf_le {n d k : Nat} (h : n ≤ 2 ^ k * d) : binadeOf n d ≤ 1023 + k := by
  have scaled : b64Unit * n / d ≤ 2 ^ (1075 + k) := by
    rw [pow_add, ← b64Unit]
    refine Nat.div_le_of_le_mul ?_
    calc b64Unit * n ≤ b64Unit * (2 ^ k * d) := Nat.mul_le_mul_left _ h
      _ = d * (b64Unit * 2 ^ k) := by ring
  have log : Nat.log2 (b64Unit * n / d) ≤ 1075 + k := by
    rw [Nat.log2_eq_log_two]
    exact (Nat.log_mono_right scaled).trans (Nat.log_pow (by decide) _).le
  rw [binadeOf]
  omega

/-- A quotient of at most a whole number below 2^53 rounds to a finite value of at most that number. -/
theorem b64Value_fl64_le {n d m : Nat} (hd : 0 < d) (hm : m < 2 ^ 53) (h : n ≤ m * d) :
    (fl64 n d).toNat < b64Inf ∧ b64Value (fl64 n d) ≤ m := by
  have finite : ∀ {n d : Nat}, 0 < d → n ≤ 2 ^ 53 * d → (fl64 n d).toNat < b64Inf :=
    fun hd h => fl64_lt_inf hd ((binadeOf_le h).trans (by decide))
  have hf : (fl64 n d).toNat < b64Inf := finite hd (h.trans (Nat.mul_le_mul_right d hm.le))
  refine ⟨hf, ?_⟩
  have bound : b64Value (fl64 m 1) = m := by
    simpa using b64Value_fl64_two_pow (k := 0) hm (by decide)
  have near := b64Value_fl64_nearest hd hf (finite (n := m) Nat.one_pos (by omega))
  have le : (n : ℚ) / d ≤ m := by
    rw [div_le_iff₀ (by exact_mod_cast hd)]
    exact_mod_cast h
  rw [bound, abs_of_nonneg (sub_nonneg.2 le)] at near
  linarith [le_abs_self (b64Value (fl64 n d) - (n : ℚ) / d)]

/-! ### What every LN64 answers (R96) -/

/-- Every answer that R96 admits is finite. -/
theorem finite_of_lnAdmitted {y : B64} (h : lnAdmitted y = true) : y.toNat < b64Inf :=
  (of_decide_eq_true h).trans (by decide)

/-- The answers that R96 admits are the finite values below 2^30 (log entry 6). -/
theorem lnAdmitted_iff {y : B64} (hy : y.toNat < b64Inf) :
    lnAdmitted y = true ↔ b64Scaled y < b64Unit * 2 ^ 30 := by
  have bound : b64Scaled 0x41D0000000000000#64 = b64Unit * 2 ^ 30 := by decide +kernel
  rw [lnAdmitted, decide_eq_true_eq, ← bound]
  constructor
  · exact b64Scaled_strictMono (b := 0x41D0000000000000#64) (by decide)
  · intro lt
    by_contra ge
    rcases (not_lt.1 ge).lt_or_eq with above | same
    · exact absurd (b64Scaled_strictMono (a := 0x41D0000000000000#64) hy above) lt.not_gt
    · exact lt.ne (congrArg b64Scaled (BitVec.eq_of_toNat_eq same.symm))

theorem ln64_one (c : LnChoice) : ln64 c 0x3FF0000000000000#64 = 0 := if_pos rfl

/-- Settles O53: an answer is admitted, so it is finite. -/
theorem everyLogarithmIsAdmitted : Obligations.EveryLogarithmIsAdmitted := fun c q =>
  ⟨ln64_one c, finite_of_lnAdmitted (ln64_admitted c q)⟩

/-! ### The estimate of an empty array (R100) -/

/-- With every register 0 the sum is COUNT·2^31 and every register is counted (R92, R93). -/
theorem estimate_of_zero {s : State} (zero : ∀ p, p < s.count → s.reg p = 0) :
    s.estimate = estimateOf s.params.ln s.log2m.toNat (s.count * 2 ^ 31) s.count := by
  have sum : ∑ p ∈ Finset.range s.count, 2 ^ (31 - (s.reg p).toNat) = s.count * 2 ^ 31 := by
    rw [Finset.sum_congr rfl fun p hp => by rw [zero p (Finset.mem_range.1 hp)]]
    simp
  have all : ((Finset.range s.count).filter fun p => s.reg p = 0) = Finset.range s.count :=
    Finset.filter_true_of_mem fun p hp => zero p (Finset.mem_range.1 hp)
  rw [State.estimate_eq, sum, all, Finset.card_range]

/-- Of an empty array raw is at most THRESH, and COUNT / zeros is 1.0, at every legal LOG2M. -/
theorem empty_raw_le_thresh : ∀ n ∈ Finset.Icc 4 16,
    b64Le (rawEstimate n (countOf n * 2 ^ 31)) (thresh n) = true ∧
      fl64 (countOf n) (countOf n) = 0x3FF0000000000000#64 := by
  decide +kernel

theorem fl64Mul_zero (a : B64) : fl64Mul a 0 = 0 := by
  rw [fl64Mul, show b64Scaled 0 = 0 from rfl, mul_zero]
  decide +kernel

/-- The path is LINEAR and the estimate 0 (R100). -/
theorem estimateOf_empty (c : LnChoice) {n : Nat} (h1 : 4 ≤ n) (h2 : n ≤ 16) :
    estimateOf c n (countOf n * 2 ^ 31) (countOf n) = (.linear, 0) := by
  obtain ⟨le, one⟩ := empty_raw_le_thresh n (Finset.mem_Icc.2 ⟨h1, h2⟩)
  have path : estimatePath n (countOf n) (rawEstimate n (countOf n * 2 ^ 31)) = .linear := by
    rw [estimatePath, if_pos le, if_pos (show 0 < countOf n from Nat.two_pow_pos n)]
  refine Prod.ext path ((estimateOf_linear path).trans ?_)
  rw [linearCounting, one, ln64_one, fl64Mul_zero]
  decide +kernel

/-- Settles O47: all COUNT registers are zeros, so q is 1.0, whose logarithm is 0 for every LN64. -/
theorem emptyArrayEstimatesZero : Obligations.EmptyArrayEstimatesZero := by
  intro s inv pay c zero
  obtain ⟨low, high⟩ := inv.log2m_range c
  have estimate : s.estimate = (.linear, 0) :=
    (estimate_of_zero zero).trans (estimateOf_empty _ low high)
  have next := exec_pass ((firstError_estimate s).2 ⟨pay, c⟩)
  rw [effectOf, estimate] at next
  exact ⟨_, next, sameEngine_respond _ _ _, answered_respond _ _ _⟩

/-! ### The bound on every estimate (R101) -/

/-- A value of at most a whole number rounds to at most that number. -/
theorem roundHalfUp_le {x : B64} {m : Nat} (h : b64Value x ≤ m) : roundHalfUp x ≤ m := by
  rw [roundHalfUp_eq_floor]
  refine Nat.lt_succ_iff.1 (Nat.floor_lt' (Nat.succ_ne_zero m) |>.2 ?_)
  push_cast
  linarith

/-- A whole number below 2^53 is exact, here in units (R11). -/
theorem b64Scaled_b64OfNat {n : Nat} (hn : n < 2 ^ 53) : b64Scaled (b64OfNat n) = b64Unit * n := by
  simpa [b64OfNat] using fl64_two_pow (k := 0) hn (by decide)

/-- Linear counting gives at most COUNT · 2^30, for the logarithm is below 2^30. -/
theorem linearCounting_le (c : LnChoice) {n : Nat} (hn : n ≤ 16) (zeros : Nat) :
    linearCounting c n zeros ≤ 2 ^ 46 := by
  have count := countOf_le hn
  have answer := ln64_admitted c (fl64 (countOf n) zeros)
  have ln := (lnAdmitted_iff (finite_of_lnAdmitted answer)).1 answer
  refine roundHalfUp_le (b64Value_fl64_le ?_ (by decide) ?_).2
  · exact Nat.mul_pos b64Unit_pos b64Unit_pos
  · rw [b64Scaled_b64OfNat (by omega)]
    calc b64Unit * countOf n * b64Scaled (ln64 c (fl64 (countOf n) zeros))
        ≤ b64Unit * 2 ^ 16 * (b64Unit * 2 ^ 30) := by gcongr; exact count
      _ = 2 ^ 46 * (b64Unit * b64Unit) := by ring

/-- Every entry of ALPHA_ROM is at most 3/4 · COUNT² (R90). -/
theorem alphaRom_le : ∀ n ∈ Finset.Icc 4 16,
    4 * b64Scaled (alphaRom n) ≤ b64Unit * (3 * (countOf n * countOf n)) := by
  decide +kernel

/-- Raw is at most 3/4 · COUNT · 2^31, for each of the COUNT terms of S is at least 1 (R92, R94). -/
theorem rawEstimate_le {n sum : Nat} (h1 : 4 ≤ n) (h2 : n ≤ 16) (low : countOf n ≤ sum)
    (high : sum < 2 ^ 53) : b64Value (rawEstimate n sum) ≤ (3 * 2 ^ 45 : Nat) := by
  have sumScaled := fl64_two_pow (k := 31) high (by decide)
  have alpha := alphaRom_le n (Finset.mem_Icc.2 ⟨h1, h2⟩)
  refine (b64Value_fl64_le ?_ (by decide) ?_).2
  · refine pos_of_mul_pos_left (b := 2 ^ 31) ?_ (Nat.zero_le _)
    rw [sumScaled]
    exact Nat.mul_pos b64Unit_pos ((Nat.two_pow_pos n).trans_le low)
  · refine Nat.le_of_mul_le_mul_right (c := 4 * 2 ^ 31) ?_ (by decide)
    calc b64Scaled (alphaRom n) * (4 * 2 ^ 31)
        = 4 * b64Scaled (alphaRom n) * 2 ^ 31 := by ring
      _ ≤ b64Unit * (3 * (countOf n * countOf n)) * 2 ^ 31 := by gcongr
      _ ≤ b64Unit * (3 * (2 ^ 16 * sum)) * 2 ^ 31 := by gcongr; exact countOf_le h2
      _ = 3 * 2 ^ 47 * (b64Unit * sum) := by ring
      _ = 3 * 2 ^ 45 * b64Scaled (fl64 sum (2 ^ 31)) * (4 * 2 ^ 31) := by rw [← sumScaled]; ring

/-- S is at least COUNT, for each term is at least 1 (R92). -/
theorem count_le_sum_two_pow (count : Nat) (x : Nat → RegVal) :
    count ≤ ∑ p ∈ Finset.range count, 2 ^ (31 - (x p).toNat) := by
  simpa using Finset.card_nsmul_le_sum (Finset.range count) _ 1 fun p _ => Nat.one_le_two_pow

/-- The estimate is bounded on both kinds of path (R96 to R98). -/
theorem estimateOf_le (c : LnChoice) {n sum : Nat} (zeros : Nat) (h1 : 4 ≤ n) (h2 : n ≤ 16)
    (low : countOf n ≤ sum) (high : sum < 2 ^ 53) : (estimateOf c n sum zeros).2 ≤ 3 * 2 ^ 45 := by
  by_cases path : estimatePath n zeros (rawEstimate n sum) = .linear
  · rw [estimateOf_linear path]
    exact (linearCounting_le c h2 zeros).trans (by decide)
  · rw [estimateOf_raw path]
    exact roundHalfUp_le (rawEstimate_le h1 h2 low high)

/-- Settles O48: S is at least COUNT and below 2^48, so `estimateOf_le` bounds the estimate. -/
theorem estimateIsBelowTwoToThe47 : Obligations.EstimateIsBelowTwoToThe47 := by
  intro s inv c
  obtain ⟨low, high⟩ := inv.log2m_range c
  have below := sum_two_pow_lt inv.count_le s.reg
  rw [State.estimate_eq]
  exact (estimateOf_le _ _ low high (count_le_sum_two_pow _ _)
    (below.trans (by decide))).trans_lt (by decide)

/-! ### The default logarithm: the enclosure (R96, D15) -/

/-- `divUp` is at least the quotient. -/
theorem div_le_divUp (n : Nat) {d : Nat} (hd : 0 < d) : (n : ℝ) / d ≤ divUp n d := by
  rw [div_le_iff₀' (by exact_mod_cast hd)]
  exact_mod_cast le_smul_ceilDiv (α := Nat) (β := Nat) hd

/-- `n` terms of the series of artanh(z), from term `i`. -/
noncomputable def artanhTerms (z : ℝ) (i n : Nat) : ℝ :=
  ∑ k ∈ Finset.Ico i (i + n), z ^ (2 * k + 1) / (2 * k + 1)

@[simp] theorem artanhTerms_zero (z : ℝ) (i : Nat) : artanhTerms z i 0 = 0 := by
  simp [artanhTerms]

/-- The first term split off. -/
theorem artanhTerms_succ (z : ℝ) (i n : Nat) :
    artanhTerms z i (n + 1) = z ^ (2 * i + 1) / (2 * i + 1) + artanhTerms z (i + 1) n := by
  rw [artanhTerms, Finset.sum_eq_sum_Ico_succ_bot (by omega), artanhTerms, Nat.add_right_comm,
    Nat.add_assoc]

/-- The series of artanh(z) = 1/2 · ln((1 + z) / (1 - z)) between its first terms and those with a bound
of the rest. -/
theorem log_between_artanhTerms {z : ℝ} (z0 : 0 ≤ z) (z1 : z < 1) (n : Nat) :
    artanhTerms z 0 n ≤ 1 / 2 * Real.log ((1 + z) / (1 - z)) ∧
      1 / 2 * Real.log ((1 + z) / (1 - z)) ≤
        artanhTerms z 0 n + z ^ (2 * (0 + n) + 1) / (1 - z ^ 2) := by
  rw [artanhTerms, Nat.zero_add, ← Finset.range_eq_Ico]
  exact ⟨Real.sum_range_le_log_div z0 z1 n, Real.log_div_le_sum_range_add z0 z1 n⟩

/-- The next odd power of z = a / b. -/
theorem mul_odd_pow_succ (P : ℝ) (a b i : Nat) :
    P * ((a : ℝ) / b) ^ (2 * (i + 1) + 1) =
      P * ((a : ℝ) / b) ^ (2 * i + 1) * (a * a) / (b * b) := by
  ring

/-- `artanhBelow` is a lower bound of the terms that it adds, when `power` is one of the first power. -/
theorem artanhBelow_le (a b : Nat) {P : ℝ} (fuel i power : Nat)
    (h : (power : ℝ) ≤ P * ((a : ℝ) / b) ^ (2 * i + 1)) :
    (artanhBelow a b fuel i power : ℝ) ≤ P * artanhTerms ((a : ℝ) / b) i fuel := by
  induction fuel generalizing i power with
  | zero => simp [artanhBelow]
  | succ fuel ih =>
    have term : ((power / (2 * i + 1) : Nat) : ℝ) ≤
        P * (((a : ℝ) / b) ^ (2 * i + 1) / (2 * i + 1)) := by
      refine Nat.cast_div_le.trans ?_
      push_cast
      rw [← mul_div_assoc]
      gcongr
    have next : ((power * (a * a) / (b * b) : Nat) : ℝ) ≤
        P * ((a : ℝ) / b) ^ (2 * (i + 1) + 1) := by
      refine Nat.cast_div_le.trans ?_
      push_cast
      rw [mul_odd_pow_succ]
      gcongr
    rw [artanhBelow, artanhTerms_succ, mul_add]
    push_cast
    exact add_le_add term (ih _ _ next)

/-- `artanhAbove` is an upper bound of the terms that it adds and of the rest of the series, when `power`
is one of the first power and z ≤ 1/3. -/
theorem le_artanhAbove {a b : Nat} (hb : 0 < b) (small : 3 * a ≤ b) {P : ℝ} (fuel i power : Nat)
    (h : P * ((a : ℝ) / b) ^ (2 * i + 1) ≤ power) :
    P * (artanhTerms ((a : ℝ) / b) i fuel +
        ((a : ℝ) / b) ^ (2 * (i + fuel) + 1) / (1 - ((a : ℝ) / b) ^ 2)) ≤
      artanhAbove a b fuel i power := by
  induction fuel generalizing i power with
  | zero =>
    have third : (a : ℝ) / b ≤ 1 / 3 := by
      rw [div_le_div_iff₀ (by exact_mod_cast hb) (by norm_num)]
      exact_mod_cast (by omega : a * 3 ≤ 1 * b)
    have rest : (1 : ℝ) / 2 ≤ 1 - ((a : ℝ) / b) ^ 2 := by
      nlinarith [show (0 : ℝ) ≤ a / b by positivity]
    rw [artanhTerms_zero, zero_add, add_zero i, ← mul_div_assoc, artanhAbove,
      div_le_iff₀ (by linarith)]
    push_cast
    nlinarith [(Nat.cast_nonneg power : (0 : ℝ) ≤ power)]
  | succ fuel ih =>
    have term : P * (((a : ℝ) / b) ^ (2 * i + 1) / (2 * i + 1)) ≤ divUp power (2 * i + 1) := by
      refine le_trans ?_ (div_le_divUp power (Nat.succ_pos _))
      push_cast
      rw [← mul_div_assoc]
      gcongr
    have next : P * ((a : ℝ) / b) ^ (2 * (i + 1) + 1) ≤ divUp (power * (a * a)) (b * b) := by
      refine le_trans ?_ (div_le_divUp _ (Nat.mul_pos hb hb))
      push_cast
      rw [mul_odd_pow_succ]
      gcongr
    rw [artanhAbove, artanhTerms_succ, add_assoc, mul_add, Nat.add_comm fuel, ← Nat.add_assoc]
    push_cast
    exact add_le_add term (ih _ _ next)

/-- The bounds of `2^256 · artanh(a / b)` enclose it: `2·artanh(a / b)` is the logarithm of
`(b + a) / (b - a)`. -/
theorem artanh_enclosure {a b : Nat} (hb : 0 < b) (small : 3 * a ≤ b) {m : ℝ}
    (hm : (b : ℝ) + a = m * (b - a)) :
    2 * (artanhLo a b : ℝ) ≤ lnPrecision * Real.log m ∧
      lnPrecision * Real.log m ≤ 2 * (artanhHi a b : ℝ) := by
  have hb' : (0 : ℝ) < b := by exact_mod_cast hb
  have lt : (a : ℝ) < b := by exact_mod_cast (by omega : a < b)
  have z1 : (a : ℝ) / b < 1 := (div_lt_one hb').2 lt
  have quotient : (1 + (a : ℝ) / b) / (1 - (a : ℝ) / b) = m := by
    rw [div_eq_iff (by linarith)]
    field_simp
    linarith
  obtain ⟨below, above⟩ := log_between_artanhTerms (z := (a : ℝ) / b) (by positivity) z1 lnTerms
  rw [quotient] at below above
  have lo : (artanhLo a b : ℝ) ≤ lnPrecision * artanhTerms ((a : ℝ) / b) 0 lnTerms := by
    refine artanhBelow_le a b _ _ _ (Nat.cast_div_le.trans ?_)
    push_cast
    rw [pow_one, mul_div_assoc]
  have hi : lnPrecision * (artanhTerms ((a : ℝ) / b) 0 lnTerms +
      ((a : ℝ) / b) ^ (2 * (0 + lnTerms) + 1) / (1 - ((a : ℝ) / b) ^ 2)) ≤ artanhHi a b := by
    refine le_artanhAbove hb small _ _ _ (le_trans ?_ (div_le_divUp _ hb))
    push_cast
    rw [pow_one, mul_div_assoc]
  have P0 : (0 : ℝ) ≤ lnPrecision := Nat.cast_nonneg _
  constructor
  · linarith [mul_le_mul_of_nonneg_left below P0]
  · linarith [mul_le_mul_of_nonneg_left above P0]

/-! ### The default logarithm is the nearest value (R96, D15) -/

/-- The exponent field of a finite value of at least 1.0. -/
theorem b64Exp_range {q : B64} (one : 0x3FF0000000000000 ≤ q.toNat) (finite : q.toNat < b64Inf) :
    1023 ≤ b64Exp q ∧ b64Exp q ≤ 2046 := by
  rw [b64Inf] at finite
  rw [b64Exp, slice]
  omega

/-- A value with the exponent of 1.0 or a greater one is `(1 + fraction / 2^52) · 2^e` (R11). -/
theorem value_eq_of_exp_ge {q : B64} (low : 1023 ≤ b64Exp q) :
    (b64Scaled q : ℝ) / b64Unit = (1 + b64Frac q / 2 ^ 52) * 2 ^ lnExp q := by
  have exponent : 1023 + lnExp q = b64Exp q := Nat.add_sub_cancel' low
  have unit : (b64Unit : ℝ) = 2 ^ 1023 * 2 ^ 52 := by
    rw [← pow_add, b64Unit, Nat.cast_pow, Nat.cast_ofNat]
  rw [b64Scaled, if_neg (by omega), ← exponent, unit, pow_add]
  simp only [Nat.cast_mul, Nat.cast_add, Nat.cast_pow, Nat.cast_ofNat]
  rw [mul_assoc, mul_div_mul_left _ _ (by positivity)]
  ring

/-- The fraction part of a value is in [0, 1). -/
theorem b64Frac_div_range (q : B64) :
    (0 : ℝ) ≤ b64Frac q / 2 ^ 52 ∧ (b64Frac q : ℝ) / 2 ^ 52 < 1 := by
  have frac : (b64Frac q : ℝ) < 2 ^ 52 := by
    exact_mod_cast (slice_lt _ _ _ : b64Frac q < 2 ^ 52)
  exact ⟨by positivity, (div_lt_one (by positivity)).2 frac⟩

/-- The natural logarithm of a finite value of at least 1.0, from its fraction and its exponent. -/
theorem log_value_eq {q : B64} (low : 1023 ≤ b64Exp q) :
    Real.log ((b64Scaled q : ℝ) / b64Unit) =
      Real.log (1 + b64Frac q / 2 ^ 52) + lnExp q * Real.log 2 := by
  have fraction := (b64Frac_div_range q).1
  rw [value_eq_of_exp_ge low, Real.log_mul (by linarith) (by positivity), Real.log_pow]

/-- `lnLo` and `lnHi` enclose the natural logarithm. -/
theorem ln_enclosure {q : B64} (low : 1023 ≤ b64Exp q) :
    (lnLo q : ℝ) ≤ lnPrecision * Real.log ((b64Scaled q : ℝ) / b64Unit) ∧
      lnPrecision * Real.log ((b64Scaled q : ℝ) / b64Unit) ≤ lnHi q := by
  have frac : b64Frac q < 2 ^ 52 := slice_lt _ _ _
  obtain ⟨mLo, mHi⟩ := artanh_enclosure (a := lnNum q) (b := lnDen q)
    (m := 1 + b64Frac q / 2 ^ 52) (by rw [lnDen]; omega) (by rw [lnNum, lnDen]; omega) (by
      rw [lnNum, lnDen]
      push_cast
      ring)
  obtain ⟨twoLo, twoHi⟩ := artanh_enclosure (a := 1) (b := 3) (m := 2) (by decide) (by decide)
    (by norm_num)
  have exponent : (0 : ℝ) ≤ lnExp q := Nat.cast_nonneg _
  rw [log_value_eq low, lnLo, lnHi]
  push_cast
  constructor
  · linarith [mul_le_mul_of_nonneg_right twoLo exponent]
  · linarith [mul_le_mul_of_nonneg_right twoHi exponent]

/-- The natural logarithm of a finite value is at most 1024, for ln(m) ≤ m - 1. -/
theorem log_value_le {q : B64} (low : 1023 ≤ b64Exp q) (high : b64Exp q ≤ 2046) :
    Real.log ((b64Scaled q : ℝ) / b64Unit) ≤ 1024 := by
  obtain ⟨frac0, frac1⟩ := b64Frac_div_range q
  have exponent : (lnExp q : ℝ) ≤ 1023 := by
    exact_mod_cast (show b64Exp q - 1023 ≤ 1023 by omega)
  have log := Real.log_le_sub_one_of_pos (x := 1 + (b64Frac q : ℝ) / 2 ^ 52) (by linarith)
  have two : Real.log 2 ≤ 1 := by
    linarith [Real.log_le_sub_one_of_pos (x := 2) (by norm_num)]
  rw [log_value_eq low]
  linarith [mul_le_mul_of_nonneg_left two (Nat.cast_nonneg (α := ℝ) (lnExp q))]

/-- A value that is nearest to both ends of an interval is nearest to every point of it. -/
theorem nearest_between {y b lo hi x : ℝ} (nearLo : |y - lo| ≤ |b - lo|)
    (nearHi : |y - hi| ≤ |b - hi|) (ge : lo ≤ x) (le : x ≤ hi) : |y - x| ≤ |b - x| := by
  rw [← sq_le_sq] at *
  rcases le_total b y with h | h
  · nlinarith [mul_nonneg (sub_nonneg.2 h) (sub_nonneg.2 ge)]
  · nlinarith [mul_nonneg (sub_nonneg.2 h) (sub_nonneg.2 le)]

/-- No finite value is nearer to a quotient than its rounding, among the reals (R11). -/
theorem fl64_nearest_real {n d : Nat} {b : B64} (hd : 0 < d) (hf : (fl64 n d).toNat < b64Inf)
    (hb : b.toNat < b64Inf) :
    |(b64Scaled (fl64 n d) : ℝ) / b64Unit - (n : ℝ) / d| ≤
      |(b64Scaled b : ℝ) / b64Unit - (n : ℝ) / d| := by
  have near := b64Value_fl64_nearest hd hf hb
  rw [b64Value, b64Value, ← Rat.cast_le (K := ℝ)] at near
  push_cast at near
  exact near

theorem lnPrecision_pos : 0 < lnPrecision := Nat.two_pow_pos 256

/-- What the enclosure settles: q is finite and at least 1.0, and both bounds round to one value. -/
theorem lnSettled_iff (q : B64) :
    lnSettled q = true ↔ (0x3FF0000000000000 ≤ q.toNat ∧ q.toNat < b64Inf) ∧
      fl64 (lnLo q) lnPrecision = fl64 (lnHi q) lnPrecision := by
  rw [lnSettled, Bool.and_eq_true, Bool.and_eq_true, decide_eq_true_eq, decide_eq_true_eq,
    beq_iff_eq]

/-- The lower bound rounds to an answer that R96 admits: it is at most 1024. -/
theorem lnAdmitted_lnLo {q : B64} (low : 1023 ≤ b64Exp q) (high : b64Exp q ≤ 2046) :
    lnAdmitted (fl64 (lnLo q) lnPrecision) = true := by
  have bound : lnLo q ≤ 1024 * lnPrecision := by
    have real := (ln_enclosure low).1.trans
      (mul_le_mul_of_nonneg_left (log_value_le low high) (Nat.cast_nonneg _))
    rw [mul_comm] at real
    exact_mod_cast real
  obtain ⟨finite, le⟩ := b64Value_fl64_le lnPrecision_pos (by decide) bound
  rw [b64Value, div_le_iff₀ (by exact_mod_cast b64Unit_pos)] at le
  have scaled : b64Scaled (fl64 (lnLo q) lnPrecision) ≤ 1024 * b64Unit := by exact_mod_cast le
  have unit := b64Unit_pos
  rw [lnAdmitted_iff finite]
  omega

/-- Where the enclosure settles q, the default answers what the lower bound rounds to. -/
theorem ln64_of_settled {q : B64} (settled : lnSettled q = true) (ne : q ≠ 0x3FF0000000000000#64)
    (admitted : lnAdmitted (fl64 (lnLo q) lnPrecision) = true) :
    ln64 .correctlyRounded q = fl64 (lnLo q) lnPrecision := by
  rw [ln64, if_neg ne, lnNearest, if_pos settled, admitLn, if_pos admitted]

/-- The default is nearest to the natural logarithm where the enclosure settles it: its answer is
nearest to both ends of the enclosure. -/
theorem ln64_nearest {q b : B64} (settled : lnSettled q = true) (ne : q ≠ 0x3FF0000000000000#64)
    (hb : b.toNat < b64Inf) :
    |(b64Scaled (ln64 .correctlyRounded q) : ℝ) / b64Unit -
        Real.log ((b64Scaled q : ℝ) / b64Unit)| ≤
      |(b64Scaled b : ℝ) / b64Unit - Real.log ((b64Scaled q : ℝ) / b64Unit)| := by
  obtain ⟨⟨one, finite⟩, same⟩ := (lnSettled_iff q).1 settled
  obtain ⟨low, high⟩ := b64Exp_range one finite
  obtain ⟨below, above⟩ := ln_enclosure low
  have admitted := lnAdmitted_lnLo low high
  have answer := finite_of_lnAdmitted admitted
  have precision : (0 : ℝ) < lnPrecision := by exact_mod_cast lnPrecision_pos
  rw [ln64_of_settled settled ne admitted]
  refine nearest_between (fl64_nearest_real lnPrecision_pos answer hb) ?_
    ((div_le_iff₀' precision).2 below) ((le_div_iff₀' precision).2 above)
  rw [same] at answer ⊢
  exact fl64_nearest_real lnPrecision_pos answer hb

/-- 1.0 has the logarithm 0, and LN64 answers 0 for it (R96). -/
theorem ln64_one_exact (c : LnChoice) :
    (b64Scaled (ln64 c 0x3FF0000000000000#64) : ℝ) / b64Unit =
      Real.log ((b64Scaled 0x3FF0000000000000#64 : ℝ) / b64Unit) := by
  have unit : b64Scaled 0x3FF0000000000000#64 = b64Unit := by decide +kernel
  have unit0 : (b64Unit : ℝ) ≠ 0 := by exact_mod_cast b64Unit_pos.ne'
  rw [ln64_one, unit, div_self unit0, Real.log_one, show b64Scaled 0 = 0 from rfl, Nat.cast_zero,
    zero_div]

/-- The enclosure settles each q that ESTIMATE forms at LOG2M = 4, by evaluation. -/
theorem lnSettled_sixteenths : ∀ zeros ∈ Finset.Icc 1 16, lnSettled (fl64 16 zeros) = true := by
  decide +kernel

/-- Settles O52: 1.0 is exact, and elsewhere a settled answer is nearest. -/
theorem defaultLogarithmIsNearest : Obligations.DefaultLogarithmIsNearest := by
  refine ⟨fun q b settled hb => ?_, fun zeros low high =>
    lnSettled_sixteenths zeros (Finset.mem_Icc.2 ⟨low, high⟩)⟩
  by_cases one : q = 0x3FF0000000000000#64
  · rw [one, ln64_one_exact, sub_self, abs_zero]
    exact abs_nonneg _
  · exact ln64_nearest settled one hb

end Sys2Proof.Machine

/-! SUPPORT. The family 43_control.md: NOP changes nothing (R104), and CONFIG empties the array or is
refused (R105). -/

namespace Sys2Proof.Machine

/-- Settles O22: with no payload no check of NOP fails, and its effect is the response alone. -/
theorem nopChangesNothing : Obligations.NopChangesNothing := fun s pay =>
  ⟨_, exec_pass ((firstError_nop s).2 pay), sameEngine_respond _ _ _, answered_respond _ _ _⟩

/-- Of a CONFIG with no payload, the first check to fail is CONFIG_ERROR when V is no legal LOG2M
(R105, R110). -/
theorem firstError_configError {v : RegVal} {s : State} (pay : s.pay = [])
    (illegal : ¬(4 ≤ v.toNat ∧ v.toNat ≤ 16)) : firstError (.config v) s = some .configError := by
  rw [← log2mLegal_iff, Bool.not_eq_true] at illegal
  simp [firstError, illegalOp, badLength, plen, raggedBatch, needsConfig, badConfig, pay, illegal]

/-- Settles O23: a legal V passes every check and the array is replaced by the empty one; any other V
fails the check of CONFIG_ERROR. -/
theorem configSetsUpAnEmptyArray : Obligations.ConfigSetsUpAnEmptyArray := by
  refine fun s v pay => ⟨fun legal => ?_, fun illegal => ?_⟩
  · exact ⟨_, exec_pass ((firstError_config v s).2 ⟨pay, legal⟩), rfl, rfl, Memory.read_nil, rfl, rfl,
      answered_respond _ _ _⟩
  · exact ⟨_, exec_fail (firstError_configError pay illegal), sameEngine_respond _ _ _,
      answered_respond _ _ _⟩

end Sys2Proof.Machine

/-! SUPPORT. The family 60_exceptions.md: the checks in the order of R110, each in the rule's own words,
and the errors that each opcode can raise (R108). -/

namespace Sys2Proof.Machine

/-! ### What the checks look at, by the opcode (R55, R56, R109) -/

section
variable {op : Nat} (cw : Word) (lt : op < 16)
include lt

theorem illegalOp_opInstr : illegalOp (opInstr op cw) = true ↔ op = 0xE ∨ op = 0xF := by
  interval_cases op <;> simp [opInstr, illegalOp]

theorem plen_opInstr : plen (opInstr op cw) = payloadLengthOf op (pField cw) := by
  interval_cases op <;> rfl

theorem raggedBatch_opInstr :
    raggedBatch (opInstr op cw) = true ↔ op = 0x7 ∧ pField cw % 4 ≠ 0 := by
  interval_cases op <;> simp [opInstr, raggedBatch]

theorem needsConfig_opInstr :
    needsConfig (opInstr op cw) = true ↔
      op ∈ [0x2, 0x3, 0x4, 0x5, 0x6, 0x7, 0x8, 0x9, 0xA, 0xB] := by
  interval_cases op <;> simp [opInstr, needsConfig]

theorem badConfig_opInstr :
    badConfig (opInstr op cw) = true ↔
      op = 0x1 ∧ ¬(4 ≤ (vField cw).toNat ∧ (vField cw).toNat ≤ 16) := by
  rw [← log2mLegal_iff]
  interval_cases op <;> simp [opInstr, badConfig]

theorem positionOperand_opInstr :
    positionOperand (opInstr op cw) = if op ∈ [0x3, 0x4, 0x5] then some (pField cw) else none := by
  interval_cases op <;> rfl

theorem blobOperand_opInstr :
    blobOperand (opInstr op cw) = if op ∈ [0x8, 0x9] then some (pField cw) else none := by
  interval_cases op <;> rfl

/-- The decoder rejects the words with a nonzero bit in RSV or in a field that the format does not use;
an illegal opcode has no such field (R53, R58). -/
theorem fieldsLegal_opFormat :
    fieldsLegal (opFormat op) cw = false ↔ op < 14 ∧
      (rsvField cw ≠ 0 ∨
        (op ∈ [0x0, 0x2, 0x6, 0xA, 0xB, 0xD] ∧ (vField cw ≠ 0 ∨ pField cw ≠ 0)) ∨
        (op ∈ [0x1, 0xC] ∧ pField cw ≠ 0) ∨ (op ∈ [0x4, 0x7, 0x8, 0x9] ∧ vField cw ≠ 0)) := by
  interval_cases op <;> simp [opFormat, fieldsLegal, ← imp_iff_not_or]

end

/-! ### The first check that fails (R110) -/

/-- No check of R110 before check `n` fails for a transaction. -/
def PassesBefore (n : Nat) (x : Txn) (s : State) : Prop := ∀ m, m < n → ¬checkFails m x s

/-- Check `n` of R110 fails for a transaction, and no check before it. -/
def FirstFails (n : Nat) (x : Txn) (s : State) : Prop := checkFails n x s ∧ PassesBefore n x s

/-- What has been found is the first check that fails, or that no check fails. -/
def FindsFirst (x : Txn) (s : State) : Option ECode → Prop
  | some e => FirstFails (ecodeNumber e) x s
  | none => ∀ n, ¬checkFails n x s

/-- There are eight checks (R110). -/
theorem checkFails_range {n : Nat} {x : Txn} {s : State} (h : checkFails n x s) :
    1 ≤ n ∧ n ≤ 8 := by
  unfold checkFails at h
  split at h
  case h_9 => exact h.elim
  all_goals decide

/-- No check comes before check 1. -/
theorem passesBefore_one (x : Txn) (s : State) : PassesBefore 1 x s := fun _ lt h =>
  absurd (checkFails_range h).1 (by omega)

theorem PassesBefore.succ {n : Nat} {x : Txn} {s : State} (before : PassesBefore n x s)
    (pass : ¬checkFails n x s) : PassesBefore (n + 1) x s :=
  Nat.forall_lt_succ_right.2 ⟨before, pass⟩

theorem FirstFails.unique {m n : Nat} {x : Txn} {s : State} (hm : FirstFails m x s)
    (hn : FirstFails n x s) : m = n := by
  rcases Nat.lt_trichotomy m n with h | h | h
  · exact (hn.2 m h hm.1).elim
  · exact h
  · exact (hm.2 n h hn.1).elim

/-- One link of the chain: a check that stands for check `n` of R110, reached when all before it pass. -/
theorem findsFirst_ite {x : Txn} {s : State} {b : Bool} {e : ECode} {later : Option ECode}
    (before : PassesBefore (ecodeNumber e) x s) (check : b = true ↔ checkFails (ecodeNumber e) x s)
    (next : PassesBefore (ecodeNumber e + 1) x s → FindsFirst x s later) :
    FindsFirst x s (if b then some e else later) := by
  cases b with
  | true => exact ⟨check.1 rfl, before⟩
  | false => exact next (before.succ fun h => nomatch check.2 h)

section
variable {s : State} {x : Txn} {rest : List Request} {i : Instr}
  (hs : s.requests = .txn x :: rest) (d : decode x.cw = .ok i)
include d

theorem illegalOp_iff : illegalOp i = true ↔ checkFails 1 x s := by
  rw [(decode_ok d).2, illegalOp_opInstr _ (opField_lt _)]
  rfl

/-- A word that decodes to no illegal opcode passes check 2. -/
theorem not_reservedField (before : PassesBefore 2 x s) : ¬checkFails 2 x s := by
  have fields := (decode_ok d).1
  rw [← Bool.not_eq_false, fieldsLegal_opFormat _ (opField_lt _)] at fields
  have lt := opField_lt x.cw
  have legal : ¬(opField x.cw = 0xE ∨ opField x.cw = 0xF) := before 1 (by decide)
  exact fun h => fields ⟨by omega, h⟩

theorem notConfigured_iff : (needsConfig i && !s.configured) = true ↔ checkFails 4 x s := by
  rw [Bool.and_eq_true, (decode_ok d).2, needsConfig_opInstr _ (opField_lt _), Bool.not_eq_true',
    and_comm]
  rfl

theorem badConfig_iff : badConfig i = true ↔ checkFails 5 x s := by
  rw [(decode_ok d).2, badConfig_opInstr _ (opField_lt _)]
  rfl

theorem badPosition_iff : badPosition i s = true ↔ checkFails 6 x s := by
  rw [badPosition, (decode_ok d).2, positionOperand_opInstr _ (opField_lt _)]
  by_cases op : opField x.cw ∈ [0x3, 0x4, 0x5]
  · rw [if_pos op]
    exact decide_eq_true_iff.trans (and_iff_right op).symm
  · simp [op, checkFails]

theorem badSize_iff : badSize i s = true ↔ checkFails 7 x s := by
  rw [badSize, (decode_ok d).2, blobOperand_opInstr _ (opField_lt _)]
  by_cases op : opField x.cw ∈ [0x8, 0x9] <;> simp [op, checkFails]

include hs

theorem badLength_iff : badLength i s = true ↔ checkFails 3 x s := by
  rw [badLength, s.pay_of_requests hs, (decode_ok d).2, plen_opInstr _ (opField_lt _),
    Bool.or_eq_true, raggedBatch_opInstr _ (opField_lt _), bne_iff_ne]
  rfl

/-- The payload that has passed checks 3 and 7 has SIZE words, so the blob is looked at as a whole. -/
theorem badBlob_iff (length : ¬checkFails 3 x s) (size : ¬checkFails 7 x s) :
    badBlob i s = true ↔ checkFails 8 x s := by
  rw [badBlob, (decode_ok d).2, blobOperand_opInstr _ (opField_lt _)]
  by_cases op : opField x.cw ∈ [0x8, 0x9]
  · have plen : payloadLengthOf (opField x.cw) (pField x.cw) = pField x.cw := by
      rcases List.mem_pair.1 op with h | h <;> rw [h] <;> rfl
    simp only [checkFails, plen, not_or, not_not, not_and] at length size
    have words : s.payWords.length = s.size := by
      rw [State.payWords, s.pay_of_requests hs, beWords_length, length.1, size op]
      omega
    have valid := blobValid_iff s.params.fieldShift s.count s.payWords
    rw [words, State.payWords, s.pay_of_requests hs] at valid
    rw [if_pos op]
    simp [checkFails, op, State.payWords, s.pay_of_requests hs, State.illegalMask,
      ← Bool.not_eq_true, valid]
  · simp [op, checkFails]

/-- The engine's chain of checks is that of R110, check 2 having been the decoder's. -/
theorem firstError_findsFirst : FindsFirst x s (firstError i s) :=
  findsFirst_ite (passesBefore_one x s) (illegalOp_iff d) fun b2 =>
  findsFirst_ite (b2.succ (not_reservedField d b2)) (badLength_iff hs d) fun b4 =>
  findsFirst_ite b4 (notConfigured_iff d) fun b5 =>
  findsFirst_ite b5 (badConfig_iff d) fun b6 =>
  findsFirst_ite b6 (badPosition_iff d) fun b7 =>
  findsFirst_ite b7 (badSize_iff d) fun b8 =>
  findsFirst_ite b8 (badBlob_iff hs d (b8 3 (by decide)) (b8 7 (by decide))) fun b9 n h =>
    b9 n (Nat.lt_succ_of_le (checkFails_range h).2) h

end

/-- A word that the decoder rejects fails check 2 and no check before it (R58). -/
theorem firstFails_of_reject {x : Txn} {r : Reject} (d : decode x.cw = .error r) (s : State) :
    FirstFails 2 x s := by
  have fields : fieldsLegal (opFormat (opField x.cw)) x.cw = false := by
    by_contra h
    rw [decode, if_pos (by simpa using h)] at d
    cases d
  obtain ⟨lt, reserved⟩ := (fieldsLegal_opFormat _ (opField_lt _)).1 fields
  refine ⟨reserved, (passesBefore_one x s).succ ?_⟩
  rintro (h | h) <;> omega

/-- The two things a transaction can do: it is answered the number of its first failing check, with no
effect, or no check fails and it is answered with ECODE 0 (R110, R111). -/
theorem step_firstFails {s : State} {x : Txn} {rest : List Request}
    (hs : s.requests = .txn x :: rest) :
    (∃ n, FirstFails n x s ∧ step s = .next (s.respond (BitVec.ofNat 32 n) [])) ∨
      (∀ n, ¬checkFails n x s) ∧
        ∃ t r, step s = .next t ∧ t.responses = s.responses ++ [r] ∧ statusECode r.status = 0 := by
  cases d : decode x.cw with
  | error r => exact .inl ⟨2, firstFails_of_reject d s, step_reject hs d⟩
  | ok i =>
    have found := firstError_findsFirst hs d
    rw [step_command hs d]
    cases h : firstError i s with
    | some e =>
      rw [h] at found
      exact .inl ⟨_, found, by rw [exec_fail h, errorStatus_eq]⟩
    | none =>
      rw [h] at found
      obtain ⟨updated, path, result, answer⟩ := effectOf_responses h
      exact .inr ⟨found, _, _, exec_pass h, answer, statusECode_statusWord (by decide) _ _⟩

/-- Settles O12: the first check that fails is the one whose number is answered. -/
theorem firstFailingCheckIsReported : Obligations.FirstFailingCheckIsReported := by
  intro s x rest hs
  rcases step_firstFails hs with ⟨n, first, answer⟩ | ⟨none, success⟩
  · exact ⟨fun k fails before => FirstFails.unique ⟨fails, before⟩ first ▸ answer,
      fun none => (none n first.1).elim⟩
  · exact ⟨fun k fails _ => (none k fails).elim, fun _ => success⟩

/-! ### The errors of each opcode (R108) -/

/-- The first check to fail is one that R108 lists for the opcode. -/
theorem FirstFails.mem_listedErrors {n : Nat} {x : Txn} {s : State} (h : FirstFails n x s) :
    n ∈ listedErrors (opField x.cw) := by
  obtain ⟨fails, before⟩ := h
  have legal : 1 < n → opField x.cw < 14 := fun one => by
    have op : ¬(opField x.cw = 0xE ∨ opField x.cw = 0xF) := before 1 one
    have lt := opField_lt x.cw
    omega
  have all : ∀ op, op < 14 → 2 ∈ listedErrors op ∧ 3 ∈ listedErrors op := by decide
  obtain ⟨low, high⟩ := checkFails_range fails
  interval_cases n
  · rcases fails with op | op <;> rw [op] <;> decide
  · exact (all _ (legal (by decide))).1
  · exact (all _ (legal (by decide))).2
  · have : ∀ op ∈ [0x2, 0x3, 0x4, 0x5, 0x6, 0x7, 0x8, 0x9, 0xA, 0xB], 4 ∈ listedErrors op := by
      decide
    exact this _ fails.2
  · rw [fails.1]
    decide
  · have : ∀ op ∈ [0x3, 0x4, 0x5], 6 ∈ listedErrors op := by decide
    exact this _ fails.1
  all_goals
    rcases List.mem_pair.1 fails.1 with op | op <;> rw [op] <;> decide

/-- POS_RANGE does not fire at LOG2M = 16, where every P field is below COUNT (R108). -/
theorem not_posRange {s : State} (h : s.log2m = 16) (x : Txn) : ¬checkFails 6 x s := by
  rintro ⟨-, high⟩
  have := pField_lt x.cw
  rw [h] at high
  exact absurd high (by simpa using this)

/-- Settles O14: an error is the number of the first check that fails. -/
theorem onlyListedErrorsAreRaised : Obligations.OnlyListedErrorsAreRaised := by
  intro s t x rest r hs hstep hr
  rcases step_firstFails hs with ⟨n, first, answer⟩ | ⟨-, u, a, answer, ha, success⟩
  · cases hstep.symm.trans answer
    have := checkFails_range first.1
    have code : statusECode r.status = n := by
      rw [← (Answered.respond_inj ⟨rfl, hr⟩).1, statusECode, slice, BitVec.toNat_ofNat]
      omega
    rw [code]
    exact ⟨.inr first.mem_listedErrors, fun h six => not_posRange h x (six ▸ first.1)⟩
  · cases hstep.symm.trans answer
    rw [ha, List.append_cancel_left_eq, List.singleton_inj] at hr
    rw [← hr, success]
    exact ⟨.inl rfl, nofun⟩

end Sys2Proof.Machine

/-! SUPPORT. The family 70_reset_and_hazards.md: an engine with an empty port waits (R121). -/

namespace Sys2Proof.Machine

/-- Settles O10, by what a step does with an empty port. That waiting changes nothing is the model's
choice (log entry 10), not a clause of R121. -/
theorem idleEngineWaits : Obligations.IdleEngineWaits :=
  fun _ idle => step_idle idle

end Sys2Proof.Machine
